-- ==== Sys2Proof/Word.lean ====
section
/-! DEFINITION. The plainest value types: addresses, request words and mode codes.
Every number of the block is unsigned and its widths are parameters (spec R9, R7), so addresses, tags, indices, words and
counters are natural numbers bounded by invariants (notes/assumptions/4.md); the mode code alone has one fixed width (R72). -/

namespace Sys2Proof

/-- An address: an unsigned integer (R50); a record may carry one that is too large (R72). -/
abbrev Addr := Nat

/-- A request word of `ADDR_W + 8` bits (R72). -/
abbrev ReqWord := Nat

/-- The 8-bit mode code of a request (R72, R73). -/
abbrev ModeCode := BitVec 8

end Sys2Proof
end

