-- ==== Sys2Proof/Config.lean ====
section
/-! DEFINITION. The implementation parameters (spec R7), their defaults, and which configurations are allowed (R8).
No free value is needed: the spec leaves no result of an operation open (93_implementation_defined.md). -/

namespace Sys2Proof

/-- The radix of the address field of a trace line (R71): 10 or 16, nothing else. -/
inductive Radix where
  | ten
  | sixteen
  deriving DecidableEq, Repr

/-- The configuration record of R7. -/
structure Config where
  /-- `ADDR_W`, the width of an address in bits -/
  addrW : Nat
  /-- `L1_OB`, L1 offset bits -/
  l1Ob : Nat
  /-- `L1_IB`, L1 index bits -/
  l1Ib : Nat
  /-- `L1_WAYS`, L1 associativity -/
  l1Ways : Nat
  /-- `L2_OB`, L2 offset bits -/
  l2Ob : Nat
  /-- `L2_IB`, L2 index bits -/
  l2Ib : Nat
  /-- `L2_WAYS`, L2 associativity -/
  l2Ways : Nat
  /-- `RATIO1`, operations of core 1 per round -/
  ratio1 : Nat
  /-- `RATIO2`, operations of core 2 per round -/
  ratio2 : Nat
  /-- `CNT_W`, width of each counter -/
  cntW : Nat
  /-- `ADDR_RADIX`; the spec leaves it OPEN and the host chooses it only if it builds streams from text (R244), so `none`
  is "not chosen" (notes/assumptions/11.md) -/
  addrRadix : Option Radix
  deriving DecidableEq, Repr

/-- The defaults of R7. -/
def Config.default : Config where
  addrW := 32
  l1Ob := 5
  l1Ib := 16
  l1Ways := 2
  l2Ob := 5
  l2Ib := 12
  l2Ways := 1
  ratio1 := 3
  ratio2 := 1
  cntW := 64
  addrRadix := none

/-- The well-formed configurations (R8). -/
abbrev Config.Wf (cfg : Config) : Prop :=
  cfg.l1Ob = cfg.l2Ob ∧ cfg.l1Ob + cfg.l1Ib ≤ cfg.addrW ∧ cfg.l2Ob + cfg.l2Ib ≤ cfg.addrW ∧
    1 ≤ cfg.l1Ways ∧ 1 ≤ cfg.l2Ways ∧ 1 ≤ cfg.ratio1 ∧ 1 ≤ cfg.ratio2

/-- The shape of one cache: offset bits, index bits, tag bits and ways (R7). -/
structure Geometry where
  ob : Nat
  ib : Nat
  tw : Nat
  ways : Nat
  deriving DecidableEq, Repr

/-- The L1 geometry, the same for both cores (R27); `L1_TW = ADDR_W - L1_OB - L1_IB` (R7). -/
def Config.l1 (cfg : Config) : Geometry where
  ob := cfg.l1Ob
  ib := cfg.l1Ib
  tw := cfg.addrW - cfg.l1Ob - cfg.l1Ib
  ways := cfg.l1Ways

/-- The L2 geometry; `L2_TW = ADDR_W - L2_OB - L2_IB` (R7, R28). -/
def Config.l2 (cfg : Config) : Geometry where
  ob := cfg.l2Ob
  ib := cfg.l2Ib
  tw := cfg.addrW - cfg.l2Ob - cfg.l2Ib
  ways := cfg.l2Ways

end Sys2Proof
end

