-- ==== Sys2Proof/Machine/State.lean ====
section
/-! DEFINITION. The state of the block (spec R20 to R31), the reasons a step can stop, and the state after reset (R240). -/

namespace Sys2Proof.Machine

/-- The two cores (R222). -/
inductive CoreId where
  | core1
  | core2
  deriving DecidableEq, Repr

/-- One value per core: the spec's `x[1]` and `x[2]`. -/
structure PerCore (α : Type) where
  core1 : α
  core2 : α
  deriving DecidableEq, Repr

/-- The four MESI states a line can hold (R23, R78). NotPresent is no stored state. -/
inductive Mesi where
  | I
  | S
  | E
  | M
  deriving DecidableEq, Repr

/-- What a lookup returns: a stored state or the sentinel NotPresent (R12, R78). -/
inductive Lookup where
  | notPresent
  | found (st : Mesi)
  deriving DecidableEq, Repr

/-- A cache line: a tag that may never have been written, and a state (R23). -/
structure Line where
  tag : Option Nat
  st : Mesi
  deriving DecidableEq, Repr

/-- A set: its lines by way number, and the way numbers from least to most recently used (R25). -/
structure CacheSet where
  ways : List Line
  lru : List Nat
  deriving DecidableEq, Repr

/-- A cache array, by set index: only the sets that differ from a set after reset are listed, indices strictly rising
(notes/assumptions/5.md). -/
abbrev Cache := List (Nat × CacheSet)

/-- The three caches (R22): the two private L1s and the shared L2. -/
structure Caches where
  l1 : PerCore Cache
  l2 : Cache
  deriving DecidableEq, Repr

/-- Names of the caches, with the codes of R82 in Machine/Observe.lean. -/
inductive CacheId where
  | l1 (c : CoreId)
  | l2
  deriving DecidableEq, Repr

/-- Where a writeback goes: the L2 or the memory behind it (R82). -/
inductive WbDest where
  | l2
  | mem
  deriving DecidableEq, Repr

/-- The five counters (R29), each below `2^CNT_W`. -/
structure Counters where
  cyc : PerCore Nat
  missL1 : PerCore Nat
  missL2 : Nat
  deriving DecidableEq, Repr

/-- An item of an input stream (R70): a record, or a trace line the supplier could not read. The address is unbounded (R72). -/
inductive Item where
  | record (addr : Addr) (mode : ModeCode)
  | malformed
  deriving DecidableEq, Repr

/-- An event record (R80, R81); the fields a kind does not use are absent. -/
inductive Event where
  | hit (core : CoreId) (addr : Addr) (mode : ModeCode)
  | missL1 (core : CoreId) (addr : Addr) (mode : ModeCode)
  | missL2 (core : CoreId) (addr : Addr) (mode : ModeCode)
  | writeback (core : CoreId) (addr : Addr) (src : CacheId) (dst : WbDest)
  | invalidate (core : CoreId) (addr : Addr) (target : CoreId)
  | invalidAction (core : CoreId) (addr : Addr) (mode : ModeCode)
  deriving DecidableEq, Repr

/-- An entry of the block's output: an event record, or the counter snapshot after an executed record (R31, R85). -/
inductive Output where
  | event (e : Event)
  | snapshot (cnt : Counters)
  deriving DecidableEq, Repr

/-- A fault's code and information (R90). No operation raises `invalidState`: a line's state is one of four (R214,
notes/assumptions/9.md). -/
inductive FaultInfo where
  /-- code 1 (R212) -/
  | malformedRecord (core : CoreId) (item : Nat)
  /-- code 2 (R213) -/
  | addressOutOfRange (core : CoreId) (item : Nat) (address : Addr)
  /-- code 3 (R214) -/
  | invalidState (cache : CacheId) (set way value : Nat)
  /-- code 4 (R215) -/
  | missingTrace (core : CoreId)
  deriving DecidableEq, Repr

/-- The run state (R30). -/
inductive RunState where
  | running
  | done
  | faulted (info : FaultInfo)
  deriving DecidableEq, Repr

/-- The state of the machine (R22), with the parameters of the step relation (`cfg`, `streams`: R15, log 1), the output
(`out`: R31, log 2) and the model's own `issuing` (the implicit core operand of R75, log 3). -/
structure State where
  cfg : Config
  streams : PerCore (List Item)
  caches : Caches
  counters : Counters
  cur : PerCore Nat
  slot : Nat
  issuing : CoreId
  run : RunState
  out : List Output
  deriving DecidableEq, Repr

/-- Why a step stops. The spec enables no step in `Done` or `Faulted` (R30), which is what these two say. -/
inductive Fault where
  /-- Raised by `step` when `run = Done`: the run has ended well (R198, R246). Safe: no step is enabled there. -/
  | runDone
  /-- Raised by `step` when `run = Faulted`: the run has ended badly and stays so (R210). Safe: no step is enabled there. -/
  | runFaulted (info : FaultInfo)
  deriving DecidableEq, Repr

/-- Why an instruction or a configuration has no meaning. -/
inductive Refusal where
  /-- Raised by a refused arm of `exec`, and no arm is refused. Safe. -/
  | notModelled (mnemonic : String)
  /-- Raised by `step` and by `start` on a configuration that fails R8, which a model must refuse. Safe. -/
  | illFormedConfig
  deriving DecidableEq, Repr

/-- Every set as after reset: nothing is listed. -/
def Caches.reset : Caches where
  l1 := ⟨[], []⟩
  l2 := []

/-- All five counters 0 (R240). -/
def Counters.reset : Counters where
  cyc := ⟨0, 0⟩
  missL1 := ⟨0, 0⟩
  missL2 := 0

/-- The machine right after reset (R240) in the default configuration, with two empty streams: no program is loaded
(notes/assumptions/12.md). `issuing` is a DESIGN CHOICE (notes/assumptions/3.md). -/
def State.reset : State where
  cfg := Config.default
  streams := ⟨[], []⟩
  caches := Caches.reset
  counters := Counters.reset
  cur := ⟨0, 0⟩
  slot := 0
  issuing := .core1
  run := .running
  out := []

end Sys2Proof.Machine
end

