-- ==== Sys2Proof/Machine/Operands.lean ====
section
/-! DEFINITION. The operand forms: the absolute address and its fields per cache (spec R51 to R56, R75), the implicit core
and its peer (R10), and the accessors of per-core values. -/

namespace Sys2Proof.Machine

/-- `x[c]`. -/
def PerCore.get {α : Type} (x : PerCore α) : CoreId → α
  | .core1 => x.core1
  | .core2 => x.core2

/-- `x[c] <- v`. -/
def PerCore.set {α : Type} (x : PerCore α) (c : CoreId) (v : α) : PerCore α :=
  match c with
  | .core1 => { x with core1 := v }
  | .core2 => { x with core2 := v }

/-- `peer(c) = 3 - c` (R10). -/
def peer : CoreId → CoreId
  | .core1 => .core2
  | .core2 => .core1

/-- The fields of an address in one cache (R51). -/
structure AddrFields where
  index : Nat
  tag : Nat
  offset : Nat
  deriving DecidableEq, Repr

/-- `decode(K, a)`: the tag is the most significant field, then the index, then the offset (R51). -/
def decodeAddr (g : Geometry) (a : Addr) : AddrFields where
  index := (a >>> g.ob) % 2 ^ g.ib
  tag := a >>> (g.ob + g.ib)
  offset := a % 2 ^ g.ob

/-- `encode(K, index, tag, offset)` (R53). -/
def encodeAddr (g : Geometry) (index tag offset : Nat) : Addr :=
  (tag <<< (g.ob + g.ib)) ||| (index <<< g.ob) ||| offset

/-- `lineAddr(a)`: the address with its offset bits cleared (R56). -/
def lineAddr (cfg : Config) (a : Addr) : Addr := a - a % 2 ^ cfg.l1Ob

/-- The addresses the block accepts (R50, R55). -/
abbrev inRange (cfg : Config) (a : Addr) : Prop := a < 2 ^ cfg.addrW

end Sys2Proof.Machine
end

