-- ==== Sys2Proof/Machine/Flags.lean ====
section
/-! DEFINITION. The transient predicates over states (spec R12, R32; the block has no flag that outlives an operation) and
the counter updates an operation's events select (R190 to R194). -/

namespace Sys2Proof.Machine

/-- `isValid(s) = s ∈ {M, E, S}` (R12). -/
def Mesi.isValid : Mesi → Bool
  | .I => false
  | .S => true
  | .E => true
  | .M => true

/-- `isValid` of a lookup result; NotPresent is not valid (R12). -/
def Lookup.isValid : Lookup → Bool
  | .notPresent => false
  | .found st => st.isValid

/-- One count more, modulo `2^CNT_W` (R194). -/
def bump (cfg : Config) (x : Nat) : Nat := (x + 1) % 2 ^ cfg.cntW

/-- `n` counts more, one by one. -/
def bumpBy (cfg : Config) : Nat → Nat → Nat
  | 0, x => x
  | n + 1, x => bumpBy cfg n (bump cfg x)

/-- Is this a `MissL1` event of core `c` (R191)? -/
def Event.isMissL1Of (c : CoreId) : Event → Bool
  | .missL1 core _ _ => core == c
  | _ => false

/-- Is this a `MissL2` event, of either core (R192)? -/
def Event.isMissL2 : Event → Bool
  | .missL2 _ _ _ => true
  | _ => false

/-- The counters after an executed record of core `c` that emitted `evs`: `cyc[c]` one more (R190), `missL1` of each core by
its `MissL1` events (R191), `missL2` by the `MissL2` events (R192). -/
def countRecord (cfg : Config) (c : CoreId) (evs : List Event) (cnt : Counters) : Counters where
  cyc := cnt.cyc.set c (bump cfg (cnt.cyc.get c))
  missL1 :=
    ⟨bumpBy cfg (evs.countP (Event.isMissL1Of .core1)) cnt.missL1.core1,
      bumpBy cfg (evs.countP (Event.isMissL1Of .core2)) cnt.missL1.core2⟩
  missL2 := bumpBy cfg (evs.countP Event.isMissL2) cnt.missL2

end Sys2Proof.Machine
end

