-- ==== Sys2Proof/Machine/Ops.lean ====
section
/-! DEFINITION. The named operations: cache arrays, the cache primitives (spec R100 to R108), the two evictions
(R109 to R117), raising a fault (R210), and what every executed record does around its operation (R181). -/

namespace Sys2Proof.Machine

/-! ## Cache arrays: sparse lists in one canonical form -/

/-- A line that has never held a tag (R23, R24, R240). -/
def emptyLine : Line := ⟨none, .I⟩

/-- A set after reset: empty lines, way 0 least recently used (R240, R241). -/
def resetSet (g : Geometry) : CacheSet where
  ways := List.replicate g.ways emptyLine
  lru := List.range g.ways

/-- The set at index `i`; an unlisted one is `d`. -/
def findSet (d : CacheSet) : Cache → Nat → CacheSet
  | [], _ => d
  | (j, v) :: rest, i => if j = i then v else findSet d rest i

/-- Write the set at index `i`, keeping the list sorted and free of entries equal to `d`. -/
def putSet (d : CacheSet) : Cache → Nat → CacheSet → Cache
  | [], i, v => if v = d then [] else [(i, v)]
  | (j, u) :: rest, i, v =>
    if j < i then (j, u) :: putSet d rest i v
    else if j = i then (if v = d then rest else (i, v) :: rest)
    else (if v = d then (j, u) :: rest else (i, v) :: (j, u) :: rest)

/-- `K.set[i]` for the index of `a` (R100). -/
def setAt (g : Geometry) (K : Cache) (a : Addr) : CacheSet := findSet (resetSet g) K (decodeAddr g a).index

/-- Write `K.set[i]` for the index of `a` (R100). -/
def putAt (g : Geometry) (K : Cache) (a : Addr) (v : CacheSet) : Cache :=
  putSet (resetSet g) K (decodeAddr g a).index v

/-! ## One set -/

/-- `touch(SET, w)`: way `w` becomes the most recently used (R101). -/
def CacheSet.touch (set : CacheSet) (w : Nat) : CacheSet :=
  { set with lru := set.lru.filter (fun x => x != w) ++ [w] }

/-- The way that holds tag `t`, if one does (R100); a line that never held a tag matches nothing (R24). -/
def CacheSet.matchWay (set : CacheSet) (t : Nat) : Option Nat := set.ways.findIdx? (fun l => l.tag == some t)

/-- `SET.way[w]`. -/
def CacheSet.line (set : CacheSet) (w : Nat) : Line := set.ways.getD w emptyLine

/-- `SET.way[w] <- l`. -/
def CacheSet.withLine (set : CacheSet) (w : Nat) (l : Line) : CacheSet := { set with ways := set.ways.set w l }

/-- `SET.way[w].st <- s`: the tag stays. -/
def CacheSet.withState (set : CacheSet) (w : Nat) (st : Mesi) : CacheSet :=
  set.withLine w { set.line w with st := st }

/-- The least recently used way, `SET.lru[0]` (R25; notes/assumptions/16.md for an empty list). -/
def CacheSet.oldest (set : CacheSet) : Nat := set.lru.headD 0

/-- The way a miss on tag `t` fills (R105). -/
def CacheSet.fillWay (set : CacheSet) (t : Nat) : Nat :=
  match set.matchWay t with
  | some w => w
  | none => set.oldest

/-! ## One cache: the primitives of R102 to R108 -/

/-- `lookup(K, a)`: the state of the matching line, which becomes the most recently used, or NotPresent (R102). -/
def lookup (g : Geometry) (K : Cache) (a : Addr) : Lookup × Cache :=
  match (setAt g K a).matchWay (decodeAddr g a).tag with
  | some w => (.found ((setAt g K a).line w).st, putAt g K a ((setAt g K a).touch w))
  | none => (.notPresent, K)

/-- `probe(K, a)`: the same result, and nothing written (R103). -/
def probe (g : Geometry) (K : Cache) (a : Addr) : Lookup :=
  match (setAt g K a).matchWay (decodeAddr g a).tag with
  | some w => .found ((setAt g K a).line w).st
  | none => .notPresent

/-- `setState(K, a, s)`: the matching line's state, or nothing if the tag is absent (R104). -/
def setState (g : Geometry) (st : Mesi) (a : Addr) (K : Cache) : Cache :=
  match (setAt g K a).matchWay (decodeAddr g a).tag with
  | some w => putAt g K a ((setAt g K a).withState w st)
  | none => K

/-- `fillWay(K, a)` (R105). -/
def fillWay (g : Geometry) (K : Cache) (a : Addr) : Nat := (setAt g K a).fillWay (decodeAddr g a).tag

/-- `install(K, a, s, w)`: the only way a new tag enters a set (R106). -/
def install (g : Geometry) (st : Mesi) (w : Nat) (a : Addr) (K : Cache) : Cache :=
  putAt g K a (((setAt g K a).withLine w ⟨some (decodeAddr g a).tag, st⟩).touch w)

/-- `selectVictim(K, a)`: the line at the fill way, before anything is installed (R107). -/
def selectVictim (g : Geometry) (K : Cache) (a : Addr) : Line := (setAt g K a).line (fillWay g K a)

/-- `victimAddress(K, a)`: the victim's line address, if the victim has held a tag (R108). -/
def victimAddress (g : Geometry) (K : Cache) (a : Addr) : Option Addr :=
  (selectVictim g K a).tag.map (fun t => encodeAddr g (decodeAddr g a).index t 0)

/-- `SET.way[w].st <- I` in the set of `a`: the end of an eviction (R110, R117). -/
def invalidateWay (g : Geometry) (w : Nat) (a : Addr) (K : Cache) : Cache :=
  putAt g K a ((setAt g K a).withState w .I)

/-! ## The work of one operation: the three caches and the events emitted so far (R189) -/

/-- The caches as the operation has left them so far, and the events it has emitted, oldest first. -/
structure Work where
  caches : Caches
  events : List Event
  deriving DecidableEq, Repr

/-- `emit ev` (R10, R189). -/
def Work.emit (k : Work) (e : Event) : Work := { k with events := k.events ++ [e] }

/-- `L1[c]`. -/
def Work.l1 (k : Work) (c : CoreId) : Cache := k.caches.l1.get c

/-- `L2`. -/
def Work.l2 (k : Work) : Cache := k.caches.l2

/-- Write `L1[c]`. -/
def Work.withL1 (k : Work) (c : CoreId) (K : Cache) : Work :=
  { k with caches := { k.caches with l1 := k.caches.l1.set c K } }

/-- Write `L2`. -/
def Work.withL2 (k : Work) (K : Cache) : Work := { k with caches := { k.caches with l2 := K } }

/-- `evictL1Victim(c, a)` (R109 to R112): a Modified victim is written back to the L2, whose copy becomes `M`; the victim's
state becomes `I` with its tag kept; an empty fill way is left alone. Answers the fill way. -/
def evictL1Victim (cfg : Config) (c : CoreId) (a : Addr) (k : Work) : Nat × Work :=
  let w := fillWay cfg.l1 (k.l1 c) a
  let v := selectVictim cfg.l1 (k.l1 c) a
  match v.tag with
  | none => (w, k)
  | some t =>
    let va := encodeAddr cfg.l1 (decodeAddr cfg.l1 a).index t 0
    let k1 :=
      match v.st with
      | .M => (k.emit (.writeback c va (.l1 c) .l2)).withL2 (setState cfg.l2 .M va k.l2)
      | .E => k
      | .S => k
      | .I => k
    (w, k1.withL1 c (invalidateWay cfg.l1 w a (k1.l1 c)))

/-- Back-invalidation of `L1[k]` for an L2 victim at `va`, on an operation of core `c`: a Modified copy is written back to
memory, and any valid copy is invalidated with an event (R116). -/
def backInvalidate (cfg : Config) (c : CoreId) (va : Addr) (target : CoreId) (k : Work) : Work :=
  let st := probe cfg.l1 (k.l1 target) va
  let k1 := if st = .found .M then k.emit (.writeback c va (.l1 target) .mem) else k
  if st.isValid then
    (k1.withL1 target (setState cfg.l1 .I va (k1.l1 target))).emit (.invalidate c va target)
  else k1

/-- `evictL2Victim(c, a)` (R114 to R117): a Modified victim is written back to memory, both L1s lose their copies, core 1's
first, and the victim's state becomes `I` with its tag kept. Answers the L2 fill way. -/
def evictL2Victim (cfg : Config) (c : CoreId) (a : Addr) (k : Work) : Nat × Work :=
  let w := fillWay cfg.l2 k.l2 a
  let v := selectVictim cfg.l2 k.l2 a
  match v.tag with
  | none => (w, k)
  | some t =>
    let va := encodeAddr cfg.l2 (decodeAddr cfg.l2 a).index t 0
    let k1 := if v.st = .M then k.emit (.writeback c va .l2 .mem) else k
    let k2 := backInvalidate cfg c va .core1 k1
    let k3 := backInvalidate cfg c va .core2 k2
    (w, k3.withL2 (invalidateWay cfg.l2 w a k3.l2))

/-! ## What a Load miss and a Store miss share -/

/-- What the start of a miss leaves to the rest of it: the L2 hit decision, the local fill way, the work so far. -/
structure MissStart where
  hitL2 : Bool
  way : Nat
  work : Work
  deriving DecidableEq, Repr

/-- The start of an L1 miss (R142, R163, R113): look up the L2, emit `MissL1`, evict the local victim. The L2 hit decision is
the one made before the eviction (R248). -/
def startMiss (cfg : Config) (c : CoreId) (a : Addr) (mode : ModeCode) (k : Work) : MissStart :=
  let r := lookup cfg.l2 k.l2 a
  let e := evictL1Victim cfg c a ((k.withL2 r.2).emit (.missL1 c a mode))
  { hitL2 := r.1.isValid, way := e.1, work := e.2 }

/-- The fill of both levels on an L2 miss (R148, R166): emit `MissL2`, evict the L2 victim, install `a` in the local way `w`
in state `st` and in the L2 fill way in state `S`. -/
def fillFromMemory (cfg : Config) (c : CoreId) (a : Addr) (mode : ModeCode) (st : Mesi) (w : Nat) (k : Work) : Work :=
  let e := evictL2Victim cfg c a (k.emit (.missL2 c a mode))
  let k1 := e.2.withL1 c (install cfg.l1 st w a (e.2.l1 c))
  k1.withL2 (install cfg.l2 .S e.1 a k1.l2)

/-- The fill from the L2 on an L2 hit: install `a` in the local way `w` in state `st`; the L2 line ends in `S`
(R143, R165). -/
def fillFromL2 (cfg : Config) (c : CoreId) (a : Addr) (st : Mesi) (w : Nat) (k : Work) : Work :=
  let k1 := k.withL1 c (install cfg.l1 st w a (k.l1 c))
  k1.withL2 (setState cfg.l2 .S a k1.l2)

/-- Take the line of `a` from the peer: its state becomes `I`, with an Invalidate event (R144, R162, R165). -/
def invalidatePeer (cfg : Config) (c : CoreId) (a : Addr) (k : Work) : Work :=
  (k.withL1 (peer c) (setState cfg.l1 .I a (k.l1 (peer c)))).emit (.invalidate c (lineAddr cfg a) (peer c))

/-! ## The machine around an operation -/

/-- `raise Fault(code, info)`: the run becomes `Faulted`, and nothing else changes (R210, R211). There is no return from a
fault (R219). -/
def raiseFault (info : FaultInfo) (s : State) : State := { s with run := .faulted info }

/-- The end of an executed record of core `c` (R181, R190 to R193): the caches the operation left, the cursor and the counters
moved on, the events and then one snapshot appended. -/
def completeRecord (c : CoreId) (k : Work) (s : State) : State :=
  { s with
    caches := k.caches
    counters := countRecord s.cfg c k.events s.counters
    cur := s.cur.set c (s.cur.get c + 1)
    out := s.out ++ (k.events.map Output.event ++ [.snapshot (countRecord s.cfg c k.events s.counters)]) }

/-- Execute an operation `op` on the address `a` for the issuing core (R181): an address that does not fit raises
AddressOutOfRange before any cache is touched (R55, R213). -/
def runRecord (op : Config → CoreId → Addr → Caches → Work) (a : Addr) (s : State) : Host.Outcome State Fault Refusal :=
  if inRange s.cfg a then .next (completeRecord s.issuing (op s.cfg s.issuing a s.caches) s)
  else .next (raiseFault (.addressOutOfRange s.issuing (s.cur.get s.issuing) a) s)

end Sys2Proof.Machine
end

