-- ==== Sys2Proof/Machine/InvalidAction.lean ====
section
/-! DEFINITION. The operation INVALID_ACTION (spec R182): one event, no lookup, no cache written. -/

namespace Sys2Proof.Machine

/-- `INVALID_ACTION(c, addr, mode)` on the three caches (R182). -/
def invalidActionOp (mode : ModeCode) (_cfg : Config) (c : CoreId) (a : Addr) (cs : Caches) : Work :=
  { caches := cs, events := [.invalidAction c a mode] }

/-- INVALID_ACTION. -/
def execInvalidAction (mode : ModeCode) (addr : Addr) (s : State) : Host.Outcome State Fault Refusal :=
  runRecord (invalidActionOp mode) addr s

end Sys2Proof.Machine
end

