-- ==== Sys2Proof/Syntax.lean ====
section
/-! DEFINITION. The operations a stream can carry: one constructor per row of spec/opcode_table.json. -/

namespace Sys2Proof

/-- The block's "instructions" (R2, R73). The issuing core is an implicit operand, the stream the record came from (R75),
so it is no field here. -/
inductive Instr where
  /-- LOAD (R140) -/
  | load (addr : Addr)
  /-- STORE (R160) -/
  | store (addr : Addr)
  /-- INVALID_ACTION (R182): every mode that is neither Load nor Store -/
  | invalidAction (mode : ModeCode) (addr : Addr)
  deriving DecidableEq, Repr

end Sys2Proof
end

