-- ==== Sys2Proof/Decode.lean ====
section
/-! DEFINITION. The request word and its decoder and encoder (spec R72 to R76, opcode_table.json).
The word is a number: the block has no byte order (R57), so none enters here (notes/assumptions/13.md). -/

namespace Sys2Proof

/-- The mode code of Load, the character `L` (R73). -/
def modeLoad : ModeCode := 0x4C

/-- The mode code of Store, the character `S` (R73). -/
def modeStore : ModeCode := 0x53

/-- Why a number is not a request word. -/
inductive DecodeError where
  /-- it has a bit at or above `ADDR_W + 8` (R72) -/
  | wordTooWide
  deriving DecidableEq, Repr

/-- What the decoder answers. -/
inductive Decoded where
  | instr (i : Instr)
  | rejected (why : DecodeError)
  deriving DecidableEq, Repr

/-- The `mode` field, bits `[ADDR_W+7 : ADDR_W]` (R72). -/
def wordMode (addrW : Nat) (w : ReqWord) : ModeCode := BitVec.ofNat 8 (w >>> addrW)

/-- The `addr` field, bits `[ADDR_W-1 : 0]` (R72). -/
def wordAddr (addrW : Nat) (w : ReqWord) : Addr := w % 2 ^ addrW

/-- The operation a record's mode selects, by an exact match (R73); the address is its only operand (R74, R75). -/
def selectInstr (mode : ModeCode) (addr : Addr) : Instr :=
  if mode = modeLoad then .load addr
  else if mode = modeStore then .store addr
  else .invalidAction mode addr

/-- Decode a request word. Every word of `ADDR_W + 8` bits has a meaning (R76); a wider number is rejected by name. -/
def decodeWord (addrW : Nat) (w : ReqWord) : Decoded :=
  if w < 2 ^ (addrW + 8) then .instr (selectInstr (wordMode addrW w) (wordAddr addrW w))
  else .rejected .wordTooWide

/-- The mode code of an operation (R73). -/
def Instr.mode : Instr → ModeCode
  | .load _ => modeLoad
  | .store _ => modeStore
  | .invalidAction mode _ => mode

/-- The address operand of an operation (R75). -/
def Instr.addr : Instr → Addr
  | .load addr => addr
  | .store addr => addr
  | .invalidAction _ addr => addr

/-- The request word of an operation: `mode` above `addr` (R72). -/
def encode (addrW : Nat) (i : Instr) : ReqWord := (i.mode.toNat <<< addrW) ||| i.addr

/-- The host's question, on a row of the opcode table: the word of `nbits` bits (bits above are 0) in the default
configuration, whose request word the table numbers. -/
def decodeTableWord (nbits w : Nat) : Option Instr :=
  match decodeWord Config.default.addrW (w % 2 ^ nbits) with
  | .instr i => some i
  | .rejected _ => none

end Sys2Proof
end

