-- ==== Sys2Proof/Machine/Load.lean ====
section
/-! DEFINITION. The operation LOAD (spec 41_controller_load.md, R140 to R151). -/

namespace Sys2Proof.Machine

/-- A Load miss that hits the L2 (R143): read the peer, which touches its matching line, and take one of R144 to R147. -/
def loadFromPeer (cfg : Config) (c : CoreId) (a : Addr) (w : Nat) (k : Work) : Work :=
  let r := lookup cfg.l1 (k.l1 (peer c)) a
  let k1 := k.withL1 (peer c) r.2
  match r.1 with
  | .found .M =>
    fillFromL2 cfg c a .E w
      (invalidatePeer cfg c a (k1.emit (.writeback c (lineAddr cfg a) (.l1 (peer c)) .l2)))
  | .found .S => fillFromL2 cfg c a .S w k1
  | .found .E => fillFromL2 cfg c a .S w (k1.withL1 (peer c) (setState cfg.l1 .S a (k1.l1 (peer c))))
  | .found .I => fillFromL2 cfg c a .E w k1
  | .notPresent => fillFromL2 cfg c a .E w k1

/-- `LOAD(c, a)` on the three caches (R140). -/
def loadOp (cfg : Config) (c : CoreId) (a : Addr) (cs : Caches) : Work :=
  let k : Work := { caches := cs, events := [] }
  let r := lookup cfg.l1 (k.l1 c) a
  let k1 := k.withL1 c r.2
  if r.1.isValid then k1.emit (.hit c a modeLoad)
  else
    let m := startMiss cfg c a modeLoad k1
    if m.hitL2 then loadFromPeer cfg c a m.way m.work
    else fillFromMemory cfg c a modeLoad .E m.way m.work

/-- LOAD. -/
def execLoad (addr : Addr) (s : State) : Host.Outcome State Fault Refusal := runRecord loadOp addr s

end Sys2Proof.Machine
end

