-- ==== Sys2Proof/Machine/Store.lean ====
section
/-! DEFINITION. The operation STORE (spec 42_controller_store.md, R160 to R169). -/

namespace Sys2Proof.Machine

/-- A Store hit in `S`, after its `Hit` event (R162): a valid peer copy is invalidated, read without a touch; the local line
becomes `M`. -/
def storeUpgrade (cfg : Config) (c : CoreId) (a : Addr) (k : Work) : Work :=
  let k1 := if (probe cfg.l1 (k.l1 (peer c)) a).isValid then invalidatePeer cfg c a k else k
  k1.withL1 c (setState cfg.l1 .M a (k1.l1 c))

/-- A Store miss that hits the L2 (R164, R165): read the peer, which touches its matching line, and invalidate a valid copy;
no writeback, not even of a Modified one. -/
def storeFromPeer (cfg : Config) (c : CoreId) (a : Addr) (w : Nat) (k : Work) : Work :=
  let r := lookup cfg.l1 (k.l1 (peer c)) a
  let k1 := k.withL1 (peer c) r.2
  fillFromL2 cfg c a .M w (if r.1.isValid then invalidatePeer cfg c a k1 else k1)

/-- A Store that misses the local L1 (R163 to R166). -/
def storeMiss (cfg : Config) (c : CoreId) (a : Addr) (k : Work) : Work :=
  let m := startMiss cfg c a modeStore k
  if m.hitL2 then storeFromPeer cfg c a m.way m.work
  else fillFromMemory cfg c a modeStore .M m.way m.work

/-- `STORE(c, a)` on the three caches (R160). -/
def storeOp (cfg : Config) (c : CoreId) (a : Addr) (cs : Caches) : Work :=
  let k : Work := { caches := cs, events := [] }
  let r := lookup cfg.l1 (k.l1 c) a
  let k1 := k.withL1 c r.2
  let kHit := k1.emit (.hit c a modeStore)
  match r.1 with
  | .found .M => kHit.withL1 c (setState cfg.l1 .M a (kHit.l1 c))
  | .found .E => kHit.withL1 c (setState cfg.l1 .M a (kHit.l1 c))
  | .found .S => storeUpgrade cfg c a kHit
  | .found .I => storeMiss cfg c a k1
  | .notPresent => storeMiss cfg c a k1

/-- STORE. -/
def execStore (addr : Addr) (s : State) : Host.Outcome State Fault Refusal := runRecord storeOp addr s

end Sys2Proof.Machine
end

