-- ==== Sys2Proof/Machine/Dispatch.lean ====
section
/-! DEFINITION. One arm per constructor of Instr. -/

namespace Sys2Proof.Machine

/-- The meaning of an operation, executed for the issuing core of the state (R181, R75). -/
def exec (i : Instr) (s : State) : Host.Outcome State Fault Refusal :=
  match i with
  | .load addr => Sys2Proof.Machine.execLoad addr s
  | .store addr => Sys2Proof.Machine.execStore addr s
  | .invalidAction mode addr => Sys2Proof.Machine.execInvalidAction mode addr s

end Sys2Proof.Machine
end

