-- ==== Sys2Proof/Machine/Scheduler.lean ====
section
/-! DEFINITION. The scheduler and the streams (spec R21, R70, R195 to R198), and placing an item where the next step takes it. -/

namespace Sys2Proof.Machine

/-- `stream[c]`. -/
def State.stream (s : State) (c : CoreId) : List Item := s.streams.get c

/-- The stream of `c` is exhausted: its cursor is at its length (R21; notes/assumptions/8.md for a cursor past it). -/
abbrev State.exhausted (s : State) (c : CoreId) : Prop := (s.stream c).length ≤ s.cur.get c

/-- Both streams are exhausted: the run ends (R198). -/
abbrev State.finished (s : State) : Prop := s.exhausted .core1 ∧ s.exhausted .core2

/-- The number of slots of a round (R195). -/
def roundSlots (cfg : Config) : Nat := cfg.ratio1 + cfg.ratio2

/-- The core a slot belongs to: slots below `RATIO1` are core 1's (R195). -/
def slotOwner (cfg : Config) (slot : Nat) : CoreId := if slot < cfg.ratio1 then .core1 else .core2

/-- The slot after `slot` (R196). -/
def slotAfter (cfg : Config) (slot : Nat) : Nat := (slot + 1) % roundSlots cfg

/-- The search of R196 from `slot`, over at most `fuel` slots: the first core with an item left, and the slot after the one
taken. -/
def searchSlot (s : State) : Nat → Nat → Option (CoreId × Nat)
  | 0, _ => none
  | fuel + 1, slot =>
    if s.exhausted (slotOwner s.cfg slot) then searchSlot s fuel (slotAfter s.cfg slot)
    else some (slotOwner s.cfg slot, slotAfter s.cfg slot)

/-- Record the scheduler's choice: the slot after the one taken, and the core (R196). -/
def chooseCore (c : CoreId) (slot : Nat) (s : State) : State := { s with slot := slot, issuing := c }

/-- `nextCore(st)` (R196): the core that supplies the next item, and the state with `slot` moved past the slot taken and the
core recorded. One more slot than a round has is tried, so that a slot number out of range also finds its way back. -/
def nextCore (s : State) : Option (CoreId × State) :=
  match searchSlot s (roundSlots s.cfg + 1) s.slot with
  | some (c, slot) => some (c, chooseCore c slot s)
  | none => none

/-- What `execute` finds at a cursor (R181): an operation to run, or a malformed item. -/
inductive Fetched where
  | instr (i : Instr)
  | malformed
  deriving DecidableEq, Repr

/-- The operation an item carries (R73, R181): the mode alone selects it. -/
def fetchedOf : Item → Fetched
  | .record addr mode => .instr (selectInstr mode addr)
  | .malformed => .malformed

/-- `stream[c][cur[c]]`, decoded (R180). A cursor past the stream reads as malformed; the scheduler never chooses it. -/
def fetchItem (s : State) (c : CoreId) : Fetched := fetchedOf ((s.stream c).getD (s.cur.get c) .malformed)

/-- The step that finds both streams exhausted (R198). -/
def endRun (s : State) : State := { s with run := .done }

/-- The record a request word stands for (R72). -/
def itemOfWord (addrW : Nat) (w : ReqWord) : Item := .record (wordAddr addrW w) (wordMode addrW w)

/-- A stream with `item` at position `n`; positions before `n` that the stream lacks become malformed. -/
def placeItem (stream : List Item) (n : Nat) (item : Item) : List Item :=
  stream.take n ++ List.replicate (n - stream.length) .malformed ++ item :: stream.drop (n + 1)

/-- A machine that runs, with `item` where the next step takes its item: at the cursor of the core that owns the next slot. -/
def placeNext (s : State) (item : Item) : State :=
  let c := slotOwner s.cfg s.slot
  { s with
    streams := s.streams.set c (placeItem (s.stream c) (s.cur.get c) item)
    run := .running }

end Sys2Proof.Machine
end

