-- ==== Sys2Proof/Machine/Step.lean ====
section
/-! DEFINITION. One step of the machine (spec R180, R181), and the host's way to place a request word before it. -/

namespace Sys2Proof.Machine

/-- `step(st)` (R180): refused on a configuration that fails R8; no step in `Done` or `Faulted` (R30); otherwise the end of
the run (R198), or one item of the core the scheduler chooses, processed completely (R181). -/
def step (s : State) : Host.Outcome State Fault Refusal :=
  if s.cfg.Wf then
    match s.run with
    | .done => .fault .runDone
    | .faulted info => .fault (.runFaulted info)
    | .running =>
      if s.finished then .next (endRun s)
      else
        match nextCore s with
        | none => .refused .illFormedConfig
        | some (c, s1) =>
          match fetchItem s1 c with
          | .malformed => .next (raiseFault (.malformedRecord c (s1.cur.get c)) s1)
          | .instr i => exec i s1
  else .refused .illFormedConfig

/-- `s` with the request word `w` (its lowest `nbits` bits) as the item the next step takes: the record stands at the cursor
of the core that owns the next slot, and the machine is running (notes/assumptions/12.md). -/
def State.withFetchWord (s : State) (nbits w : Nat) : State := placeNext s (itemOfWord s.cfg.addrW (w % 2 ^ nbits))

end Sys2Proof.Machine
end

