-- ==== Sys2Proof/Machine/Observe.lean ====
section
/-! DEFINITION. What the host reads (spec R225): the stored encodings (R78, R79), the event records (R80 to R82), the
per-operation outcome (R84), the run state and fault codes (R90), and the counters by index (R29). Nothing here is read by a
step. -/

namespace Sys2Proof.Machine

/-- A core's identifier, 1 or 2 (R222). -/
def CoreId.number : CoreId → Nat
  | .core1 => 1
  | .core2 => 2

/-- A MESI state as stored in a line, 2 bits (R78). -/
def Mesi.code : Mesi → BitVec 2
  | .I => 0b00
  | .S => 0b01
  | .E => 0b10
  | .M => 0b11

/-- Every 2-bit value is one of the four states (R78). -/
def Mesi.ofCode (b : BitVec 2) : Mesi :=
  if b = 0b00 then .I else if b = 0b01 then .S else if b = 0b10 then .E else .M

/-- A lookup result, 3 bits: NotPresent is `0b100` (R78). -/
def Lookup.code : Lookup → BitVec 3
  | .notPresent => 0b100
  | .found .I => 0b000
  | .found .S => 0b001
  | .found .E => 0b010
  | .found .M => 0b011

/-- A line as stored, `{tv, tag, st}` with `tv` uppermost, in `1 + TW + 2` bits (R79; the tag bits of a line that has never
held a tag are ignored, and written 0: notes/assumptions/20.md). -/
def Line.stored (tw : Nat) (l : Line) : Nat :=
  match l.tag with
  | none => l.st.code.toNat
  | some t => (1 <<< (tw + 2)) ||| (t <<< 2) ||| l.st.code.toNat

/-- The line that stored bits stand for (R79). -/
def Line.ofStored (tw : Nat) (n : Nat) : Line where
  tag := if n.testBit (tw + 2) then some ((n >>> 2) % 2 ^ tw) else none
  st := Mesi.ofCode (BitVec.ofNat 2 n)

/-- The code of a cache in the `src` field (R82). -/
def CacheId.code : CacheId → Nat
  | .l1 c => c.number
  | .l2 => 3

/-- The code of a writeback's destination (R82). -/
def WbDest.code : WbDest → Nat
  | .l2 => 3
  | .mem => 4

/-- The fields of an event record as codes (R80); a field a kind does not use is absent. -/
structure EventRecord where
  kind : Nat
  core : Nat
  addr : Addr
  mode : Option ModeCode
  src : Option Nat
  dst : Option Nat
  target : Option Nat
  deriving DecidableEq, Repr

/-- The record of an event (R80, R81, R82). -/
def Event.record : Event → EventRecord
  | .hit c a m => ⟨0, c.number, a, some m, none, none, none⟩
  | .missL1 c a m => ⟨1, c.number, a, some m, none, none, none⟩
  | .missL2 c a m => ⟨2, c.number, a, some m, none, none, none⟩
  | .writeback c a src dst => ⟨3, c.number, a, none, some src.code, some dst.code, none⟩
  | .invalidate c a target => ⟨4, c.number, a, none, none, none, some target.number⟩
  | .invalidAction c a m => ⟨5, c.number, a, some m, none, none, none⟩

/-- The kind code of an event (R81). -/
def Event.kind (e : Event) : Nat := e.record.kind

/-- The per-operation outcome (R84). -/
inductive OpOutcome where
  | invalidAction
  | l1Hit
  | l1MissL2Hit
  | l1MissL2Miss
  deriving DecidableEq, Repr

/-- The outcome of an operation that emitted `evs` (R84); no executed operation lacks one. -/
def opOutcome (evs : List Event) : Option OpOutcome :=
  if evs.any (fun e => e.kind == 5) then some .invalidAction
  else if evs.any (fun e => e.kind == 0) then some .l1Hit
  else if evs.any (fun e => e.kind == 1) then
    if evs.any (fun e => e.kind == 2) then some .l1MissL2Miss else some .l1MissL2Hit
  else none

/-- The fault code (R90). -/
def FaultInfo.code : FaultInfo → Nat
  | .malformedRecord _ _ => 1
  | .addressOutOfRange _ _ _ => 2
  | .invalidState _ _ _ _ => 3
  | .missingTrace _ => 4

/-- The fault's information fields, in R90's order. -/
def FaultInfo.fields : FaultInfo → List Nat
  | .malformedRecord c n => [c.number, n]
  | .addressOutOfRange c n a => [c.number, n, a]
  | .invalidState k i w v => [k.code, i, w, v]
  | .missingTrace c => [c.number]

/-- The run state's code (R90). -/
def RunState.code : RunState → Nat
  | .running => 0
  | .done => 1
  | .faulted _ => 2

/-- The fault code and its information, readable when the run is `Faulted` (R90). -/
def State.readFault (s : State) : Option (Nat × List Nat) :=
  match s.run with
  | .faulted info => some (info.code, info.fields)
  | .running => none
  | .done => none

/-- The host's read port (R29): indices 0 to 4 are the counters, 5 the run state; no other index names anything
(notes/assumptions/19.md). -/
def State.readPort (s : State) (index : Nat) : Option Nat :=
  match index with
  | 0 => some s.counters.cyc.core1
  | 1 => some s.counters.cyc.core2
  | 2 => some s.counters.missL1.core1
  | 3 => some s.counters.missL1.core2
  | 4 => some s.counters.missL2
  | 5 => some s.run.code
  | _ => none

end Sys2Proof.Machine
end

