-- ==== Sys2Proof/Machine/Transcribe.lean ====
section
/-! DEFINITION. The transcriber: streams from trace text (spec R71, R77). It stands before the block; no step uses it. -/

namespace Sys2Proof.Machine

/-- White space between fields (R71 says "whitespace-separated"; which characters: notes/assumptions/10.md). -/
def isBlank (ch : Char) : Bool :=
  ch.toNat == 0x20 || (0x09 ≤ ch.toNat && ch.toNat ≤ 0x0D)

/-- A field, unless nothing has been read. -/
def closeField (field : List Char) : List (List Char) := if field = [] then [] else [field]

/-- The fields of a line, `field` being read. -/
def splitFrom (field : List Char) : List Char → List (List Char)
  | [] => closeField field
  | ch :: rest => if isBlank ch then closeField field ++ splitFrom [] rest else splitFrom (field ++ [ch]) rest

/-- The fields of a line (R71). -/
def splitFields (line : List Char) : List (List Char) := splitFrom [] line

/-- The number a radix stands for (R71). -/
def radixBase : Radix → Nat
  | .ten => 10
  | .sixteen => 16

/-- The value of a digit character, letters in either case (notes/assumptions/10.md). -/
def digitValue (ch : Char) : Option Nat :=
  let n := ch.toNat
  if 0x30 ≤ n ∧ n ≤ 0x39 then some (n - 0x30)
  else if 0x41 ≤ n ∧ n ≤ 0x46 then some (n - 0x41 + 10)
  else if 0x61 ≤ n ∧ n ≤ 0x66 then some (n - 0x61 + 10)
  else none

/-- Read digits after a value `acc`; `none` at a character that is no digit of the radix. -/
def readDigits (radix : Radix) (acc : Nat) : List Char → Option Nat
  | [] => some acc
  | ch :: rest =>
    match digitValue ch with
    | none => none
    | some d => if d < radixBase radix then readDigits radix (acc * radixBase radix + d) rest else none

/-- The value of a numeral: one digit or more, no sign and no prefix (R71, R77). -/
def readNumeral (radix : Radix) (field : List Char) : Option Nat :=
  if field = [] then none else readDigits radix 0 field

/-- The mode code of a mode field: its one character's code when that is below 256, else `0x00` (R71). -/
def modeOfField : List Char → ModeCode
  | [ch] => if ch.toNat < 256 then BitVec.ofNat 8 ch.toNat else 0x00
  | _ => 0x00

/-- The item a trace line becomes (R71). An address of `2^ADDR_W` or more still becomes a record. -/
def transcribeLine (radix : Radix) (line : List Char) : Item :=
  match splitFields line with
  | [addrField, modeField] =>
    match readNumeral radix addrField with
    | some addr => .record addr (modeOfField modeField)
    | none => .malformed
  | _ => .malformed

/-- The stream a trace becomes, one radix for every line (R71); no stream where the host has chosen no radix (R244,
notes/assumptions/11.md). -/
def streamOfText (cfg : Config) (lines : List (List Char)) : Option (List Item) :=
  cfg.addrRadix.map (fun radix => lines.map (transcribeLine radix))

end Sys2Proof.Machine
end

