-- ==== Sys2Proof/Machine/Reset.lean ====
section
/-! DEFINITION. Reset with a configuration and two streams (spec R240 to R245): the host's start of a run (R225). -/

namespace Sys2Proof.Machine

/-- The run state at reset: `Faulted(MissingTrace)` if a stream is missing, core 1 reported first (R215, R245). -/
def startRun (t1 t2 : Option (List Item)) : RunState :=
  match t1, t2 with
  | none, _ => .faulted (.missingTrace .core1)
  | some _, none => .faulted (.missingTrace .core2)
  | some _, some _ => .running

/-- The reset state (R240). A missing stream (`none`) is held as an empty one, and no step ever reads it
(notes/assumptions/21.md). -/
def resetWith (cfg : Config) (t1 t2 : Option (List Item)) : State where
  cfg := cfg
  streams := ⟨t1.getD [], t2.getD []⟩
  caches := Caches.reset
  counters := Counters.reset
  cur := ⟨0, 0⟩
  slot := 0
  issuing := .core1
  run := startRun t1 t2
  out := []

/-- The start of a run (R244, R225): a configuration that fails R8 is refused. -/
def start (cfg : Config) (t1 t2 : Option (List Item)) : Host.Outcome State Fault Refusal :=
  if cfg.Wf then .next (resetWith cfg t1 t2) else .refused .illFormedConfig

end Sys2Proof.Machine
end

