-- ==== Sys2Proof/Safety.lean ====
section
/-! DEFINITION. What the claims call a good state: the structural invariant (spec R21, R23 to R29), the coherence invariant
(R34), the facts of the default geometry (R35, R36), and a run that has ended well (R246). No step assumes any of them. -/

namespace Sys2Proof.Machine

/-! ## Structure -/

/-- A line that never held a tag is Invalid (R24); a tag fits its width (R23). -/
abbrev LineOk (g : Geometry) (l : Line) : Prop := (l.tag = none → l.st = .I) ∧ ∀ t ∈ l.tag, t < 2 ^ g.tw

/-- A set has its number of lines and each way once in its recency order (R25), and its tags are unique (R26). -/
abbrev SetOk (g : Geometry) (set : CacheSet) : Prop :=
  set.ways.length = g.ways ∧ set.lru.Perm (List.range g.ways) ∧ (∀ l ∈ set.ways, LineOk g l) ∧
    (set.ways.filterMap Line.tag).Nodup

/-- The canonical form of a cache array: indices strictly rising, and no entry equal to what an unlisted index reads as. -/
abbrev Canonical (d : CacheSet) (K : Cache) : Prop :=
  (K.map Prod.fst).Pairwise (· < ·) ∧ ∀ e ∈ K, e.2 ≠ d

/-- A cache array of the geometry: canonical, its indices in range (R27, R28), its sets in order. -/
abbrev CacheOk (g : Geometry) (K : Cache) : Prop :=
  Canonical (resetSet g) K ∧ ∀ e ∈ K, e.1 < 2 ^ g.ib ∧ SetOk g e.2

/-- The three caches are in order. -/
abbrev CachesOk (cfg : Config) (cs : Caches) : Prop :=
  CacheOk cfg.l1 cs.l1.core1 ∧ CacheOk cfg.l1 cs.l1.core2 ∧ CacheOk cfg.l2 cs.l2

/-- Every counter fits its width (R29). -/
abbrev CountersOk (cfg : Config) (cnt : Counters) : Prop :=
  cnt.cyc.core1 < 2 ^ cfg.cntW ∧ cnt.cyc.core2 < 2 ^ cfg.cntW ∧ cnt.missL1.core1 < 2 ^ cfg.cntW ∧
    cnt.missL1.core2 < 2 ^ cfg.cntW ∧ cnt.missL2 < 2 ^ cfg.cntW

/-- The structural invariant: a well-formed configuration, caches and counters in order, cursors within their streams and
the slot within its round (R21). -/
abbrev StructOk (s : State) : Prop :=
  s.cfg.Wf ∧ CachesOk s.cfg s.caches ∧ CountersOk s.cfg s.counters ∧
    s.cur.core1 ≤ s.streams.core1.length ∧ s.cur.core2 ≤ s.streams.core2.length ∧ s.slot < roundSlots s.cfg

/-! ## Coherence -/

/-- The state of the line of `a` in `L1[c]`, read without a touch. -/
def Caches.stateL1 (cfg : Config) (cs : Caches) (c : CoreId) (a : Addr) : Lookup := probe cfg.l1 (cs.l1.get c) a

/-- The state of the line of `a` in the L2, read without a touch. -/
def Caches.stateL2 (cfg : Config) (cs : Caches) (a : Addr) : Lookup := probe cfg.l2 cs.l2 a

/-- The state of the line of `a` in `L1[c]` of a machine state. -/
abbrev State.stateL1 (s : State) (c : CoreId) (a : Addr) : Lookup := s.caches.stateL1 s.cfg c a

/-- The state of the line of `a` in the L2 of a machine state. -/
abbrev State.stateL2 (s : State) (a : Addr) : Lookup := s.caches.stateL2 s.cfg a

/-- From `K` to `K'`, the line of `a` was installed in state `st` into the fill way `K` gave (R105, R106). The states of the other
ways are no part of it: an eviction of the same operation may change one. -/
structure Installed (g : Geometry) (K K' : Cache) (a : Addr) (st : Mesi) : Prop where
  /-- the fill way holds the tag of `a` in state `st` -/
  line : (setAt g K' a).line (fillWay g K a) = ⟨some (decodeAddr g a).tag, st⟩
  /-- the recency order is the one before with the fill way touched (R101): the other ways keep their order -/
  lru : (setAt g K' a).lru = ((setAt g K a).touch (fillWay g K a)).lru
  /-- the other ways keep their tags -/
  otherTags : ∀ w, w ≠ fillWay g K a → ((setAt g K' a).line w).tag = ((setAt g K a).line w).tag

/-- No cache holds a tag for the line of `a`. -/
def Untouched (s : State) (a : Addr) : Prop :=
  s.stateL1 .core1 a = .notPresent ∧ s.stateL1 .core2 a = .notPresent ∧ s.stateL2 a = .notPresent

/-- The caches with the two cores' L1s exchanged. -/
def Caches.swap (cs : Caches) : Caches where
  l1 := ⟨cs.l1.core2, cs.l1.core1⟩
  l2 := cs.l2

/-- The coherence invariant, R34 items 1 to 5, for every address. -/
structure Coherent (cfg : Config) (cs : Caches) : Prop where
  /-- item 1: an owner is alone -/
  ownerAlone : ∀ (c : CoreId) (a : Addr), inRange cfg a →
    (cs.stateL1 cfg c a = .found .M ∨ cs.stateL1 cfg c a = .found .E) → (cs.stateL1 cfg (peer c) a).isValid = false
  /-- item 2: where one copy is Shared, neither core is an owner -/
  sharedNoOwner : ∀ (c d : CoreId) (a : Addr), inRange cfg a → cs.stateL1 cfg c a = .found .S →
    cs.stateL1 cfg d a ≠ .found .M ∧ cs.stateL1 cfg d a ≠ .found .E
  /-- item 3: a line valid in an L1 is valid in the L2 -/
  inclusion : ∀ (c : CoreId) (a : Addr), inRange cfg a → (cs.stateL1 cfg c a).isValid = true →
    (cs.stateL2 cfg a).isValid = true
  /-- item 4: an L2 line that holds a tag is Shared or Modified -/
  l2SharedOrModified : ∀ (a : Addr), inRange cfg a → cs.stateL2 cfg a ≠ .notPresent →
    cs.stateL2 cfg a = .found .S ∨ cs.stateL2 cfg a = .found .M
  /-- item 5: an L2 line in `M` has no valid L1 copy -/
  l2ModifiedAlone : ∀ (c : CoreId) (a : Addr), inRange cfg a → cs.stateL2 cfg a = .found .M →
    (cs.stateL1 cfg c a).isValid = false

/-- The invariant of the machine: structure and coherence. -/
structure Inv (s : State) : Prop where
  struct : StructOk s
  coherent : Coherent s.cfg s.caches

/-! ## The default geometry -/

/-- The default geometry of R35: the L2 index lies inside the L1 index, and the L2 is direct-mapped. -/
abbrev DefaultGeometry (cfg : Config) : Prop :=
  cfg.addrW = 32 ∧ cfg.l1Ob = 5 ∧ cfg.l1Ib = 16 ∧ cfg.l1Ways = 2 ∧ cfg.l2Ob = 5 ∧ cfg.l2Ib = 12 ∧ cfg.l2Ways = 1

/-- What R36 says of every address between operations, in the default geometry. -/
structure DefaultFacts (cfg : Config) (cs : Caches) : Prop where
  /-- item 1: a valid line of an L1 set is in its most recently used way -/
  validIsRecent : ∀ (c : CoreId) (a : Addr), inRange cfg a → (cs.stateL1 cfg c a).isValid = true →
    (setAt cfg.l1 (cs.l1.get c) a).matchWay (decodeAddr cfg.l1 a).tag =
      (setAt cfg.l1 (cs.l1.get c) a).lru.getLast?
  /-- item 1, second consequence: no L2 line is in `M` -/
  noL2Modified : ∀ (a : Addr), inRange cfg a → cs.stateL2 cfg a ≠ .found .M
  /-- item 2: a line valid in the L2 is valid in an L1 -/
  l2HasCopy : ∀ (a : Addr), inRange cfg a → (cs.stateL2 cfg a).isValid = true →
    ∃ c, (cs.stateL1 cfg c a).isValid = true
  /-- item 3: Shared copies come in pairs -/
  sharedInPairs : ∀ (c : CoreId) (a : Addr), inRange cfg a → cs.stateL1 cfg c a = .found .S →
    cs.stateL1 cfg (peer c) a = .found .S

/-! ## What an executed record does around its operation -/

/-- From `s`, a record of core `s.issuing` was executed with the events `evs`, and `t` is what it left outside the caches
(R181, R190 to R194): the cursor and the operation count of that core moved on, `missL1` of that core and `missL2` moved on if
`l1Missed` and `l2Missed`, the events and one snapshot were appended, and nothing else changed. -/
structure Executed (s t : State) (evs : List Event) (l1Missed l2Missed : Bool) : Prop where
  cfg : t.cfg = s.cfg
  streams : t.streams = s.streams
  slot : t.slot = s.slot
  issuing : t.issuing = s.issuing
  run : t.run = s.run
  cur : t.cur.get s.issuing = s.cur.get s.issuing + 1
  curPeer : t.cur.get (peer s.issuing) = s.cur.get (peer s.issuing)
  cyc : t.counters.cyc.get s.issuing = (s.counters.cyc.get s.issuing + 1) % 2 ^ s.cfg.cntW
  cycPeer : t.counters.cyc.get (peer s.issuing) = s.counters.cyc.get (peer s.issuing)
  missL1 : t.counters.missL1.get s.issuing =
    if l1Missed then (s.counters.missL1.get s.issuing + 1) % 2 ^ s.cfg.cntW else s.counters.missL1.get s.issuing
  missL1Peer : t.counters.missL1.get (peer s.issuing) = s.counters.missL1.get (peer s.issuing)
  missL2 : t.counters.missL2 = if l2Missed then (s.counters.missL2 + 1) % 2 ^ s.cfg.cntW else s.counters.missL2
  out : t.out = s.out ++ (evs.map Output.event ++ [.snapshot t.counters])

/-- From `s`, a fault `info` was raised and `t` is what it left: the run state, and nothing else (R210, R211). -/
structure Raised (s t : State) (info : FaultInfo) : Prop where
  run : t.run = .faulted info
  cfg : t.cfg = s.cfg
  streams : t.streams = s.streams
  caches : t.caches = s.caches
  counters : t.counters = s.counters
  cur : t.cur = s.cur
  slot : t.slot = s.slot
  issuing : t.issuing = s.issuing
  out : t.out = s.out

/-! ## The events of the evictions, from the states before them -/

/-- The Writeback of the local victim of a miss of core `c` on `a`, if the victim is Modified (R111). -/
def l1VictimEvents (cfg : Config) (c : CoreId) (cs : Caches) (a : Addr) : List Event :=
  match victimAddress cfg.l1 (cs.l1.get c) a with
  | none => []
  | some va => if cs.stateL1 cfg c va = .found .M then [.writeback c va (.l1 c) .l2] else []

/-- The events of the back-invalidation of `L1[k]` at `va` (R116). -/
def backEvents (cfg : Config) (c : CoreId) (cs : Caches) (va : Addr) (k : CoreId) : List Event :=
  match cs.stateL1 cfg k va with
  | .found .M => [.writeback c va (.l1 k) .mem, .invalidate c va k]
  | .found .E => [.invalidate c va k]
  | .found .S => [.invalidate c va k]
  | .found .I => []
  | .notPresent => []

/-- The events of the L2 victim of an L2 miss of core `c` on `a` (R115, R116): its own Writeback if it is Modified, then what
the back-invalidation of core 1's L1 and of core 2's emits. -/
def l2VictimEvents (cfg : Config) (c : CoreId) (cs : Caches) (a : Addr) : List Event :=
  match victimAddress cfg.l2 cs.l2 a with
  | none => []
  | some va =>
    (if cs.stateL2 cfg va = .found .M then [.writeback c va .l2 .mem] else []) ++
      (backEvents cfg c cs va .core1 ++ backEvents cfg c cs va .core2)

/-- The caches after the local victim's eviction of a miss of core `c` on `a`, which the L2 victim's eviction starts from
(R113). -/
def afterL1Eviction (cfg : Config) (c : CoreId) (cs : Caches) (a : Addr) : Caches :=
  (evictL1Victim cfg c a { caches := cs, events := [] }).2.caches

/-! ## Runs -/

/-- The event records of an output, in order. -/
def outEvents (out : List Output) : List Event :=
  out.filterMap (fun o =>
    match o with
    | .event e => some e
    | .snapshot _ => none)

/-- Execute operations one after another. -/
def execAll : List Instr → State → Host.Outcome State Fault Refusal
  | [], s => .next s
  | i :: rest, s =>
    match exec i s with
    | .next t => execAll rest t
    | .fault r => .fault r
    | .refused r => .refused r

/-- A run has ended well (R246); `Faulted` is never "done" (R210). -/
abbrev endedWell (s : State) : Prop := s.run = .done

/-- The items both streams still hold. -/
def State.remaining (s : State) : Nat :=
  (s.streams.core1.length - s.cur.core1) + (s.streams.core2.length - s.cur.core2)

end Sys2Proof.Machine
end

