-- ==== Sys2Proof/WellFormed.lean ====
section
/-! DEFINITION. The well-formed operations: those some request word of the configuration stands for. -/

namespace Sys2Proof

/-- The address operand has a word form, `addr < 2^ADDR_W` (R72). -/
abbrev addrFits (addrW : Nat) (addr : Addr) : Prop := addr < 2 ^ addrW

/-- The mode of an Invalid-Action is neither Load's nor Store's (R73, R182). -/
abbrev isInvalidMode (mode : ModeCode) : Prop := mode ≠ modeLoad ∧ mode ≠ modeStore

/-- The checks of one operation. -/
abbrev Instr.WellFormed (addrW : Nat) (i : Instr) : Prop :=
  addrFits addrW i.addr ∧
    (match i with
      | .load _ => true
      | .store _ => true
      | .invalidAction mode _ => decide (isInvalidMode mode)) = true

end Sys2Proof
end

