-- ==== Sys2Proof/Certificates/Slice0/Obligations.lean ====
section
/-! DEFINITION. The statements for the provers, one def Obligations.<Name> : Prop each. A statement about an operation holds for
every configuration of spec R8; where it speaks of lines it assumes the structural invariant StructOk, which
StepKeepsStructure states, or Inv, which StepKeepsCoherence states. -/

open Sys2Proof Sys2Proof.Machine

/-! ## Reset and configuration -/

/-- R240, R241, R245, R215: reset with any allowed configuration. Every line is `{none, I}`, every recency order is
`[0, .., WAYS-1]`, counters, cursors and slot are 0, the output is empty, and the run is `Running` or `Faulted(MissingTrace)`.
(For an L2 of more than one way the order is the model's reading, R241's for R240's `[0]`: DEDUCED, log 15.) -/
def Obligations.ResetLeavesSpecifiedState : Prop :=
  ∀ (cfg : Config) (t1 t2 : Option (List Item)), cfg.Wf →
    ∃ s, start cfg t1 t2 = .next s ∧ s.cfg = cfg ∧
      (∀ (c : CoreId) (a : Addr), (setAt cfg.l1 (s.caches.l1.get c) a).lru = List.range cfg.l1Ways ∧
        (setAt cfg.l1 (s.caches.l1.get c) a).ways = List.replicate cfg.l1Ways ⟨none, .I⟩) ∧
      (∀ a : Addr, (setAt cfg.l2 s.caches.l2 a).lru = List.range cfg.l2Ways ∧
        (setAt cfg.l2 s.caches.l2 a).ways = List.replicate cfg.l2Ways ⟨none, .I⟩) ∧
      s.counters = ⟨⟨0, 0⟩, ⟨0, 0⟩, 0⟩ ∧ s.cur = ⟨0, 0⟩ ∧ s.slot = 0 ∧ s.out = [] ∧
      (∀ l1 l2, t1 = some l1 → t2 = some l2 → s.run = .running ∧ s.streams = ⟨l1, l2⟩) ∧
      (t1 = none → s.run = .faulted (.missingTrace .core1)) ∧
      (∀ l1, t1 = some l1 → t2 = none → s.run = .faulted (.missingTrace .core2))

/-- R8: a configuration that fails one of the seven conditions is refused, by the start and by every step, and no other is
refused at the start. -/
def Obligations.IllFormedConfigRefused : Prop :=
  (∀ s : State, ¬(s.cfg.l1Ob = s.cfg.l2Ob ∧ s.cfg.l1Ob + s.cfg.l1Ib ≤ s.cfg.addrW ∧ s.cfg.l2Ob + s.cfg.l2Ib ≤ s.cfg.addrW ∧
      s.cfg.l1Ways ≥ 1 ∧ s.cfg.l2Ways ≥ 1 ∧ s.cfg.ratio1 ≥ 1 ∧ s.cfg.ratio2 ≥ 1) →
    step s = .refused .illFormedConfig ∧ ∀ t1 t2, start s.cfg t1 t2 = .refused .illFormedConfig) ∧
  (∀ (cfg : Config) (t1 t2 : Option (List Item)), cfg.l1Ob = cfg.l2Ob → cfg.l1Ob + cfg.l1Ib ≤ cfg.addrW →
      cfg.l2Ob + cfg.l2Ib ≤ cfg.addrW → cfg.l1Ways ≥ 1 → cfg.l2Ways ≥ 1 → cfg.ratio1 ≥ 1 → cfg.ratio2 ≥ 1 →
    ∃ s, start cfg t1 t2 = .next s)

/-! ## Addresses -/

/-- R54: encode undoes decode on every address, and decode undoes encode on all fields of their widths. -/
def Obligations.AddressCodecRoundTrip : Prop :=
  ∀ (g : Geometry) (n : Nat), n = g.ob + g.ib + g.tw →
    (∀ a : Addr, a < 2 ^ n →
      encodeAddr g (decodeAddr g a).index (decodeAddr g a).tag (decodeAddr g a).offset = a) ∧
    (∀ i t o : Nat, i < 2 ^ g.ib → o < 2 ^ g.ob → t < 2 ^ g.tw →
      encodeAddr g i t o < 2 ^ n ∧ decodeAddr g (encodeAddr g i t o) = ⟨i, t, o⟩)

/-- R52: the fields of an address in the default configuration, bit by bit. -/
def Obligations.DefaultAddressFields : Prop :=
  ∀ a : BitVec 32,
    decodeAddr Config.default.l1 a.toNat =
      ⟨(a.extractLsb 20 5).toNat, (a.extractLsb 31 21).toNat, (a.extractLsb 4 0).toNat⟩ ∧
    decodeAddr Config.default.l2 a.toNat =
      ⟨(a.extractLsb 16 5).toNat, (a.extractLsb 31 17).toNat, (a.extractLsb 4 0).toNat⟩

/-- R56: `lineAddr` clears the low `L1_OB` bits, and decoding an address gives the index and tag of its line address in both
caches. -/
def Obligations.LineAddressSelectsLine : Prop :=
  ∀ (cfg : Config) (a : Addr), cfg.Wf →
    lineAddr cfg a % 2 ^ cfg.l1Ob = 0 ∧ lineAddr cfg a ≤ a ∧ a < lineAddr cfg a + 2 ^ cfg.l1Ob ∧
    (decodeAddr cfg.l1 (lineAddr cfg a)).index = (decodeAddr cfg.l1 a).index ∧
    (decodeAddr cfg.l1 (lineAddr cfg a)).tag = (decodeAddr cfg.l1 a).tag ∧
    (decodeAddr cfg.l2 (lineAddr cfg a)).index = (decodeAddr cfg.l2 a).index ∧
    (decodeAddr cfg.l2 (lineAddr cfg a)).tag = (decodeAddr cfg.l2 a).tag

/-- R58: an operation on another address of the same line completes too and leaves the same caches and counters. -/
def Obligations.OffsetDoesNotMatter : Prop :=
  ∀ (s : State) (a b : Addr), s.cfg.Wf → inRange s.cfg a → lineAddr s.cfg a = lineAddr s.cfg b →
    (∃ t u, exec (.load a) s = .next t ∧ exec (.load b) s = .next u ∧ t.caches = u.caches ∧ t.counters = u.counters) ∧
    (∃ t u, exec (.store a) s = .next t ∧ exec (.store b) s = .next u ∧ t.caches = u.caches ∧ t.counters = u.counters)

/-! ## Request words -/

/-- Tier 3: decoding the word of a well-formed operation gives it back, for every address width (R72, R73). -/
def Obligations.DecodeEncodeRoundTrip : Prop :=
  ∀ (addrW : Nat) (i : Instr), i.WellFormed addrW → decodeWord addrW (encode addrW i) = .instr i

/-- R76: no word is reserved or illegal; each decodes to a well-formed operation whose word it is. -/
def Obligations.EveryWordDecodes : Prop :=
  ∀ (addrW : Nat) (w : ReqWord), w < 2 ^ (addrW + 8) →
    ∃ i : Instr, decodeWord addrW w = .instr i ∧ i.WellFormed addrW ∧ encode addrW i = w

/-- R73: the `mode` field of a request word selects the operation, by an exact match; first for every address width, the word
given as `mode` above `addr`, then for the 40-bit words of the opcode table, by bits. -/
def Obligations.ModeSelectsOperation : Prop :=
  (∀ (addrW : Nat) (m : ModeCode) (a : Addr), a < 2 ^ addrW →
    decodeWord addrW (m.toNat * 2 ^ addrW + a) = .instr
      (if m = 0x4C then .load a else if m = 0x53 then .store a else .invalidAction m a)) ∧
  ∀ w : BitVec 40,
    (w.extractLsb 39 32 = 0x4C#8 → decodeTableWord 40 w.toNat = some (.load (w.extractLsb 31 0).toNat)) ∧
    (w.extractLsb 39 32 = 0x53#8 → decodeTableWord 40 w.toNat = some (.store (w.extractLsb 31 0).toNat)) ∧
    (w.extractLsb 39 32 ≠ 0x4C#8 → w.extractLsb 39 32 ≠ 0x53#8 →
      decodeTableWord 40 w.toNat = some (.invalidAction (w.extractLsb 39 32) (w.extractLsb 31 0).toNat))

/-- Words written out from R72 and R73 decode to the operations they stand for. -/
def Obligations.SampleWordsDecode : Prop :=
  decodeTableWord 40 0b0100110000000000000000000000000010000100 = some (.load 0x84) ∧
    decodeTableWord 40 0b0101001100000000000000000001000000000000 = some (.store 0x1000) ∧
    decodeTableWord 40 0b0110110000000000000000000000000010000000 = some (.invalidAction 0x6C 0x80)

/-! ## The step, the scheduler and the end of a run -/

/-- R180, R181: where the next item is a record, one step is `exec` of the operation its mode selects, at the state in which
the scheduler has moved the slot and recorded the core; where the record is what a request word stands for, that operation is
the one the word decodes to. -/
def Obligations.StepRunsDecodedItem : Prop :=
  ∀ (s s1 : State) (c : CoreId) (a : Addr) (m : ModeCode), s.cfg.Wf → s.run = .running → ¬ s.finished →
    nextCore s = some (c, s1) → (s.stream c)[s.cur.get c]? = some (.record a m) →
    step s = exec (selectInstr m a) s1 ∧ s1.issuing = c ∧ s1 = { s with slot := s1.slot, issuing := c } ∧
    (∀ (w : ReqWord) (i : Instr), itemOfWord s.cfg.addrW w = .record a m → decodeWord s.cfg.addrW w = .instr i →
      step s = exec i s1)

/-- The host's placement of a word, whatever the machine holds: the next step runs exactly the operation the word decodes to, for
the core that owns the next slot, on the caches, counters and cursors as they were (log 12: the model's own interface). -/
def Obligations.PlacedWordRunsNext : Prop :=
  ∀ (s : State) (nbits w : Nat) (i : Instr), s.cfg.Wf → decodeWord s.cfg.addrW (w % 2 ^ nbits) = .instr i →
    ∃ u, step (s.withFetchWord nbits w) = exec i u ∧ u.issuing = slotOwner s.cfg s.slot ∧ u.cfg = s.cfg ∧
      u.caches = s.caches ∧ u.counters = s.counters ∧ u.cur = s.cur ∧ u.out = s.out ∧ u.run = .running ∧
      u.slot = (s.slot + 1) % (s.cfg.ratio1 + s.cfg.ratio2)

/-- R198: from a running state with its cursors within the streams, the step that finds both cursors at the stream lengths sets
`run` to `Done` and does nothing else, and no other step sets it; a run of two empty streams takes that one step, with all
counters 0. -/
def Obligations.RunEndsExactlyWhenExhausted : Prop :=
  (∀ s : State, s.cfg.Wf → s.run = .running → s.cur.core1 ≤ s.streams.core1.length → s.cur.core2 ≤ s.streams.core2.length →
    (s.cur.core1 = s.streams.core1.length → s.cur.core2 = s.streams.core2.length → step s = .next { s with run := .done }) ∧
    (∀ t, step s = .next t → t.run = .done →
      s.cur.core1 = s.streams.core1.length ∧ s.cur.core2 = s.streams.core2.length)) ∧
  (∀ cfg : Config, cfg.Wf → ∃ t, step (resetWith cfg (some []) (some [])) = .next t ∧ t.run = .done ∧
    t.counters = ⟨⟨0, 0⟩, ⟨0, 0⟩, 0⟩)

/-- R30, R210: no step is enabled in `Done` or in `Faulted`. -/
def Obligations.NoStepAfterTheEnd : Prop :=
  ∀ s : State, s.cfg.Wf →
    (s.run = .done → step s = .fault .runDone) ∧
    (∀ info, s.run = .faulted info → step s = .fault (.runFaulted info))

/-- R212, R211: a malformed next item faults, with its core and item number, changes nothing but the run state (the slot has
moved before), and stops the whole machine. -/
def Obligations.MalformedItemFaults : Prop :=
  ∀ (s s1 : State) (c : CoreId), s.cfg.Wf → s.run = .running → ¬ s.finished → nextCore s = some (c, s1) →
    (s.stream c)[s.cur.get c]? = some .malformed →
    ∃ t, step s = .next t ∧ Raised s1 t (.malformedRecord c (s.cur.get c)) ∧
      s1 = { s with slot := s1.slot, issuing := c } ∧ step t = .fault (.runFaulted (.malformedRecord c (s.cur.get c)))

/-- R213, R55, R211: a record whose address is `2^ADDR_W` or more faults, whatever its mode, and changes nothing but the run
state; so does each operation by itself. -/
def Obligations.AddressOutOfRangeFaults : Prop :=
  (∀ (s s1 : State) (c : CoreId) (a : Addr) (m : ModeCode), s.cfg.Wf → s.run = .running → ¬ s.finished →
    nextCore s = some (c, s1) → (s.stream c)[s.cur.get c]? = some (.record a m) → a ≥ 2 ^ s.cfg.addrW →
    ∃ t, step s = .next t ∧ Raised s1 t (.addressOutOfRange c (s.cur.get c) a) ∧
      s1 = { s with slot := s1.slot, issuing := c }) ∧
  (∀ (i : Instr) (s : State), i.addr ≥ 2 ^ s.cfg.addrW →
    ∃ t, exec i s = .next t ∧ Raised s t (.addressOutOfRange s.issuing (s.cur.get s.issuing) i.addr))

/-- R195, R196: the scheduler takes the first slot, from `slot` on and around the round, whose core has an item left; slots
below `RATIO1` are core 1's; the next slot is the one after it, and nothing else of the machine changes. -/
def Obligations.SchedulerTakesFirstOpenSlot : Prop :=
  ∀ s : State, s.cfg.Wf → s.slot < s.cfg.ratio1 + s.cfg.ratio2 → ¬ s.finished →
    ∃ d, d < s.cfg.ratio1 + s.cfg.ratio2 ∧
      (∀ e < d, s.exhausted (if (s.slot + e) % (s.cfg.ratio1 + s.cfg.ratio2) < s.cfg.ratio1 then .core1 else .core2)) ∧
      ¬ s.exhausted (if (s.slot + d) % (s.cfg.ratio1 + s.cfg.ratio2) < s.cfg.ratio1 then .core1 else .core2) ∧
      nextCore s =
        some (if (s.slot + d) % (s.cfg.ratio1 + s.cfg.ratio2) < s.cfg.ratio1 then .core1 else .core2,
          { s with
            slot := (s.slot + d + 1) % (s.cfg.ratio1 + s.cfg.ratio2)
            issuing := if (s.slot + d) % (s.cfg.ratio1 + s.cfg.ratio2) < s.cfg.ratio1 then .core1 else .core2 })

/-- R243: the first step after reset takes item 0 of core 1's stream if it has one, and otherwise item 0 of core 2's. -/
def Obligations.FirstStepTakesFirstItem : Prop :=
  ∀ (cfg : Config) (item : Item) (rest other : List Item), cfg.Wf →
    (∃ u : State, u.issuing = .core1 ∧ u.caches = Caches.reset ∧ u.cur = ⟨0, 0⟩ ∧
      step (resetWith cfg (some (item :: rest)) (some other)) =
        (match item with
          | .record a m => exec (selectInstr m a) u
          | .malformed => .next (raiseFault (.malformedRecord .core1 0) u))) ∧
    (∃ u : State, u.issuing = .core2 ∧ u.caches = Caches.reset ∧ u.cur = ⟨0, 0⟩ ∧
      step (resetWith cfg (some []) (some (item :: rest))) =
        (match item with
          | .record a m => exec (selectInstr m a) u
          | .malformed => .next (raiseFault (.malformedRecord .core2 0) u)))

/-- R199: two machines with the same ratios, slot, cursors and stream lengths move them in the same way, whatever their
addresses, modes and caches are, as long as neither faults. -/
def Obligations.OrderIgnoresContents : Prop :=
  ∀ s s' t t' : State, s.cfg.ratio1 = s'.cfg.ratio1 → s.cfg.ratio2 = s'.cfg.ratio2 → s.slot = s'.slot → s.cur = s'.cur →
    (∀ c, (s.stream c).length = (s'.stream c).length) → step s = .next t → step s' = .next t' →
    (∀ info, t.run ≠ .faulted info) → (∀ info, t'.run ≠ .faulted info) →
    t.slot = t'.slot ∧ t.cur = t'.cur ∧ t.run = t'.run

/-- R21, R31, R246: a step only appends to the output, never changes the configuration or the streams, moves no cursor
backwards, and either ends the run with both cursors as they were or advances one cursor by one. -/
def Obligations.StepMovesForward : Prop :=
  ∀ s t : State, step s = .next t →
    s.out <+: t.out ∧ t.cfg = s.cfg ∧ t.streams = s.streams ∧
      ((t.run ≠ .running ∧ t.cur = s.cur) ∨
        (t.run = .running ∧ ∃ c, ¬ s.exhausted c ∧ t.cur.get c = s.cur.get c + 1 ∧
          t.cur.get (peer c) = s.cur.get (peer c)))

/-- R246: from every running state in order, the run ends within one step more than it has items left, and where it
ends in `Done` every item of both streams has been taken. -/
def Obligations.EveryRunEnds : Prop :=
  ∀ s : State, StructOk s → s.run = .running →
    ∃ (k : Nat) (t : State), k ≤ s.remaining + 1 ∧ Host.Core.run Sys2Proof.core k s = .next t ∧ t.run ≠ .running ∧
      (t.run = .done → t.cur.core1 = t.streams.core1.length ∧ t.cur.core2 = t.streams.core2.length)

/-! ## LOAD -/

/-- R141: a Load that hits. Only the recency order of the hit line's set changes. -/
def Obligations.LoadHit : Prop :=
  ∀ (s : State) (a : Addr), StructOk s → inRange s.cfg a → (s.stateL1 s.issuing a).isValid = true →
    ∃ t w, exec (.load a) s = .next t ∧ Executed s t [.hit s.issuing a 0x4C] false false ∧
      t.caches.l2 = s.caches.l2 ∧ t.caches.l1.get (peer s.issuing) = s.caches.l1.get (peer s.issuing) ∧
      (setAt s.cfg.l1 (s.caches.l1.get s.issuing) a).matchWay (decodeAddr s.cfg.l1 a).tag = some w ∧
      setAt s.cfg.l1 (t.caches.l1.get s.issuing) a = (setAt s.cfg.l1 (s.caches.l1.get s.issuing) a).touch w ∧
      (setAt s.cfg.l1 (t.caches.l1.get s.issuing) a).lru.getLast? = some w ∧
      (∀ b, (decodeAddr s.cfg.l1 b).index ≠ (decodeAddr s.cfg.l1 a).index →
        setAt s.cfg.l1 (t.caches.l1.get s.issuing) b = setAt s.cfg.l1 (s.caches.l1.get s.issuing) b) ∧
      (∀ c b, t.stateL1 c b = s.stateL1 c b)

/-- R144: a Load miss that hits the L2 and finds the peer Modified. -/
def Obligations.LoadMissPeerModified : Prop :=
  ∀ (s : State) (a : Addr), StructOk s → inRange s.cfg a → (s.stateL1 s.issuing a).isValid = false →
    (s.stateL2 a).isValid = true → s.stateL1 (peer s.issuing) a = .found .M →
    ∃ t, exec (.load a) s = .next t ∧
      Executed s t (.missL1 s.issuing a 0x4C :: l1VictimEvents s.cfg s.issuing s.caches a ++
        [.writeback s.issuing (lineAddr s.cfg a) (.l1 (peer s.issuing)) .l2,
          .invalidate s.issuing (lineAddr s.cfg a) (peer s.issuing)]) true false ∧
      Installed s.cfg.l1 (s.caches.l1.get s.issuing) (t.caches.l1.get s.issuing) a .E ∧
      t.stateL1 s.issuing a = .found .E ∧ t.stateL1 (peer s.issuing) a = .found .I ∧ t.stateL2 a = .found .S

/-- R145: a Load miss that hits the L2 and finds the peer Shared. -/
def Obligations.LoadMissPeerShared : Prop :=
  ∀ (s : State) (a : Addr), StructOk s → inRange s.cfg a → (s.stateL1 s.issuing a).isValid = false →
    (s.stateL2 a).isValid = true → s.stateL1 (peer s.issuing) a = .found .S →
    ∃ t, exec (.load a) s = .next t ∧
      Executed s t (.missL1 s.issuing a 0x4C :: l1VictimEvents s.cfg s.issuing s.caches a) true false ∧
      Installed s.cfg.l1 (s.caches.l1.get s.issuing) (t.caches.l1.get s.issuing) a .S ∧
      t.stateL1 s.issuing a = .found .S ∧ t.stateL1 (peer s.issuing) a = .found .S ∧ t.stateL2 a = .found .S

/-- R146: a Load miss that hits the L2 and finds the peer Exclusive. -/
def Obligations.LoadMissPeerExclusive : Prop :=
  ∀ (s : State) (a : Addr), StructOk s → inRange s.cfg a → (s.stateL1 s.issuing a).isValid = false →
    (s.stateL2 a).isValid = true → s.stateL1 (peer s.issuing) a = .found .E →
    ∃ t, exec (.load a) s = .next t ∧
      Executed s t (.missL1 s.issuing a 0x4C :: l1VictimEvents s.cfg s.issuing s.caches a) true false ∧
      Installed s.cfg.l1 (s.caches.l1.get s.issuing) (t.caches.l1.get s.issuing) a .S ∧
      t.stateL1 s.issuing a = .found .S ∧ t.stateL1 (peer s.issuing) a = .found .S ∧ t.stateL2 a = .found .S

/-- R147: a Load miss that hits the L2 and finds the peer Invalid or NotPresent; the peer changes by the touch of the lookup
alone. -/
def Obligations.LoadMissPeerWithoutCopy : Prop :=
  ∀ (s : State) (a : Addr), StructOk s → inRange s.cfg a → (s.stateL1 s.issuing a).isValid = false →
    (s.stateL2 a).isValid = true → (s.stateL1 (peer s.issuing) a).isValid = false →
    ∃ t, exec (.load a) s = .next t ∧
      Executed s t (.missL1 s.issuing a 0x4C :: l1VictimEvents s.cfg s.issuing s.caches a) true false ∧
      Installed s.cfg.l1 (s.caches.l1.get s.issuing) (t.caches.l1.get s.issuing) a .E ∧
      t.stateL1 s.issuing a = .found .E ∧ t.stateL2 a = .found .S ∧
      t.caches.l1.get (peer s.issuing) = (lookup s.cfg.l1 (s.caches.l1.get (peer s.issuing)) a).2 ∧
      (∀ b, t.stateL1 (peer s.issuing) b = s.stateL1 (peer s.issuing) b)

/-- R148: a Load that misses both levels. The L2 victim is dealt with on the caches the local eviction left (R113): it leaves the
L2 and has no valid L1 copy. The peer is not read: none of its recency orders changes. -/
def Obligations.LoadMissBoth : Prop :=
  ∀ (s : State) (a : Addr), StructOk s → inRange s.cfg a → (s.stateL1 s.issuing a).isValid = false →
    (s.stateL2 a).isValid = false →
    ∃ t, exec (.load a) s = .next t ∧
      Executed s t (.missL1 s.issuing a 0x4C :: l1VictimEvents s.cfg s.issuing s.caches a ++
        (.missL2 s.issuing a 0x4C ::
          l2VictimEvents s.cfg s.issuing (afterL1Eviction s.cfg s.issuing s.caches a) a)) true true ∧
      Installed s.cfg.l1 (s.caches.l1.get s.issuing) (t.caches.l1.get s.issuing) a .E ∧
      Installed s.cfg.l2 s.caches.l2 t.caches.l2 a .S ∧
      t.stateL1 s.issuing a = .found .E ∧ t.stateL2 a = .found .S ∧
      (∀ va, victimAddress s.cfg.l2 s.caches.l2 a = some va → lineAddr s.cfg va ≠ lineAddr s.cfg a →
        t.stateL2 va = .notPresent ∧ ∀ c, (t.stateL1 c va).isValid = false) ∧
      (∀ b, (setAt s.cfg.l1 (t.caches.l1.get (peer s.issuing)) b).lru =
        (setAt s.cfg.l1 (s.caches.l1.get (peer s.issuing)) b).lru)

/-! ## STORE -/

/-- R161: a Store that hits in `M` or `E`. The peer and the L2 are not accessed. -/
def Obligations.StoreHitOwner : Prop :=
  ∀ (s : State) (a : Addr), StructOk s → inRange s.cfg a →
    (s.stateL1 s.issuing a = .found .M ∨ s.stateL1 s.issuing a = .found .E) →
    ∃ t w, exec (.store a) s = .next t ∧ Executed s t [.hit s.issuing a 0x53] false false ∧
      t.caches.l2 = s.caches.l2 ∧ t.caches.l1.get (peer s.issuing) = s.caches.l1.get (peer s.issuing) ∧
      t.stateL1 s.issuing a = .found .M ∧
      (∀ b, lineAddr s.cfg b ≠ lineAddr s.cfg a → t.stateL1 s.issuing b = s.stateL1 s.issuing b) ∧
      (setAt s.cfg.l1 (s.caches.l1.get s.issuing) a).matchWay (decodeAddr s.cfg.l1 a).tag = some w ∧
      setAt s.cfg.l1 (t.caches.l1.get s.issuing) a =
        ((setAt s.cfg.l1 (s.caches.l1.get s.issuing) a).touch w).withState w .M ∧
      (setAt s.cfg.l1 (t.caches.l1.get s.issuing) a).lru.getLast? = some w ∧
      (∀ b, (decodeAddr s.cfg.l1 b).index ≠ (decodeAddr s.cfg.l1 a).index →
        setAt s.cfg.l1 (t.caches.l1.get s.issuing) b = setAt s.cfg.l1 (s.caches.l1.get s.issuing) b)

/-- R162, and the touch of the lookup in R160's step 1: a Store that hits in `S`. A valid peer copy is invalidated with an event,
the peer's recency orders do not change, the L2 is not accessed; in the local L1 the set of `a` is the touched one with the line
in `M`, and no other set changes. -/
def Obligations.StoreHitShared : Prop :=
  ∀ (s : State) (a : Addr), StructOk s → inRange s.cfg a → s.stateL1 s.issuing a = .found .S →
    ∃ t w, exec (.store a) s = .next t ∧
      Executed s t (.hit s.issuing a 0x53 ::
        (if (s.stateL1 (peer s.issuing) a).isValid
          then [.invalidate s.issuing (lineAddr s.cfg a) (peer s.issuing)] else [])) false false ∧
      t.caches.l2 = s.caches.l2 ∧ t.stateL1 s.issuing a = .found .M ∧
      t.stateL1 (peer s.issuing) a =
        (if (s.stateL1 (peer s.issuing) a).isValid then .found .I else s.stateL1 (peer s.issuing) a) ∧
      (∀ c b, lineAddr s.cfg b ≠ lineAddr s.cfg a → t.stateL1 c b = s.stateL1 c b) ∧
      (setAt s.cfg.l1 (s.caches.l1.get s.issuing) a).matchWay (decodeAddr s.cfg.l1 a).tag = some w ∧
      setAt s.cfg.l1 (t.caches.l1.get s.issuing) a =
        ((setAt s.cfg.l1 (s.caches.l1.get s.issuing) a).touch w).withState w .M ∧
      (∀ b, (decodeAddr s.cfg.l1 b).index ≠ (decodeAddr s.cfg.l1 a).index →
        setAt s.cfg.l1 (t.caches.l1.get s.issuing) b = setAt s.cfg.l1 (s.caches.l1.get s.issuing) b) ∧
      (∀ b, (setAt s.cfg.l1 (t.caches.l1.get (peer s.issuing)) b).lru =
        (setAt s.cfg.l1 (s.caches.l1.get (peer s.issuing)) b).lru)

/-- R163, R164, R165: a Store miss that hits the L2. A valid peer copy is invalidated with an event; there is no Writeback, not
even of a Modified peer copy. -/
def Obligations.StoreMissL2Hit : Prop :=
  ∀ (s : State) (a : Addr), StructOk s → inRange s.cfg a → (s.stateL1 s.issuing a).isValid = false →
    (s.stateL2 a).isValid = true →
    ∃ t, exec (.store a) s = .next t ∧
      Executed s t (.missL1 s.issuing a 0x53 :: l1VictimEvents s.cfg s.issuing s.caches a ++
        (if (s.stateL1 (peer s.issuing) a).isValid
          then [.invalidate s.issuing (lineAddr s.cfg a) (peer s.issuing)] else [])) true false ∧
      Installed s.cfg.l1 (s.caches.l1.get s.issuing) (t.caches.l1.get s.issuing) a .M ∧
      t.stateL1 s.issuing a = .found .M ∧ t.stateL2 a = .found .S ∧
      t.stateL1 (peer s.issuing) a =
        (if (s.stateL1 (peer s.issuing) a).isValid then .found .I else s.stateL1 (peer s.issuing) a)

/-- R166: a Store that misses both levels; the L2 victim leaves the L2 and has no valid L1 copy, and the peer is not read. -/
def Obligations.StoreMissBoth : Prop :=
  ∀ (s : State) (a : Addr), StructOk s → inRange s.cfg a → (s.stateL1 s.issuing a).isValid = false →
    (s.stateL2 a).isValid = false →
    ∃ t, exec (.store a) s = .next t ∧
      Executed s t (.missL1 s.issuing a 0x53 :: l1VictimEvents s.cfg s.issuing s.caches a ++
        (.missL2 s.issuing a 0x53 ::
          l2VictimEvents s.cfg s.issuing (afterL1Eviction s.cfg s.issuing s.caches a) a)) true true ∧
      Installed s.cfg.l1 (s.caches.l1.get s.issuing) (t.caches.l1.get s.issuing) a .M ∧
      Installed s.cfg.l2 s.caches.l2 t.caches.l2 a .S ∧
      t.stateL1 s.issuing a = .found .M ∧ t.stateL2 a = .found .S ∧
      (∀ va, victimAddress s.cfg.l2 s.caches.l2 a = some va → lineAddr s.cfg va ≠ lineAddr s.cfg a →
        t.stateL2 va = .notPresent ∧ ∀ c, (t.stateL1 c va).isValid = false) ∧
      (∀ b, (setAt s.cfg.l1 (t.caches.l1.get (peer s.issuing)) b).lru =
        (setAt s.cfg.l1 (s.caches.l1.get (peer s.issuing)) b).lru)

/-! ## INVALID_ACTION -/

/-- R182: one InvalidAction event; the cursor and the operation count of the core move on, and no cache changes. -/
def Obligations.InvalidActionOnlyReports : Prop :=
  ∀ (s : State) (a : Addr) (m : ModeCode), inRange s.cfg a →
    ∃ t, exec (.invalidAction m a) s = .next t ∧ Executed s t [.invalidAction s.issuing a m] false false ∧
      t.caches = s.caches

/-! ## What every operation does, and what it leaves -/

/-- R190, R191, R192, R193, R194: every operation on an address in range completes; its core's operation count moves on; a
Load or Store that misses its L1 emits one `MissL1` of its core and counts one, one that misses the L2 too emits one `MissL2`
and counts one; every event carries the issuing core; one snapshot follows the events. -/
def Obligations.CountersFollowEvents : Prop :=
  ∀ (i : Instr) (s : State), StructOk s → inRange s.cfg i.addr →
    ∃ t evs m1 m2, exec i s = .next t ∧ Executed s t evs m1 m2 ∧
      evs.countP (Event.isMissL1Of s.issuing) = m1.toNat ∧ evs.countP Event.isMissL2 = m2.toNat ∧
      (∀ e ∈ evs, e.record.core = s.issuing.number) ∧
      (m1 = true ↔ (∃ a, i = .load a ∨ i = .store a) ∧ (s.stateL1 s.issuing i.addr).isValid = false) ∧
      (m2 = true ↔ m1 = true ∧ (s.stateL2 i.addr).isValid = false)

/-- R84: the outcome that the events of an operation select is the one its hits and misses say. -/
def Obligations.OutcomeMatchesOperation : Prop :=
  ∀ (i : Instr) (s : State), inRange s.cfg i.addr →
    ∃ t evs, exec i s = .next t ∧ t.out = s.out ++ (evs.map Output.event ++ [.snapshot t.counters]) ∧
      opOutcome evs = some
        (match i with
          | .invalidAction _ _ => .invalidAction
          | .load a => if (s.stateL1 s.issuing a).isValid then .l1Hit
              else if (s.stateL2 a).isValid then .l1MissL2Hit else .l1MissL2Miss
          | .store a => if (s.stateL1 s.issuing a).isValid then .l1Hit
              else if (s.stateL2 a).isValid then .l1MissL2Hit else .l1MissL2Miss)

/-- R143, R164: on an L2 hit a miss reads the peer with a lookup, which makes a matching peer line, valid or not, the most
recently used of its set, and changes no other recency order of the peer. -/
def Obligations.PeerReadTouches : Prop :=
  ∀ (s : State) (a : Addr) (i : Instr), (i = .load a ∨ i = .store a) → StructOk s → inRange s.cfg a →
    (s.stateL1 s.issuing a).isValid = false → (s.stateL2 a).isValid = true →
    ∃ t, exec i s = .next t ∧
      (∀ w, (setAt s.cfg.l1 (s.caches.l1.get (peer s.issuing)) a).matchWay (decodeAddr s.cfg.l1 a).tag = some w →
        (setAt s.cfg.l1 (t.caches.l1.get (peer s.issuing)) a).lru =
          ((setAt s.cfg.l1 (s.caches.l1.get (peer s.issuing)) a).touch w).lru) ∧
      (s.stateL1 (peer s.issuing) a = .notPresent →
        t.caches.l1.get (peer s.issuing) = s.caches.l1.get (peer s.issuing)) ∧
      (∀ b, (decodeAddr s.cfg.l1 b).index ≠ (decodeAddr s.cfg.l1 a).index →
        setAt s.cfg.l1 (t.caches.l1.get (peer s.issuing)) b = setAt s.cfg.l1 (s.caches.l1.get (peer s.issuing)) b)

/-- Frame of a Load or Store miss that hits the L2 (R100, R109 to R112, R143, R165): the peer changes at the line of `a` only;
the local L1 and the L2 change at the line of `a` and at the local victim's; the victim's line leaves the local L1, and its L2
copy becomes `M` exactly if the victim was Modified; in the local set the ways other than the fill way are as before; the L2's
lookup touches its matching way (R102, step 3 of R140 and R160), and no other set of the L2 changes its order. The address of
the victim is the one the meaning computes. -/
def Obligations.MissFrameOnL2Hit : Prop :=
  ∀ (s t : State) (a : Addr) (i : Instr), (i = .load a ∨ i = .store a) → StructOk s → inRange s.cfg a →
    (s.stateL1 s.issuing a).isValid = false → (s.stateL2 a).isValid = true → exec i s = .next t →
    (∀ b, lineAddr s.cfg b ≠ lineAddr s.cfg a → t.stateL1 (peer s.issuing) b = s.stateL1 (peer s.issuing) b) ∧
    (∀ b, lineAddr s.cfg b ≠ lineAddr s.cfg a →
      (∀ va, victimAddress s.cfg.l1 (s.caches.l1.get s.issuing) a = some va → lineAddr s.cfg b ≠ lineAddr s.cfg va) →
      t.stateL1 s.issuing b = s.stateL1 s.issuing b ∧ t.stateL2 b = s.stateL2 b) ∧
    (∀ va, victimAddress s.cfg.l1 (s.caches.l1.get s.issuing) a = some va → lineAddr s.cfg va ≠ lineAddr s.cfg a →
      t.stateL1 s.issuing va = .notPresent ∧
      t.stateL2 va =
        (if s.stateL1 s.issuing va = .found .M ∧ s.stateL2 va ≠ .notPresent then .found .M else s.stateL2 va)) ∧
    (∀ b, (decodeAddr s.cfg.l1 b).index ≠ (decodeAddr s.cfg.l1 a).index →
      setAt s.cfg.l1 (t.caches.l1.get s.issuing) b = setAt s.cfg.l1 (s.caches.l1.get s.issuing) b) ∧
    (∀ w, w ≠ fillWay s.cfg.l1 (s.caches.l1.get s.issuing) a →
      (setAt s.cfg.l1 (t.caches.l1.get s.issuing) a).line w = (setAt s.cfg.l1 (s.caches.l1.get s.issuing) a).line w) ∧
    (∀ w, (setAt s.cfg.l2 s.caches.l2 a).matchWay (decodeAddr s.cfg.l2 a).tag = some w →
      (setAt s.cfg.l2 t.caches.l2 a).lru = ((setAt s.cfg.l2 s.caches.l2 a).touch w).lru) ∧
    (∀ b, (decodeAddr s.cfg.l2 b).index ≠ (decodeAddr s.cfg.l2 a).index →
      (setAt s.cfg.l2 t.caches.l2 b).lru = (setAt s.cfg.l2 s.caches.l2 b).lru)

/-- Frame of a Load or Store miss that misses the L2 too (R100, R109 to R117): every line but those of `a`, of the local victim
and of the L2 victim is as before in all three caches; the L2 victim's line leaves the L2 and has no valid L1 copy, the peer's
being Invalid if it was valid and as before otherwise (R116); the local victim's line leaves the local L1, and where it is not
the L2 victim's line too, its L2 copy becomes `M` exactly if the victim was Modified (R111) and the peer's copy is as before
(R112); no recency order changes but those of the local set and the L2 set of `a`. -/
def Obligations.MissFrameOnL2Miss : Prop :=
  ∀ (s t : State) (a : Addr) (i : Instr), (i = .load a ∨ i = .store a) → StructOk s → inRange s.cfg a →
    (s.stateL1 s.issuing a).isValid = false → (s.stateL2 a).isValid = false → exec i s = .next t →
    (∀ b, lineAddr s.cfg b ≠ lineAddr s.cfg a →
      (∀ va, victimAddress s.cfg.l1 (s.caches.l1.get s.issuing) a = some va → lineAddr s.cfg b ≠ lineAddr s.cfg va) →
      (∀ va, victimAddress s.cfg.l2 s.caches.l2 a = some va → lineAddr s.cfg b ≠ lineAddr s.cfg va) →
      (∀ c, t.stateL1 c b = s.stateL1 c b) ∧ t.stateL2 b = s.stateL2 b) ∧
    (∀ va, victimAddress s.cfg.l2 s.caches.l2 a = some va → lineAddr s.cfg va ≠ lineAddr s.cfg a →
      t.stateL2 va = .notPresent ∧ (∀ c, (t.stateL1 c va).isValid = false) ∧
      t.stateL1 (peer s.issuing) va =
        (if (s.stateL1 (peer s.issuing) va).isValid then .found .I else s.stateL1 (peer s.issuing) va)) ∧
    (∀ va, victimAddress s.cfg.l1 (s.caches.l1.get s.issuing) a = some va → lineAddr s.cfg va ≠ lineAddr s.cfg a →
      t.stateL1 s.issuing va = .notPresent ∧
      ((∀ vb, victimAddress s.cfg.l2 s.caches.l2 a = some vb → lineAddr s.cfg va ≠ lineAddr s.cfg vb) →
        t.stateL2 va =
          (if s.stateL1 s.issuing va = .found .M ∧ s.stateL2 va ≠ .notPresent then .found .M else s.stateL2 va) ∧
        t.stateL1 (peer s.issuing) va = s.stateL1 (peer s.issuing) va)) ∧
    (∀ b, (setAt s.cfg.l1 (t.caches.l1.get (peer s.issuing)) b).lru =
      (setAt s.cfg.l1 (s.caches.l1.get (peer s.issuing)) b).lru) ∧
    (∀ b, (decodeAddr s.cfg.l1 b).index ≠ (decodeAddr s.cfg.l1 a).index →
      (setAt s.cfg.l1 (t.caches.l1.get s.issuing) b).lru = (setAt s.cfg.l1 (s.caches.l1.get s.issuing) b).lru) ∧
    (∀ b, (decodeAddr s.cfg.l2 b).index ≠ (decodeAddr s.cfg.l2 a).index →
      (setAt s.cfg.l2 t.caches.l2 b).lru = (setAt s.cfg.l2 s.caches.l2 b).lru)

/-- R220: an operation does the same for both cores: with the two L1s exchanged, the other core's operation leaves the caches
exchanged. (The events of a back-invalidation keep core 1's first, R116, so they are not claimed.) -/
def Obligations.CoresAreTreatedAlike : Prop :=
  ∀ (cfg : Config) (c : CoreId) (a : Addr) (cs : Caches),
    (loadOp cfg (peer c) a cs.swap).caches = (loadOp cfg c a cs).caches.swap ∧
    (storeOp cfg (peer c) a cs.swap).caches = (storeOp cfg c a cs).caches.swap

/-! ## Sequences -/

/-- R151: a Load right after a Store of the same core to the same line is a hit in `M` that changes no MESI state. -/
def Obligations.ReadYourWrite : Prop :=
  ∀ (s u : State) (a b : Addr), StructOk s → inRange s.cfg a → lineAddr s.cfg a = lineAddr s.cfg b →
    ∃ t, exec (.store a) s = .next t ∧ t.stateL1 s.issuing b = .found .M ∧
      (u.cfg = t.cfg → u.caches = t.caches → u.issuing = s.issuing →
        ∃ v, exec (.load b) u = .next v ∧ Executed u v [.hit s.issuing b 0x4C] false false ∧
          (∀ c x, v.stateL1 c x = u.stateL1 c x) ∧ (∀ x, v.stateL2 x = u.stateL2 x))

/-- R169: a second Store right after a Store of the same core to the same line is a hit and leaves `M`. -/
def Obligations.WriteAfterWrite : Prop :=
  ∀ (s u : State) (a b : Addr), StructOk s → inRange s.cfg a → lineAddr s.cfg a = lineAddr s.cfg b →
    ∃ t, exec (.store a) s = .next t ∧
      (u.cfg = t.cfg → u.caches = t.caches → u.issuing = s.issuing →
        ∃ v, exec (.store b) u = .next v ∧ Executed u v [.hit s.issuing b 0x53] false false ∧
          v.stateL1 s.issuing b = .found .M)

/-- R168, last case: in a coherent state a Store leaves the local line in `M` and the peer with no valid copy. -/
def Obligations.StoreLeavesSoleOwner : Prop :=
  ∀ (s : State) (a : Addr), Inv s → inRange s.cfg a →
    ∃ t, exec (.store a) s = .next t ∧ t.stateL1 s.issuing a = .found .M ∧
      (t.stateL1 (peer s.issuing) a).isValid = false

/-- R119: in a 2-way set, a third tag fills the way the first one filled; in a set after reset, ways 0, 1 and 0. -/
def Obligations.LruVictimOrder : Prop :=
  ∀ (g : Geometry) (K : Cache) (a1 a2 a3 : Addr) (st1 st2 : Mesi), g.ways = 2 → CacheOk g K →
    (∀ a ∈ [a1, a2, a3], (decodeAddr g a).index = (decodeAddr g a1).index ∧ (decodeAddr g a).tag < 2 ^ g.tw ∧
      probe g K a = .notPresent) →
    (decodeAddr g a1).tag ≠ (decodeAddr g a2).tag → (decodeAddr g a1).tag ≠ (decodeAddr g a3).tag →
    (decodeAddr g a2).tag ≠ (decodeAddr g a3).tag →
    ∀ K1 K2, K1 = install g st1 (fillWay g K a1) a1 K → K2 = install g st2 (fillWay g K1 a2) a2 K1 →
      fillWay g K2 a3 = fillWay g K a1 ∧ (selectVictim g K2 a3).tag = some (decodeAddr g a1).tag ∧
        fillWay g K1 a2 ≠ fillWay g K a1 ∧
        (K = [] → fillWay g K a1 = 0 ∧ fillWay g K1 a2 = 1 ∧ fillWay g K2 a3 = 0)

/-- R200: `N` Loads of one core to `N` different untouched lines give exactly `N` MissL1 and `N` MissL2 events, and the
counters grow by `N`; two addresses of one line give a hit the second time. -/
def Obligations.MissesOfUntouchedLines : Prop :=
  (∀ (s : State) (as : List Addr), StructOk s → (∀ a ∈ as, inRange s.cfg a ∧ Untouched s a) →
    as.Pairwise (fun a b => lineAddr s.cfg a ≠ lineAddr s.cfg b) →
    ∃ t, execAll (as.map Instr.load) s = .next t ∧
      (outEvents t.out).countP (Event.isMissL1Of s.issuing) =
        (outEvents s.out).countP (Event.isMissL1Of s.issuing) + as.length ∧
      (outEvents t.out).countP Event.isMissL2 = (outEvents s.out).countP Event.isMissL2 + as.length ∧
      t.counters.missL1.get s.issuing = (s.counters.missL1.get s.issuing + as.length) % 2 ^ s.cfg.cntW ∧
      t.counters.missL2 = (s.counters.missL2 + as.length) % 2 ^ s.cfg.cntW) ∧
  (∀ (s : State) (a b : Addr), StructOk s → inRange s.cfg a → lineAddr s.cfg a = lineAddr s.cfg b →
    ∃ t u, exec (.load a) s = .next t ∧ exec (.load b) t = .next u ∧
      Executed t u [.hit s.issuing b 0x4C] false false)

/-! ## Invariants -/

/-- Tier 3, R21, R24 to R26, R29: every step keeps the structural invariant. -/
def Obligations.StepKeepsStructure : Prop :=
  ∀ s t : State, StructOk s → step s = .next t → StructOk t

/-- Tier 3, R34: every step keeps the coherence invariant. -/
def Obligations.StepKeepsCoherence : Prop :=
  ∀ s t : State, Inv s → step s = .next t → Inv t

/-- Reset meets the invariants, in every allowed configuration; `State.reset` is the reset with the defaults and two empty
streams (the model's choice of a machine with no program loaded, log 12). -/
def Obligations.ResetMeetsInvariants : Prop :=
  (∀ (cfg : Config) (t1 t2 : Option (List Item)), cfg.Wf →
    Inv (resetWith cfg t1 t2) ∧ DefaultFacts cfg (resetWith cfg t1 t2).caches) ∧
  Inv State.reset ∧ State.reset = resetWith Config.default (some []) (some [])

/-- R35: in the default geometry all lines of an L1 set map to one L2 line, and at most one line of an L1 set is valid. -/
def Obligations.OneValidLinePerL1Set : Prop :=
  (∀ (cfg : Config) (a b : Addr), DefaultGeometry cfg → (decodeAddr cfg.l1 a).index = (decodeAddr cfg.l1 b).index →
    (decodeAddr cfg.l2 a).index = (decodeAddr cfg.l2 b).index ∧ cfg.l2.ways = 1) ∧
  ∀ (s : State) (c : CoreId) (a b : Addr), Inv s → DefaultGeometry s.cfg → inRange s.cfg a → inRange s.cfg b →
    (decodeAddr s.cfg.l1 a).index = (decodeAddr s.cfg.l1 b).index →
    (s.stateL1 c a).isValid = true → (s.stateL1 c b).isValid = true → lineAddr s.cfg a = lineAddr s.cfg b

/-- Tier 3, R36: in the default geometry every step keeps the facts of R36. -/
def Obligations.StepKeepsDefaultFacts : Prop :=
  ∀ s t : State, Inv s → DefaultGeometry s.cfg → DefaultFacts s.cfg s.caches → step s = .next t →
    DefaultFacts t.cfg t.caches

/-- R36, consequences: in the default geometry a miss never writes back a local victim, and one that misses the L2 never
writes the L2 victim back from the L2. -/
def Obligations.DefaultGeometryNoVictimWriteback : Prop :=
  ∀ (s : State) (a : Addr), Inv s → DefaultGeometry s.cfg → DefaultFacts s.cfg s.caches → inRange s.cfg a →
    (s.stateL1 s.issuing a).isValid = false →
    l1VictimEvents s.cfg s.issuing s.caches a = [] ∧
      ∀ va, Event.writeback s.issuing va .l2 .mem ∉
        l2VictimEvents s.cfg s.issuing (afterL1Eviction s.cfg s.issuing s.caches a) a

/-! ## What the host reads, and the transcriber -/

/-- R79: a line is read back from its stored bits, which fit `1 + TW + 2` bits; the uppermost bit says whether there is a
tag. (That `tv` is uppermost is the model's reading of R79, log 20.) -/
def Obligations.StoredLineRoundTrip : Prop :=
  ∀ (g : Geometry) (l : Line), (∀ t ∈ l.tag, t < 2 ^ g.tw) →
    Line.ofStored g.tw (Line.stored g.tw l) = l ∧ Line.stored g.tw l < 2 ^ (1 + g.tw + 2) ∧
      ((Line.stored g.tw l).testBit (g.tw + 2) = l.tag.isSome)

/-- R78, R82, R90: the numeric codes; every 2-bit value is one of the four states. -/
def Obligations.CodesAreAsTabled : Prop :=
  (Mesi.I.code = 0b00 ∧ Mesi.S.code = 0b01 ∧ Mesi.E.code = 0b10 ∧ Mesi.M.code = 0b11) ∧
  (∀ b : BitVec 2, ∃ st : Mesi, st.code = b ∧ Mesi.ofCode b = st) ∧
  (Lookup.notPresent.code = 0b100 ∧ ∀ st : Mesi, (Lookup.found st).code = st.code.setWidth 3) ∧
  ((CacheId.l1 .core1).code = 1 ∧ (CacheId.l1 .core2).code = 2 ∧ CacheId.l2.code = 3 ∧ WbDest.l2.code = 3 ∧
    WbDest.mem.code = 4) ∧
  (RunState.running.code = 0 ∧ RunState.done.code = 1 ∧ ∀ info, (RunState.faulted info).code = 2) ∧
  (∀ c n a k i w v, (FaultInfo.malformedRecord c n).code = 1 ∧ (FaultInfo.addressOutOfRange c n a).code = 2 ∧
    (FaultInfo.invalidState k i w v).code = 3 ∧ (FaultInfo.missingTrace c).code = 4) ∧
  (∀ (s : State) (c : CoreId) (n a : Nat), (s.run = .faulted (.malformedRecord c n) → s.readFault = some (1, [c.number, n])) ∧
    (s.run = .faulted (.addressOutOfRange c n a) → s.readFault = some (2, [c.number, n, a])) ∧
    (∀ k i w v, s.run = .faulted (.invalidState k i w v) → s.readFault = some (3, [k.code, i, w, v])) ∧
    (s.run = .faulted (.missingTrace c) → s.readFault = some (4, [c.number])))

/-- R29: the host's read port gives the five counters and the run state by index. -/
def Obligations.ReadPortNamesCounters : Prop :=
  ∀ s : State, s.readPort 0 = some s.counters.cyc.core1 ∧ s.readPort 1 = some s.counters.cyc.core2 ∧
    s.readPort 2 = some s.counters.missL1.core1 ∧ s.readPort 3 = some s.counters.missL1.core2 ∧
    s.readPort 4 = some s.counters.missL2 ∧ s.readPort 5 = some s.run.code

/-- R71: what a trace line becomes, by its fields. (Which characters are white space is the model's choice, log 10.) -/
def Obligations.TranscriberMapsLines : Prop :=
  ∀ (radix : Radix) (line : List Char),
    ((splitFields line).length ≠ 2 → transcribeLine radix line = .malformed) ∧
    (∀ f m, splitFields line = [f, m] → readNumeral radix f = none → transcribeLine radix line = .malformed) ∧
    (∀ f m v, splitFields line = [f, m] → readNumeral radix f = some v →
      (∀ ch, m = [ch] → ch.toNat < 256 → transcribeLine radix line = .record v (BitVec.ofNat 8 ch.toNat)) ∧
      ((∀ ch, m = [ch] → 256 ≤ ch.toNat) → transcribeLine radix line = .record v 0x00))

/-- R71: a numeral, its letters in either case, reads as the value it writes, most significant digit first; an empty field, and
one with a character that is no digit of the radix, is no numeral. (Either case, and no sign or prefix: the model's choice,
log 10.) -/
def Obligations.NumeralHasItsValue : Prop :=
  ∀ radix : Radix,
    (∀ ds : List (Nat × Bool), ds ≠ [] → (∀ d ∈ ds, d.1 < radixBase radix) →
      readNumeral radix (ds.map (fun d => if d.2 then (Nat.digitChar d.1).toUpper else Nat.digitChar d.1)) =
        some (Nat.ofDigits (radixBase radix) (ds.map Prod.fst).reverse)) ∧
    readNumeral radix [] = none ∧
    (∀ (field : List Char) (ch : Char), ch ∈ field →
      (∀ d < radixBase radix, ch ≠ Nat.digitChar d ∧ ch ≠ (Nat.digitChar d).toUpper) → readNumeral radix field = none)

/-- R80, R81, R82: the record of every kind of event: its kind code, its core and address, its mode, source, destination and
target where the kind uses them, and nothing in the fields it does not use. -/
def Obligations.EventRecordsAreAsTabled : Prop :=
  (CoreId.core1.number = 1 ∧ CoreId.core2.number = 2) ∧
  ∀ (c k : CoreId) (a : Addr) (m : ModeCode),
    (Event.hit c a m).record = ⟨0, c.number, a, some m, none, none, none⟩ ∧
    (Event.missL1 c a m).record = ⟨1, c.number, a, some m, none, none, none⟩ ∧
    (Event.missL2 c a m).record = ⟨2, c.number, a, some m, none, none, none⟩ ∧
    (Event.writeback c a (.l1 k) .l2).record = ⟨3, c.number, a, none, some k.number, some 3, none⟩ ∧
    (Event.writeback c a (.l1 k) .mem).record = ⟨3, c.number, a, none, some k.number, some 4, none⟩ ∧
    (Event.writeback c a .l2 .mem).record = ⟨3, c.number, a, none, some 3, some 4, none⟩ ∧
    (Event.invalidate c a k).record = ⟨4, c.number, a, none, none, none, some k.number⟩ ∧
    (Event.invalidAction c a m).record = ⟨5, c.number, a, some m, none, none, none⟩ ∧
    (∀ e : Event, e.kind = e.record.kind)

/-- R101: a touch moves one way to the most recently used end and keeps the order of the others; touching the most recently
used way changes nothing, and a direct-mapped set has the order `[0]`. -/
def Obligations.TouchKeepsOtherOrder : Prop :=
  ∀ (g : Geometry) (set : CacheSet) (w : Nat), SetOk g set → w < g.ways →
    (set.touch w).lru = set.lru.erase w ++ [w] ∧ (set.touch w).ways = set.ways ∧
    (∀ u v, u ≠ w → v ≠ w → ([u, v].Sublist (set.touch w).lru ↔ [u, v].Sublist set.lru)) ∧
    (set.lru.getLast? = some w → set.touch w = set) ∧
    (g.ways = 1 → set.lru = [0])
end

