-- ==== Sys2Proof/Laws/State.lean ====
section
/-! SUPPORT. One lemma per field per update of the state and of an operation's work, true by rfl, so that no proof unfolds a
record update. -/

namespace Sys2Proof.Machine

/-! ## Per-core values -/

@[simp] theorem PerCore.get_core1 {α : Type} (x : PerCore α) : x.get .core1 = x.core1 := rfl
@[simp] theorem PerCore.get_core2 {α : Type} (x : PerCore α) : x.get .core2 = x.core2 := rfl

@[simp] theorem PerCore.get_set_same {α : Type} (x : PerCore α) (c : CoreId) (v : α) : (x.set c v).get c = v := by
  cases c <;> rfl

theorem PerCore.get_set_of_ne {α : Type} (x : PerCore α) {c d : CoreId} (v : α) (h : d ≠ c) :
    (x.set c v).get d = x.get d := by
  cases c <;> cases d <;> first | rfl | exact absurd rfl h

theorem PerCore.get_set {α : Type} (x : PerCore α) (c d : CoreId) (v : α) :
    (x.set c v).get d = if d = c then v else x.get d := by
  cases c <;> cases d <;> rfl

theorem PerCore.ext_get {α : Type} {x y : PerCore α} (h : ∀ c, x.get c = y.get c) : x = y := by
  obtain ⟨a, b⟩ := x
  obtain ⟨a', b'⟩ := y
  have h1 := h .core1
  have h2 := h .core2
  simp only [PerCore.get_core1, PerCore.get_core2] at h1 h2
  rw [h1, h2]

@[simp] theorem peer_ne (c : CoreId) : peer c ≠ c := by cases c <;> decide
@[simp] theorem ne_peer (c : CoreId) : c ≠ peer c := by cases c <;> decide
@[simp] theorem peer_peer (c : CoreId) : peer (peer c) = c := by cases c <;> rfl

theorem eq_or_eq_peer (c d : CoreId) : d = c ∨ d = peer c := by cases c <;> cases d <;> decide

theorem eq_peer_of_ne {c d : CoreId} (h : d ≠ c) : d = peer c := (eq_or_eq_peer c d).resolve_left h

@[simp] theorem PerCore.get_set_peer {α : Type} (x : PerCore α) (c : CoreId) (v : α) :
    (x.set c v).get (peer c) = x.get (peer c) := PerCore.get_set_of_ne x v (peer_ne c)

@[simp] theorem PerCore.get_peer_set {α : Type} (x : PerCore α) (c : CoreId) (v : α) :
    (x.set (peer c) v).get c = x.get c := PerCore.get_set_of_ne x v (ne_peer c)

/-! ## The work of an operation -/

@[simp] theorem Work.emit_caches (k : Work) (e : Event) : (k.emit e).caches = k.caches := rfl
@[simp] theorem Work.emit_events (k : Work) (e : Event) : (k.emit e).events = k.events ++ [e] := rfl
@[simp] theorem Work.emit_l1 (k : Work) (e : Event) (c : CoreId) : (k.emit e).l1 c = k.l1 c := rfl
@[simp] theorem Work.emit_l2 (k : Work) (e : Event) : (k.emit e).l2 = k.l2 := rfl
@[simp] theorem Work.withL1_events (k : Work) (c : CoreId) (K : Cache) : (k.withL1 c K).events = k.events := rfl
@[simp] theorem Work.withL1_l1_same (k : Work) (c : CoreId) (K : Cache) : (k.withL1 c K).l1 c = K :=
  PerCore.get_set_same _ _ _
@[simp] theorem Work.withL1_l1_peer (k : Work) (c : CoreId) (K : Cache) : (k.withL1 c K).l1 (peer c) = k.l1 (peer c) :=
  PerCore.get_set_peer _ _ _
@[simp] theorem Work.withL1_peer_l1 (k : Work) (c : CoreId) (K : Cache) : (k.withL1 (peer c) K).l1 c = k.l1 c :=
  PerCore.get_peer_set _ _ _
theorem Work.withL1_l1 (k : Work) (c d : CoreId) (K : Cache) : (k.withL1 c K).l1 d = if d = c then K else k.l1 d :=
  PerCore.get_set _ _ _ _
@[simp] theorem Work.withL1_l2 (k : Work) (c : CoreId) (K : Cache) : (k.withL1 c K).l2 = k.l2 := rfl
@[simp] theorem Work.withL2_events (k : Work) (K : Cache) : (k.withL2 K).events = k.events := rfl
@[simp] theorem Work.withL2_l1 (k : Work) (K : Cache) (c : CoreId) : (k.withL2 K).l1 c = k.l1 c := rfl
@[simp] theorem Work.withL2_l2 (k : Work) (K : Cache) : (k.withL2 K).l2 = K := rfl
@[simp] theorem Work.mk_l1 (cs : Caches) (evs : List Event) (c : CoreId) : (Work.mk cs evs).l1 c = cs.l1.get c := rfl
@[simp] theorem Work.mk_l2 (cs : Caches) (evs : List Event) : (Work.mk cs evs).l2 = cs.l2 := rfl
theorem Work.caches_l1 (k : Work) (c : CoreId) : k.caches.l1.get c = k.l1 c := rfl
theorem Work.caches_l2 (k : Work) : k.caches.l2 = k.l2 := rfl

/-! ## Updates of the state -/

@[simp] theorem raiseFault_cfg (info : FaultInfo) (s : State) : (raiseFault info s).cfg = s.cfg := rfl
@[simp] theorem raiseFault_streams (info : FaultInfo) (s : State) : (raiseFault info s).streams = s.streams := rfl
@[simp] theorem raiseFault_caches (info : FaultInfo) (s : State) : (raiseFault info s).caches = s.caches := rfl
@[simp] theorem raiseFault_counters (info : FaultInfo) (s : State) : (raiseFault info s).counters = s.counters := rfl
@[simp] theorem raiseFault_cur (info : FaultInfo) (s : State) : (raiseFault info s).cur = s.cur := rfl
@[simp] theorem raiseFault_slot (info : FaultInfo) (s : State) : (raiseFault info s).slot = s.slot := rfl
@[simp] theorem raiseFault_issuing (info : FaultInfo) (s : State) : (raiseFault info s).issuing = s.issuing := rfl
@[simp] theorem raiseFault_run (info : FaultInfo) (s : State) : (raiseFault info s).run = .faulted info := rfl
@[simp] theorem raiseFault_out (info : FaultInfo) (s : State) : (raiseFault info s).out = s.out := rfl

@[simp] theorem endRun_cfg (s : State) : (endRun s).cfg = s.cfg := rfl
@[simp] theorem endRun_streams (s : State) : (endRun s).streams = s.streams := rfl
@[simp] theorem endRun_caches (s : State) : (endRun s).caches = s.caches := rfl
@[simp] theorem endRun_counters (s : State) : (endRun s).counters = s.counters := rfl
@[simp] theorem endRun_cur (s : State) : (endRun s).cur = s.cur := rfl
@[simp] theorem endRun_slot (s : State) : (endRun s).slot = s.slot := rfl
@[simp] theorem endRun_issuing (s : State) : (endRun s).issuing = s.issuing := rfl
@[simp] theorem endRun_run (s : State) : (endRun s).run = .done := rfl
@[simp] theorem endRun_out (s : State) : (endRun s).out = s.out := rfl

@[simp] theorem chooseCore_cfg (c : CoreId) (n : Nat) (s : State) : (chooseCore c n s).cfg = s.cfg := rfl
@[simp] theorem chooseCore_streams (c : CoreId) (n : Nat) (s : State) : (chooseCore c n s).streams = s.streams := rfl
@[simp] theorem chooseCore_caches (c : CoreId) (n : Nat) (s : State) : (chooseCore c n s).caches = s.caches := rfl
@[simp] theorem chooseCore_counters (c : CoreId) (n : Nat) (s : State) : (chooseCore c n s).counters = s.counters := rfl
@[simp] theorem chooseCore_cur (c : CoreId) (n : Nat) (s : State) : (chooseCore c n s).cur = s.cur := rfl
@[simp] theorem chooseCore_slot (c : CoreId) (n : Nat) (s : State) : (chooseCore c n s).slot = n := rfl
@[simp] theorem chooseCore_issuing (c : CoreId) (n : Nat) (s : State) : (chooseCore c n s).issuing = c := rfl
@[simp] theorem chooseCore_run (c : CoreId) (n : Nat) (s : State) : (chooseCore c n s).run = s.run := rfl
@[simp] theorem chooseCore_out (c : CoreId) (n : Nat) (s : State) : (chooseCore c n s).out = s.out := rfl

@[simp] theorem completeRecord_cfg (c : CoreId) (k : Work) (s : State) : (completeRecord c k s).cfg = s.cfg := rfl
@[simp] theorem completeRecord_streams (c : CoreId) (k : Work) (s : State) : (completeRecord c k s).streams = s.streams := rfl
@[simp] theorem completeRecord_caches (c : CoreId) (k : Work) (s : State) : (completeRecord c k s).caches = k.caches := rfl
@[simp] theorem completeRecord_counters (c : CoreId) (k : Work) (s : State) : (completeRecord c k s).counters = countRecord s.cfg c k.events s.counters := rfl
@[simp] theorem completeRecord_cur (c : CoreId) (k : Work) (s : State) : (completeRecord c k s).cur = s.cur.set c (s.cur.get c + 1) := rfl
@[simp] theorem completeRecord_slot (c : CoreId) (k : Work) (s : State) : (completeRecord c k s).slot = s.slot := rfl
@[simp] theorem completeRecord_issuing (c : CoreId) (k : Work) (s : State) : (completeRecord c k s).issuing = s.issuing := rfl
@[simp] theorem completeRecord_run (c : CoreId) (k : Work) (s : State) : (completeRecord c k s).run = s.run := rfl
@[simp] theorem completeRecord_out (c : CoreId) (k : Work) (s : State) : (completeRecord c k s).out = 
      s.out ++ (k.events.map Output.event ++ [.snapshot (countRecord s.cfg c k.events s.counters)]) := rfl

@[simp] theorem placeNext_cfg  (s : State) (item : Item) : (placeNext s item).cfg = s.cfg := rfl
@[simp] theorem placeNext_streams  (s : State) (item : Item) : (placeNext s item).streams = s.streams.set (slotOwner s.cfg s.slot)
      (placeItem (s.stream (slotOwner s.cfg s.slot)) (s.cur.get (slotOwner s.cfg s.slot)) item) := rfl
@[simp] theorem placeNext_caches  (s : State) (item : Item) : (placeNext s item).caches = s.caches := rfl
@[simp] theorem placeNext_counters  (s : State) (item : Item) : (placeNext s item).counters = s.counters := rfl
@[simp] theorem placeNext_cur  (s : State) (item : Item) : (placeNext s item).cur = s.cur := rfl
@[simp] theorem placeNext_slot  (s : State) (item : Item) : (placeNext s item).slot = s.slot := rfl
@[simp] theorem placeNext_issuing  (s : State) (item : Item) : (placeNext s item).issuing = s.issuing := rfl
@[simp] theorem placeNext_run  (s : State) (item : Item) : (placeNext s item).run = .running := rfl
@[simp] theorem placeNext_out  (s : State) (item : Item) : (placeNext s item).out = s.out := rfl

@[simp] theorem State.stream_core1 (s : State) : s.stream .core1 = s.streams.core1 := rfl
@[simp] theorem State.stream_core2 (s : State) : s.stream .core2 = s.streams.core2 := rfl
@[simp] theorem stream_chooseCore (d c : CoreId) (n : Nat) (s : State) : (chooseCore c n s).stream d = s.stream d := rfl
@[simp] theorem stream_raiseFault (d : CoreId) (info : FaultInfo) (s : State) : (raiseFault info s).stream d = s.stream d := rfl
@[simp] theorem stream_completeRecord (d c : CoreId) (k : Work) (s : State) : (completeRecord c k s).stream d = s.stream d := rfl

end Sys2Proof.Machine
end

