-- ==== Sys2Proof/Laws/Address.lean ====
section
/-! SUPPORT. The address codec (spec R51 to R56): its fields as arithmetic, and when two addresses lie in one line. -/

namespace Sys2Proof.Machine

/-- `a` and `b` select the same set and the same tag of a cache: they lie in one line of it (R56). -/
abbrev SameLine (g : Geometry) (a b : Addr) : Prop :=
  (decodeAddr g a).index = (decodeAddr g b).index ∧ (decodeAddr g a).tag = (decodeAddr g b).tag

theorem decodeAddr_index (g : Geometry) (a : Addr) : (decodeAddr g a).index = a / 2 ^ g.ob % 2 ^ g.ib := by
  simp [decodeAddr, Nat.shiftRight_eq_div_pow]

theorem decodeAddr_tag (g : Geometry) (a : Addr) : (decodeAddr g a).tag = a / 2 ^ g.ob / 2 ^ g.ib := by
  simp [decodeAddr, Nat.shiftRight_eq_div_pow, Nat.pow_add, Nat.div_div_eq_div_mul]

theorem decodeAddr_index_lt (g : Geometry) (a : Addr) : (decodeAddr g a).index < 2 ^ g.ib :=
  Nat.mod_lt _ (Nat.two_pow_pos _)

/-- The tag of an address in range fits its width (R7, R51). -/
theorem decodeAddr_tag_lt {g : Geometry} {n : Nat} {a : Addr} (ha : a < 2 ^ n) (hg : n = g.ob + g.ib + g.tw) :
    (decodeAddr g a).tag < 2 ^ g.tw := by
  rw [decodeAddr_tag, Nat.div_div_eq_div_mul, ← Nat.pow_add]
  refine Nat.div_lt_of_lt_mul ?_
  rwa [← Nat.pow_add, ← hg]

theorem encodeAddr_eq {g : Geometry} {i o : Nat} (t : Nat) (hi : i < 2 ^ g.ib) (ho : o < 2 ^ g.ob) :
    encodeAddr g i t o = t * 2 ^ (g.ob + g.ib) + i * 2 ^ g.ob + o := by
  have hio : i * 2 ^ g.ob + o < 2 ^ (g.ob + g.ib) := by
    calc i * 2 ^ g.ob + o < i * 2 ^ g.ob + 2 ^ g.ob := by omega
      _ = (i + 1) * 2 ^ g.ob := by ring
      _ ≤ 2 ^ g.ib * 2 ^ g.ob := Nat.mul_le_mul_right _ hi
      _ = 2 ^ (g.ob + g.ib) := by rw [Nat.pow_add, Nat.mul_comm]
  have hlow : (i <<< g.ob) ||| o = i * 2 ^ g.ob + o := by
    rw [← Nat.shiftLeft_add_eq_or_of_lt ho, Nat.shiftLeft_eq]
  rw [encodeAddr, Nat.or_assoc, hlow, ← Nat.shiftLeft_add_eq_or_of_lt hio, Nat.shiftLeft_eq, Nat.add_assoc]

/-- `decode` undoes `encode` (one half of R54). -/
theorem decodeAddr_encodeAddr {g : Geometry} {i o : Nat} (t : Nat) (hi : i < 2 ^ g.ib) (ho : o < 2 ^ g.ob) :
    decodeAddr g (encodeAddr g i t o) = ⟨i, t, o⟩ := by
  have hq : (t * 2 ^ (g.ob + g.ib) + i * 2 ^ g.ob + o) / 2 ^ g.ob = t * 2 ^ g.ib + i := by
    have : t * 2 ^ (g.ob + g.ib) + i * 2 ^ g.ob + o = o + 2 ^ g.ob * (t * 2 ^ g.ib + i) := by rw [Nat.pow_add]; ring
    rw [this, Nat.add_mul_div_left _ _ (Nat.two_pow_pos _), Nat.div_eq_of_lt ho, Nat.zero_add]
  have hidx : (decodeAddr g (encodeAddr g i t o)).index = i := by
    rw [decodeAddr_index, encodeAddr_eq t hi ho, hq, Nat.mul_add_mod_self_right, Nat.mod_eq_of_lt hi]
  have htag : (decodeAddr g (encodeAddr g i t o)).tag = t := by
    rw [decodeAddr_tag, encodeAddr_eq t hi ho, hq, Nat.add_comm, Nat.add_mul_div_right _ _ (Nat.two_pow_pos _),
      Nat.div_eq_of_lt hi, Nat.zero_add]
  have hoff : (decodeAddr g (encodeAddr g i t o)).offset = o := by
    have : t * 2 ^ (g.ob + g.ib) + i * 2 ^ g.ob + o = o + 2 ^ g.ob * (t * 2 ^ g.ib + i) := by rw [Nat.pow_add]; ring
    show encodeAddr g i t o % 2 ^ g.ob = o
    rw [encodeAddr_eq t hi ho, this, Nat.add_mul_mod_self_left, Nat.mod_eq_of_lt ho]
  cases h : decodeAddr g (encodeAddr g i t o)
  simp_all

/-- Two addresses lie in one line exactly when they agree above the offset. -/
theorem sameLine_iff_div (g : Geometry) (a b : Addr) : SameLine g a b ↔ a / 2 ^ g.ob = b / 2 ^ g.ob := by
  unfold SameLine
  rw [decodeAddr_index, decodeAddr_index, decodeAddr_tag, decodeAddr_tag]
  constructor
  · rintro ⟨hm, hd⟩
    rw [← Nat.div_add_mod (a / 2 ^ g.ob) (2 ^ g.ib), hm, hd, Nat.div_add_mod]
  · intro h
    rw [h]
    exact ⟨rfl, rfl⟩

theorem SameLine.symm {g : Geometry} {a b : Addr} (h : SameLine g a b) : SameLine g b a := ⟨h.1.symm, h.2.symm⟩

theorem SameLine.trans {g : Geometry} {a b c : Addr} (h : SameLine g a b) (h' : SameLine g b c) : SameLine g a c :=
  ⟨h.1.trans h'.1, h.2.trans h'.2⟩

theorem lineAddr_eq (cfg : Config) (a : Addr) : lineAddr cfg a = a / 2 ^ cfg.l1Ob * 2 ^ cfg.l1Ob := by
  rw [Nat.mul_comm]
  exact Nat.sub_eq_of_eq_add (Nat.div_add_mod a (2 ^ cfg.l1Ob)).symm

theorem lineAddr_eq_iff_div (cfg : Config) (a b : Addr) :
    lineAddr cfg a = lineAddr cfg b ↔ a / 2 ^ cfg.l1Ob = b / 2 ^ cfg.l1Ob := by
  rw [lineAddr_eq, lineAddr_eq]
  exact ⟨fun h => Nat.eq_of_mul_eq_mul_right (Nat.two_pow_pos _) h, fun h => by rw [h]⟩

/-- One L1 line is one line address (R56). -/
theorem sameLine_l1_iff (cfg : Config) (a b : Addr) : SameLine cfg.l1 a b ↔ lineAddr cfg a = lineAddr cfg b := by
  rw [sameLine_iff_div, lineAddr_eq_iff_div]
  rfl

/-- One L2 line is one line address, where the offsets are equal (R8, R56). -/
theorem sameLine_l2_iff {cfg : Config} (h : cfg.l1Ob = cfg.l2Ob) (a b : Addr) :
    SameLine cfg.l2 a b ↔ lineAddr cfg a = lineAddr cfg b := by
  rw [sameLine_iff_div, lineAddr_eq_iff_div, h]
  rfl

/-- The L1 and the L2 agree on what one line is (R56). -/
theorem sameLine_l1_iff_l2 {cfg : Config} (h : cfg.l1Ob = cfg.l2Ob) (a b : Addr) :
    SameLine cfg.l1 a b ↔ SameLine cfg.l2 a b := (sameLine_l1_iff cfg a b).trans (sameLine_l2_iff h a b).symm

/-- An address and its line address lie in one line. -/
theorem sameLine_lineAddr (cfg : Config) (a : Addr) : SameLine cfg.l1 (lineAddr cfg a) a := by
  rw [sameLine_l1_iff, lineAddr_eq_iff_div, lineAddr_eq, Nat.mul_div_cancel _ (Nat.two_pow_pos _)]

/-- The line address of a set and a tag decodes to them. -/
theorem decodeAddr_lineOf {g : Geometry} {i : Nat} (t : Nat) (hi : i < 2 ^ g.ib) :
    (decodeAddr g (encodeAddr g i t 0)).index = i ∧ (decodeAddr g (encodeAddr g i t 0)).tag = t := by
  rw [decodeAddr_encodeAddr t hi (Nat.two_pow_pos _)]
  exact ⟨rfl, rfl⟩

theorem encodeAddr_lt {g : Geometry} {i t o : Nat} (hi : i < 2 ^ g.ib) (ht : t < 2 ^ g.tw) (ho : o < 2 ^ g.ob) :
    encodeAddr g i t o < 2 ^ (g.ob + g.ib + g.tw) := by
  rw [encodeAddr_eq t hi ho]
  have hio : i * 2 ^ g.ob + o < 2 ^ (g.ob + g.ib) := by
    calc i * 2 ^ g.ob + o < i * 2 ^ g.ob + 2 ^ g.ob := by omega
      _ = (i + 1) * 2 ^ g.ob := by ring
      _ ≤ 2 ^ g.ib * 2 ^ g.ob := Nat.mul_le_mul_right _ hi
      _ = 2 ^ (g.ob + g.ib) := by rw [Nat.pow_add, Nat.mul_comm]
  calc t * 2 ^ (g.ob + g.ib) + i * 2 ^ g.ob + o < t * 2 ^ (g.ob + g.ib) + 2 ^ (g.ob + g.ib) := by omega
    _ = (t + 1) * 2 ^ (g.ob + g.ib) := by ring
    _ ≤ 2 ^ g.tw * 2 ^ (g.ob + g.ib) := Nat.mul_le_mul_right _ ht
    _ = 2 ^ (g.ob + g.ib + g.tw) := by rw [Nat.pow_add 2 (g.ob + g.ib), Nat.mul_comm]

/-- The three widths of an L1 address add up to `ADDR_W` (R7, R8). -/
theorem config_l1_widths {cfg : Config} (h : cfg.Wf) : cfg.addrW = cfg.l1.ob + cfg.l1.ib + cfg.l1.tw := by
  obtain ⟨-, h1, -⟩ := h
  show cfg.addrW = cfg.l1Ob + cfg.l1Ib + (cfg.addrW - cfg.l1Ob - cfg.l1Ib)
  omega

/-- The three widths of an L2 address add up to `ADDR_W` (R7, R8). -/
theorem config_l2_widths {cfg : Config} (h : cfg.Wf) : cfg.addrW = cfg.l2.ob + cfg.l2.ib + cfg.l2.tw := by
  obtain ⟨-, -, h2, -⟩ := h
  show cfg.addrW = cfg.l2Ob + cfg.l2Ib + (cfg.addrW - cfg.l2Ob - cfg.l2Ib)
  omega

end Sys2Proof.Machine
end

