-- ==== Sys2Proof/Laws/Sets.lean ====
section
/-! SUPPORT. Cache arrays keep their canonical form, and what the operations on one set do (spec R24 to R26, R101, R105). -/

namespace Sys2Proof.Machine

/-! ## Cache arrays -/

theorem findSet_putSet_ne (d : CacheSet) (v : CacheSet) {i j : Nat} (h : j ≠ i) :
    ∀ K : Cache, findSet d (putSet d K i v) j = findSet d K j
  | [] => by
    unfold putSet
    split <;> simp [findSet, Ne.symm h]
  | (k, u) :: rest => by
    have ih := findSet_putSet_ne d v h rest
    unfold putSet
    split
    · simp [findSet, ih]
    · split
      · subst_vars
        split <;> simp [findSet, Ne.symm h]
      · split <;> simp [findSet, Ne.symm h]

theorem findSet_of_lt_all (d : CacheSet) {i : Nat} : ∀ K : Cache, (∀ e ∈ K, i < e.1) → findSet d K i = d
  | [], _ => rfl
  | (k, u) :: rest, h => by
    have hk : k ≠ i := by have := h (k, u) (by simp); simp at this; omega
    simp only [findSet, hk, if_false]
    exact findSet_of_lt_all d rest (fun e he => h e (by simp [he]))

theorem Canonical.tail {d : CacheSet} {e : Nat × CacheSet} {K : Cache} (h : Canonical d (e :: K)) : Canonical d K :=
  ⟨(List.pairwise_cons.1 h.1).2, fun x hx => h.2 x (List.mem_cons_of_mem _ hx)⟩

theorem Canonical.head_lt {d : CacheSet} {e : Nat × CacheSet} {K : Cache} (h : Canonical d (e :: K)) :
    ∀ x ∈ K, e.1 < x.1 := fun x hx => (List.pairwise_cons.1 h.1).1 x.1 (List.mem_map_of_mem hx)

theorem findSet_putSet_same (d : CacheSet) (i : Nat) (v : CacheSet) :
    ∀ K : Cache, Canonical d K → findSet d (putSet d K i v) i = v
  | [], _ => by
    unfold putSet
    split
    · simp_all [findSet]
    · simp [findSet]
  | (k, u) :: rest, h => by
    have ih := findSet_putSet_same d i v rest h.tail
    have hlt := h.head_lt
    simp only at hlt
    unfold putSet
    split
    · have : k ≠ i := by omega
      simp [findSet, this, ih]
    · split
      · subst_vars
        split
        · subst_vars
          exact findSet_of_lt_all _ rest hlt
        · simp [findSet]
      · split
        · subst_vars
          refine findSet_of_lt_all _ _ (fun e he => ?_)
          rcases List.mem_cons.1 he with rfl | he
          · simp only; omega
          · have := hlt e he; omega
        · simp [findSet]

/-- An entry of a written array is an old entry or the one written. -/
theorem mem_putSet {d : CacheSet} {i : Nat} {v : CacheSet} {e : Nat × CacheSet} :
    ∀ {K : Cache}, e ∈ putSet d K i v → e ∈ K ∨ (e = (i, v) ∧ v ≠ d)
  | [], h => by
    unfold putSet at h
    split at h <;> simp_all
  | (k, u) :: rest, h => by
    unfold putSet at h
    split at h
    · rcases List.mem_cons.1 h with rfl | h
      · simp
      · rcases mem_putSet h with h | h
        · simp [h]
        · exact .inr h
    · split at h
      · split at h
        · simp [h]
        · rcases List.mem_cons.1 h with rfl | h
          · simp_all
          · simp [h]
      · split at h
        · exact .inl h
        · rcases List.mem_cons.1 h with rfl | h
          · simp_all
          · exact .inl h

/-- Writing a set keeps the canonical form. -/
theorem canonical_putSet {d : CacheSet} (i : Nat) (v : CacheSet) :
    ∀ {K : Cache}, Canonical d K → Canonical d (putSet d K i v)
  | [], _ => by
    unfold putSet
    split
    · exact ⟨List.Pairwise.nil, by simp⟩
    · rename_i hv
      exact ⟨by simp, by simpa using hv⟩
  | (k, u) :: rest, h => by
    have ih := canonical_putSet i v h.tail
    have hlt := h.head_lt
    have hu : u ≠ d := h.2 (k, u) (by simp)
    simp only at hlt
    have key : ∀ {e : Nat × CacheSet} {K' : Cache}, Canonical d K' → e.2 ≠ d → (∀ x ∈ K', e.1 < x.1) →
        Canonical d (e :: K') := by
      intro e K' hc he hx
      refine ⟨?_, ?_⟩
      · rw [List.map_cons, List.pairwise_cons]
        refine ⟨fun n hn => ?_, hc.1⟩
        obtain ⟨x, hx', rfl⟩ := List.mem_map.1 hn
        exact hx x hx'
      · intro x hx'
        rcases List.mem_cons.1 hx' with rfl | hx'
        · exact he
        · exact hc.2 x hx'
    unfold putSet
    split
    · rename_i hki
      refine key ih hu (fun x hx => ?_)
      rcases mem_putSet hx with hx | ⟨rfl, -⟩
      · exact hlt x hx
      · exact hki
    · split
      · subst_vars
        split
        · exact h.tail
        · rename_i hv
          exact key h.tail hv hlt
      · split
        · exact h
        · rename_i hki hne hv
          refine key h hv (fun x hx => ?_)
          rcases List.mem_cons.1 hx with rfl | hx
          · simp only; omega
          · have := hlt x hx
            simp only; omega

/-! ## One set -/

theorem filterMap_replicate_none {n : Nat} : (List.replicate n emptyLine).filterMap Line.tag = [] := by
  induction n with
  | zero => rfl
  | succ n ih => simp [List.replicate_succ, emptyLine] at ih ⊢

theorem setOk_resetSet (g : Geometry) : SetOk g (resetSet g) := by
  refine ⟨by simp [resetSet], List.Perm.refl _, ?_, ?_⟩
  · intro l hl
    obtain ⟨-, rfl⟩ := List.mem_replicate.1 hl
    exact ⟨fun _ => rfl, by simp [emptyLine]⟩
  · show ((List.replicate g.ways emptyLine).filterMap Line.tag).Nodup
    rw [filterMap_replicate_none]
    exact List.nodup_nil

@[simp] theorem touch_ways (set : CacheSet) (w : Nat) : (set.touch w).ways = set.ways := rfl
@[simp] theorem touch_line (set : CacheSet) (w v : Nat) : (set.touch w).line v = set.line v := rfl
@[simp] theorem touch_matchWay (set : CacheSet) (w t : Nat) : (set.touch w).matchWay t = set.matchWay t := rfl
@[simp] theorem touch_withLine (set : CacheSet) (w v : Nat) (l : Line) :
    (set.touch w).withLine v l = (set.withLine v l).touch w := rfl
@[simp] theorem withLine_lru (set : CacheSet) (w : Nat) (l : Line) : (set.withLine w l).lru = set.lru := rfl
@[simp] theorem withState_lru (set : CacheSet) (w : Nat) (st : Mesi) : (set.withState w st).lru = set.lru := rfl
@[simp] theorem withLine_oldest (set : CacheSet) (w : Nat) (l : Line) : (set.withLine w l).oldest = set.oldest := rfl
@[simp] theorem withState_oldest (set : CacheSet) (w : Nat) (st : Mesi) : (set.withState w st).oldest = set.oldest := rfl

theorem line_eq_getElem {set : CacheSet} {w : Nat} (h : w < set.ways.length) : set.line w = set.ways[w] := by
  simp [CacheSet.line, List.getD_eq_getElem?_getD, h]

theorem line_withLine (set : CacheSet) (w v : Nat) (l : Line) :
    (set.withLine w l).line v = if v = w ∧ w < set.ways.length then l else set.line v := by
  simp only [CacheSet.line, CacheSet.withLine, List.getD_eq_getElem?_getD, List.getElem?_set]
  by_cases h : w = v
  · subst h
    by_cases hw : w < set.ways.length
    · simp [hw]
    · simp [hw]
  · simp [h, Ne.symm h]

theorem matchWay_lt {set : CacheSet} {t w : Nat} (h : set.matchWay t = some w) : w < set.ways.length := by
  obtain ⟨hw, -⟩ := List.findIdx?_eq_some_iff_getElem.1 h
  exact hw

theorem matchWay_tag {set : CacheSet} {t w : Nat} (h : set.matchWay t = some w) : (set.line w).tag = some t := by
  obtain ⟨hw, ht, -⟩ := List.findIdx?_eq_some_iff_getElem.1 h
  rw [line_eq_getElem hw]
  simpa using ht

/-- Tags are unique in a set (R26), so a tag names its way. -/
theorem way_unique {g : Geometry} {set : CacheSet} (h : SetOk g set) {t v w : Nat} (hv : v < set.ways.length)
    (hw : w < set.ways.length) (tv : (set.line v).tag = some t) (tw : (set.line w).tag = some t) : v = w := by
  obtain ⟨-, -, -, hn⟩ := h
  rw [line_eq_getElem hv] at tv
  rw [line_eq_getElem hw] at tw
  have hp : set.ways.Pairwise (fun l l' => ∀ b, l.tag = some b → ∀ b', l'.tag = some b' → b ≠ b') :=
    List.pairwise_filterMap.1 hn
  rw [List.pairwise_iff_getElem] at hp
  rcases Nat.lt_trichotomy v w with hlt | heq | hgt
  · exact absurd rfl (hp v w hv hw hlt t tv t tw)
  · exact heq
  · exact absurd rfl (hp w v hw hv hgt t tw t tv)

theorem matchWay_eq_some_iff {g : Geometry} {set : CacheSet} (h : SetOk g set) (t w : Nat) :
    set.matchWay t = some w ↔ w < g.ways ∧ (set.line w).tag = some t := by
  rw [← h.1]
  constructor
  · exact fun hm => ⟨matchWay_lt hm, matchWay_tag hm⟩
  · rintro ⟨hw, ht⟩
    cases hm : set.matchWay t with
    | none =>
      have := List.findIdx?_eq_none_iff.1 hm set.ways[w] (List.getElem_mem hw)
      rw [line_eq_getElem hw] at ht
      simp [ht] at this
    | some v => rw [way_unique h (matchWay_lt hm) hw (matchWay_tag hm) ht]

theorem matchWay_eq_none_iff {g : Geometry} {set : CacheSet} (h : SetOk g set) (t : Nat) :
    set.matchWay t = none ↔ ∀ w < g.ways, (set.line w).tag ≠ some t := by
  constructor
  · intro hm w hw ht
    rw [(matchWay_eq_some_iff h t w).2 ⟨hw, ht⟩] at hm
    exact absurd hm (by simp)
  · intro hall
    cases hm : set.matchWay t with
    | none => rfl
    | some v =>
      obtain ⟨hv, ht⟩ := (matchWay_eq_some_iff h t v).1 hm
      exact absurd ht (hall v hv)

theorem line_ok {g : Geometry} {set : CacheSet} (h : SetOk g set) {w : Nat} (hw : w < g.ways) : LineOk g (set.line w) := by
  have hw' : w < set.ways.length := h.1 ▸ hw
  rw [line_eq_getElem hw']
  exact h.2.2.1 _ (List.getElem_mem hw')

theorem mem_lru_iff {g : Geometry} {set : CacheSet} (h : SetOk g set) (w : Nat) : w ∈ set.lru ↔ w < g.ways := by
  rw [h.2.1.mem_iff, List.mem_range]

theorem oldest_lt {g : Geometry} {set : CacheSet} (h : SetOk g set) (hg : 1 ≤ g.ways) : set.oldest < g.ways := by
  have hne : set.lru ≠ [] := by
    intro he
    have := h.2.1.length_eq
    rw [he, List.length_range] at this
    simp at this
    omega
  obtain ⟨x, xs, hx⟩ := List.exists_cons_of_ne_nil hne
  rw [CacheSet.oldest, hx]
  exact (mem_lru_iff h x).1 (by rw [hx]; simp)

theorem setFillWay_lt {g : Geometry} {set : CacheSet} (h : SetOk g set) (hg : 1 ≤ g.ways) (t : Nat) :
    set.fillWay t < g.ways := by
  unfold CacheSet.fillWay
  split
  · rename_i w hm
    exact ((matchWay_eq_some_iff h t w).1 hm).1
  · exact oldest_lt h hg

/-- A touch keeps the set in order (R101). -/
theorem setOk_touch {g : Geometry} {set : CacheSet} (h : SetOk g set) {w : Nat} (hw : w < g.ways) :
    SetOk g (set.touch w) := by
  refine ⟨h.1, ?_, h.2.2⟩
  have hnd : set.lru.Nodup := h.2.1.nodup_iff.2 List.nodup_range
  have hmem : w ∈ set.lru := (mem_lru_iff h w).2 hw
  have hf : set.lru.filter (fun x => x != w) = set.lru.erase w := (hnd.erase_eq_filter w).symm
  show (set.lru.filter (fun x => x != w) ++ [w]).Perm _
  rw [hf]
  exact (List.perm_append_singleton w _).trans ((List.perm_cons_erase hmem).symm.trans h.2.1)

/-- The most recently used way after a touch (R101). -/
theorem touch_last (set : CacheSet) (w : Nat) : (set.touch w).lru.getLast? = some w := by simp [CacheSet.touch]

/-- A second touch of one way changes nothing (R101). -/
@[simp] theorem touch_touch (set : CacheSet) (w : Nat) : (set.touch w).touch w = set.touch w := by
  simp [CacheSet.touch, List.filter_append, List.filter_filter]

/-- The order after a touch depends on the order before alone. -/
theorem touch_lru_congr {set set' : CacheSet} (h : set.lru = set'.lru) (w : Nat) : (set.touch w).lru = (set'.touch w).lru := by
  simp [CacheSet.touch, h]

/-- Writing line `w` keeps the set in order if the new line is, and no other line holds its tag. -/
theorem setOk_withLine {g : Geometry} {set : CacheSet} (h : SetOk g set) {w : Nat} {l : Line} (hl : LineOk g l)
    (hu : ∀ t, l.tag = some t → ∀ v < g.ways, v ≠ w → (set.line v).tag ≠ some t) : SetOk g (set.withLine w l) := by
  refine ⟨by simpa [CacheSet.withLine] using h.1, h.2.1, ?_, ?_⟩
  · intro x hx
    rcases List.mem_or_eq_of_mem_set hx with hx | rfl
    · exact h.2.2.1 x hx
    · exact hl
  · refine List.pairwise_filterMap.2 ?_
    rw [List.pairwise_iff_getElem]
    intro i j hi hj hij b hb b' hb' heq
    subst heq
    have hi' : i < set.ways.length := by simpa [CacheSet.withLine] using hi
    have hj' : j < set.ways.length := by simpa [CacheSet.withLine] using hj
    have ei := line_withLine set w i l
    have ej := line_withLine set w j l
    rw [line_eq_getElem hi] at ei
    rw [line_eq_getElem hj] at ej
    rw [ei] at hb
    rw [ej] at hb'
    by_cases h1 : i = w ∧ w < set.ways.length
    · rw [if_pos h1] at hb
      have h2 : ¬(j = w ∧ w < set.ways.length) := by omega
      rw [if_neg h2] at hb'
      exact hu b hb j (h.1 ▸ hj') (by omega) hb'
    · rw [if_neg h1] at hb
      by_cases h2 : j = w ∧ w < set.ways.length
      · rw [if_pos h2] at hb'
        exact hu b hb' i (h.1 ▸ hi') (by omega) hb
      · rw [if_neg h2] at hb'
        exact absurd (way_unique h hi' hj' hb hb') (by omega)

/-- Changing a tagged line's state keeps the set in order. -/
theorem setOk_withState {g : Geometry} {set : CacheSet} (h : SetOk g set) {w : Nat} {st : Mesi}
    (hst : (set.line w).tag ≠ none ∨ st = .I) : SetOk g (set.withState w st) := by
  by_cases hw : w < g.ways
  · refine setOk_withLine h ⟨?_, (line_ok h hw).2⟩ ?_
    · intro hn
      exact hst.resolve_left (fun hne => hne hn)
    · intro t ht v hv hne hvt
      exact hne (way_unique h (h.1 ▸ hv) (h.1 ▸ hw) hvt ht)
  · have : set.withState w st = set := by
      have hlen : set.ways.length ≤ w := by rw [h.1]; omega
      simp [CacheSet.withState, CacheSet.withLine, List.set_eq_of_length_le hlen]
    rwa [this]

theorem line_withState_tag (set : CacheSet) (w v : Nat) (st : Mesi) :
    ((set.withState w st).line v).tag = (set.line v).tag := by
  rw [CacheSet.withState, line_withLine]
  split
  · rename_i h
    rw [h.1]
  · rfl

/-- A change of state moves no tag (R104). -/
theorem matchWay_withState {g : Geometry} {set : CacheSet} (h : SetOk g set) {w : Nat} {st : Mesi}
    (hst : (set.line w).tag ≠ none ∨ st = .I) (t : Nat) : (set.withState w st).matchWay t = set.matchWay t := by
  have h' := setOk_withState h hst
  cases hm : set.matchWay t with
  | none =>
    rw [matchWay_eq_none_iff h'] 
    intro v hv
    rw [line_withState_tag]
    exact (matchWay_eq_none_iff h t).1 hm v hv
  | some v =>
    rw [matchWay_eq_some_iff h', line_withState_tag]
    exact (matchWay_eq_some_iff h t v).1 hm

/-- Two sets in order in which every tag stands in the same way have the same tag in each way. -/
theorem tags_of_match {g : Geometry} {set set' : CacheSet} (h : SetOk g set) (h' : SetOk g set')
    (hm : ∀ t, set'.matchWay t = set.matchWay t) (w : Nat) : (set'.line w).tag = (set.line w).tag := by
  by_cases hw : w < g.ways
  · refine Option.ext (fun t => ?_)
    have h1 := matchWay_eq_some_iff h t w
    have h2 := matchWay_eq_some_iff h' t w
    rw [hm t] at h2
    exact ⟨fun ht => (h1.1 (h2.2 ⟨hw, ht⟩)).2, fun ht => (h2.1 (h1.2 ⟨hw, ht⟩)).2⟩
  · have hl : set.ways.length ≤ w := by rw [h.1]; omega
    have hl' : set'.ways.length ≤ w := by rw [h'.1]; omega
    simp [CacheSet.line, List.getD_eq_getElem?_getD, hl, hl']

/-- Installing into the fill way of the tag keeps the set in order (R26, R105, R106). -/
theorem setOk_install {g : Geometry} {set : CacheSet} (h : SetOk g set) {t : Nat} (ht : t < 2 ^ g.tw) (st : Mesi) :
    SetOk g (set.withLine (set.fillWay t) ⟨some t, st⟩) := by
  refine setOk_withLine h ⟨by simp, by simpa using ht⟩ ?_
  intro t' ht' v hv hne hvt
  obtain rfl : t = t' := by simpa using ht'
  have hm := (matchWay_eq_some_iff h t v).2 ⟨hv, hvt⟩
  simp [CacheSet.fillWay, hm] at hne

/-- Where each tag stands after an install into the fill way. -/
theorem matchWay_install {g : Geometry} {set : CacheSet} (h : SetOk g set) (hg : 1 ≤ g.ways) {t : Nat} (ht : t < 2 ^ g.tw)
    (st : Mesi) (t' : Nat) :
    (set.withLine (set.fillWay t) ⟨some t, st⟩).matchWay t' =
      if t' = t then some (set.fillWay t)
      else if (set.line (set.fillWay t)).tag = some t' then none
      else set.matchWay t' := by
  have h' := setOk_install h ht st
  have hw := setFillWay_lt h hg t
  have hwl : set.fillWay t < set.ways.length := h.1 ▸ hw
  split
  · rename_i he
    subst he
    rw [matchWay_eq_some_iff h', line_withLine]
    simp [hw, hwl]
  · rename_i hne
    split
    · rename_i hv
      rw [matchWay_eq_none_iff h']
      intro v hvw hvt
      rw [line_withLine] at hvt
      split at hvt
      · exact hne (by simpa using hvt.symm)
      · rename_i hvne
        exact hvne ⟨way_unique h (h.1 ▸ hvw) hwl hvt hv, hwl⟩
    · rename_i hv
      cases hm : set.matchWay t' with
      | none =>
        rw [matchWay_eq_none_iff h']
        intro v hvw
        rw [line_withLine]
        split
        · simpa using Ne.symm hne
        · exact (matchWay_eq_none_iff h t').1 hm v hvw
      | some v =>
        obtain ⟨hvw, hvt⟩ := (matchWay_eq_some_iff h t' v).1 hm
        rw [matchWay_eq_some_iff h', line_withLine]
        have : ¬(v = set.fillWay t ∧ set.fillWay t < set.ways.length) := by
          rintro ⟨rfl, -⟩
          exact hv hvt
        rw [if_neg this]
        exact ⟨hvw, hvt⟩

end Sys2Proof.Machine
end

