-- ==== Sys2Proof/Laws/Cache.lean ====
section
/-! SUPPORT. One spec lemma per cache primitive (spec R100 to R108): what it does to the state every address reads by probe,
and that it keeps the array in order. Later proofs cite these and never unfold a primitive. -/

namespace Sys2Proof.Machine

theorem setAt_ok {g : Geometry} {K : Cache} (h : CacheOk g K) (a : Addr) : SetOk g (setAt g K a) := by
  have key : ∀ (i : Nat) (K : Cache), (∀ e ∈ K, SetOk g e.2) → SetOk g (findSet (resetSet g) K i) := by
    intro i K
    induction K with
    | nil => exact fun _ => setOk_resetSet g
    | cons e rest ih =>
      intro hall
      obtain ⟨k, u⟩ := e
      unfold findSet
      split
      · exact hall (k, u) (by simp)
      · exact ih (fun x hx => hall x (by simp [hx]))
  exact key _ K (fun e he => (h.2 e he).2)

/-- A primitive writes one set of its cache and no other (R100). -/
theorem setAt_putAt {g : Geometry} {K : Cache} (h : CacheOk g K) (a b : Addr) (v : CacheSet) :
    setAt g (putAt g K a v) b = if (decodeAddr g b).index = (decodeAddr g a).index then v else setAt g K b := by
  unfold setAt putAt
  split
  · rename_i he
    rw [he, findSet_putSet_same _ _ _ _ h.1]
  · rename_i hne
    exact findSet_putSet_ne _ _ hne _

theorem cacheOk_putAt {g : Geometry} {K : Cache} (h : CacheOk g K) (a : Addr) {v : CacheSet} (hv : SetOk g v) :
    CacheOk g (putAt g K a v) := by
  refine ⟨canonical_putSet _ _ h.1, fun e he => ?_⟩
  rcases mem_putSet he with he | ⟨rfl, -⟩
  · exact h.2 e he
  · exact ⟨decodeAddr_index_lt g a, hv⟩

theorem cacheOk_reset (g : Geometry) : CacheOk g [] := by
  refine ⟨⟨List.Pairwise.nil, by simp⟩, by simp⟩

theorem setAt_congr {g : Geometry} (K : Cache) {a b : Addr} (h : (decodeAddr g a).index = (decodeAddr g b).index) :
    setAt g K a = setAt g K b := by
  unfold setAt
  rw [h]

/-- A probe reads one line: the offset does not matter (R58). -/
theorem probe_congr {g : Geometry} (K : Cache) {a b : Addr} (h : SameLine g a b) : probe g K a = probe g K b := by
  unfold probe
  rw [setAt_congr K h.1, h.2]

/-- Nothing is present in an array with nothing listed. -/
theorem probe_reset (g : Geometry) (a : Addr) : probe g [] a = .notPresent := by
  have h : (resetSet g).matchWay (decodeAddr g a).tag = none := by
    rw [matchWay_eq_none_iff (setOk_resetSet g)]
    intro w hw
    have : (resetSet g).line w = emptyLine := by
      rw [line_eq_getElem (by simpa [resetSet] using hw)]
      simp [resetSet]
    simp [this, emptyLine]
  simp [probe, setAt, findSet, h]

theorem probe_of_match {g : Geometry} {K : Cache} {a : Addr} {w : Nat}
    (h : (setAt g K a).matchWay (decodeAddr g a).tag = some w) : probe g K a = .found ((setAt g K a).line w).st := by
  simp [probe, h]

theorem probe_of_no_match {g : Geometry} {K : Cache} {a : Addr}
    (h : (setAt g K a).matchWay (decodeAddr g a).tag = none) : probe g K a = .notPresent := by
  simp [probe, h]

theorem probe_eq_notPresent_iff {g : Geometry} {K : Cache} {a : Addr} :
    probe g K a = .notPresent ↔ (setAt g K a).matchWay (decodeAddr g a).tag = none := by
  cases h : (setAt g K a).matchWay (decodeAddr g a).tag <;> simp [probe, h]

/-! ## lookup (R102, R103) -/

/-- A lookup answers what a probe answers (R103). -/
theorem lookup_result (g : Geometry) (K : Cache) (a : Addr) : (lookup g K a).1 = probe g K a := by
  unfold lookup probe
  split <;> rfl

theorem cacheOk_lookup {g : Geometry} {K : Cache} (h : CacheOk g K) (a : Addr) : CacheOk g (lookup g K a).2 := by
  unfold lookup
  split
  · rename_i w hm
    exact cacheOk_putAt h a (setOk_touch (setAt_ok h a) ((matchWay_eq_some_iff (setAt_ok h a) _ w).1 hm).1)
  · exact h

/-- After a lookup every set has the same lines; only the recency order of the set of `a` may differ (R102). -/
theorem setAt_lookup {g : Geometry} {K : Cache} (h : CacheOk g K) (a b : Addr) :
    setAt g (lookup g K a).2 b = setAt g K b ∨
      ∃ w, (decodeAddr g b).index = (decodeAddr g a).index ∧
        (setAt g K a).matchWay (decodeAddr g a).tag = some w ∧ setAt g (lookup g K a).2 b = (setAt g K b).touch w := by
  unfold lookup
  split
  · rename_i w hm
    rw [setAt_putAt h]
    split
    · rename_i he
      exact .inr ⟨w, he, hm, by rw [setAt_congr K he]⟩
    · exact .inl rfl
  · exact .inl rfl

/-- A lookup that matches touches the matching way of its set (R102). -/
theorem setAt_lookup_match {g : Geometry} {K : Cache} (h : CacheOk g K) {a : Addr} {w : Nat}
    (hm : (setAt g K a).matchWay (decodeAddr g a).tag = some w) :
    setAt g (lookup g K a).2 a = (setAt g K a).touch w := by
  unfold lookup
  rw [hm]
  exact (setAt_putAt h a a _).trans (if_pos rfl)

/-- A lookup changes no MESI state and no tag. -/
theorem probe_lookup {g : Geometry} {K : Cache} (h : CacheOk g K) (a b : Addr) :
    probe g (lookup g K a).2 b = probe g K b := by
  unfold probe
  rcases setAt_lookup h a b with he | ⟨w, -, -, he⟩
  · rw [he]
  · rw [he]
    rfl

/-- A lookup moves no fill way (R118). -/
theorem fillWay_lookup {g : Geometry} {K : Cache} (h : CacheOk g K) (a : Addr) :
    fillWay g (lookup g K a).2 a = fillWay g K a := by
  unfold fillWay CacheSet.fillWay
  rcases setAt_lookup h a a with he | ⟨w, -, hm, he⟩
  · rw [he]
  · rw [he, touch_matchWay, hm]

/-- A lookup touches the matching way, which is the fill way; without a match the order stays (R102, R105). -/
theorem lru_lookup {g : Geometry} {K : Cache} (h : CacheOk g K) (a : Addr) :
    (setAt g (lookup g K a).2 a).lru = (setAt g K a).lru ∨
      (setAt g (lookup g K a).2 a).lru = ((setAt g K a).touch (fillWay g K a)).lru := by
  rcases setAt_lookup h a a with he | ⟨w, -, hm, he⟩
  · exact .inl (by rw [he])
  · refine .inr ?_
    rw [he]
    simp [fillWay, CacheSet.fillWay, hm]

/-- A lookup moves no tag. -/
theorem matchWay_lookup {g : Geometry} {K : Cache} (h : CacheOk g K) (a b : Addr) (t : Nat) :
    (setAt g (lookup g K a).2 b).matchWay t = (setAt g K b).matchWay t := by
  rcases setAt_lookup h a b with he | ⟨w, -, -, he⟩ <;> rw [he]
  rfl

theorem selectVictim_lookup {g : Geometry} {K : Cache} (h : CacheOk g K) (a : Addr) :
    selectVictim g (lookup g K a).2 a = selectVictim g K a := by
  unfold selectVictim
  rw [fillWay_lookup h]
  rcases setAt_lookup h a a with he | ⟨w, -, -, he⟩
  · rw [he]
  · rw [he]
    rfl

/-! ## setState (R104) -/

theorem cacheOk_setState {g : Geometry} {K : Cache} (h : CacheOk g K) (st : Mesi) (a : Addr) :
    CacheOk g (setState g st a K) := by
  unfold setState
  split
  · rename_i w hm
    exact cacheOk_putAt h a (setOk_withState (setAt_ok h a) (.inl (by rw [matchWay_tag hm]; simp)))
  · exact h

/-- After `setState`, every set is as before but for one line's state in the set of `a` (R104). -/
theorem setAt_setState {g : Geometry} {K : Cache} (h : CacheOk g K) (st : Mesi) (a b : Addr) :
    (setAt g (setState g st a K) b = setAt g K b ∧
        ((setAt g K a).matchWay (decodeAddr g a).tag = none ∨ (decodeAddr g b).index ≠ (decodeAddr g a).index)) ∨
      ∃ w, (decodeAddr g b).index = (decodeAddr g a).index ∧
        (setAt g K a).matchWay (decodeAddr g a).tag = some w ∧ setAt g (setState g st a K) b = (setAt g K b).withState w st := by
  unfold setState
  split
  · rename_i w hm
    rw [setAt_putAt h]
    split
    · rename_i he
      exact .inr ⟨w, he, hm, by rw [setAt_congr K he]⟩
    · rename_i hne
      exact .inl ⟨rfl, .inr hne⟩
  · rename_i hm
    exact .inl ⟨rfl, .inl hm⟩

/-- A change of state in the set of its line (R104). -/
theorem setAt_setState_match {g : Geometry} {K : Cache} (h : CacheOk g K) {st : Mesi} {a : Addr} {w : Nat}
    (hm : (setAt g K a).matchWay (decodeAddr g a).tag = some w) :
    setAt g (setState g st a K) a = (setAt g K a).withState w st := by
  unfold setState
  rw [hm]
  exact (setAt_putAt h a a _).trans (if_pos rfl)

/-- `setState` gives the line of `a` the state `st` if the cache holds that line, and changes no other state (R104). -/
theorem probe_setState {g : Geometry} {K : Cache} (h : CacheOk g K) (st : Mesi) (a b : Addr) :
    probe g (setState g st a K) b =
      if SameLine g b a ∧ probe g K a ≠ .notPresent then .found st else probe g K b := by
  rcases setAt_setState h st a b with ⟨he, hor⟩ | ⟨w, hidx, hm, he⟩
  · have hnot : ¬(SameLine g b a ∧ probe g K a ≠ .notPresent) := by
      rintro ⟨hs, hp⟩
      rcases hor with hn | hne
      · exact hp (probe_of_no_match hn)
      · exact hne hs.1
    rw [if_neg hnot]
    unfold probe
    rw [he]
  · have hset : setAt g K b = setAt g K a := setAt_congr K hidx
    have hok := setAt_ok h a
    have htag : ((setAt g K a).line w).tag ≠ none ∨ st = .I := .inl (by rw [matchWay_tag hm]; simp)
    unfold probe
    rw [he, hset, matchWay_withState hok htag, hm]
    by_cases ht : (decodeAddr g b).tag = (decodeAddr g a).tag
    · rw [if_pos ⟨⟨hidx, ht⟩, by simp⟩, ht, hm]
      simp only [CacheSet.withState, line_withLine]
      rw [if_pos ⟨trivial, matchWay_lt hm⟩]
    · rw [if_neg (fun hc => ht hc.1.2)]
      cases hb : (setAt g K a).matchWay (decodeAddr g b).tag with
      | none => rfl
      | some v =>
        have hvw : v ≠ w := by
          rintro rfl
          have := (matchWay_tag hb).symm.trans (matchWay_tag hm)
          exact ht (by simpa using this)
        simp only [CacheSet.withState, line_withLine]
        rw [if_neg (fun hc => hvw hc.1)]

/-- `setState` moves no tag, hence no match. -/
theorem matchWay_setState {g : Geometry} {K : Cache} (h : CacheOk g K) (st : Mesi) (a b : Addr) (t : Nat) :
    (setAt g (setState g st a K) b).matchWay t = (setAt g K b).matchWay t := by
  rcases setAt_setState h st a b with ⟨he, -⟩ | ⟨w, hidx, hm, he⟩
  · rw [he]
  · have hset : setAt g K b = setAt g K a := setAt_congr K hidx
    rw [he, hset]
    exact matchWay_withState (setAt_ok h a) (.inl (by rw [matchWay_tag hm]; simp)) t

theorem lru_setState {g : Geometry} {K : Cache} (h : CacheOk g K) (st : Mesi) (a b : Addr) :
    (setAt g (setState g st a K) b).lru = (setAt g K b).lru := by
  rcases setAt_setState h st a b with ⟨he, -⟩ | ⟨w, -, -, he⟩
  · rw [he]
  · rw [he]
    rfl

/-- `setState` moves no fill way (R118). -/
theorem fillWay_setState {g : Geometry} {K : Cache} (h : CacheOk g K) (st : Mesi) (a b : Addr) :
    fillWay g (setState g st a K) b = fillWay g K b := by
  unfold fillWay CacheSet.fillWay
  rw [matchWay_setState h]
  unfold CacheSet.oldest
  rw [lru_setState h]

theorem selectVictim_tag_setState {g : Geometry} {K : Cache} (h : CacheOk g K) (st : Mesi) (a b : Addr) :
    (selectVictim g (setState g st a K) b).tag = (selectVictim g K b).tag := by
  unfold selectVictim
  rw [fillWay_setState h]
  rcases setAt_setState h st a b with ⟨he, -⟩ | ⟨w, -, -, he⟩ <;> rw [he]
  exact line_withState_tag _ _ _ _

theorem victimAddress_setState {g : Geometry} {K : Cache} (h : CacheOk g K) (st : Mesi) (a b : Addr) :
    victimAddress g (setState g st a K) b = victimAddress g K b := by
  unfold victimAddress
  rw [selectVictim_tag_setState h]

/-! ## The victim (R105, R107, R108) -/

theorem fillWay_lt {g : Geometry} {K : Cache} (h : CacheOk g K) (hg : 1 ≤ g.ways) (a : Addr) : fillWay g K a < g.ways :=
  setFillWay_lt (setAt_ok h a) hg _

theorem selectVictim_ok {g : Geometry} {K : Cache} (h : CacheOk g K) (hg : 1 ≤ g.ways) (a : Addr) :
    LineOk g (selectVictim g K a) := line_ok (setAt_ok h a) (fillWay_lt h hg a)

theorem victimAddress_eq_some {g : Geometry} {K : Cache} {a va : Addr} :
    victimAddress g K a = some va ↔
      ∃ t, (selectVictim g K a).tag = some t ∧ va = encodeAddr g (decodeAddr g a).index t 0 := by
  unfold victimAddress
  rw [Option.map_eq_some_iff]
  exact exists_congr fun t => and_congr_right fun _ => eq_comm

/-- A victim with a tag is what the cache holds at the victim's address (R108). -/
theorem match_victim {g : Geometry} {K : Cache} (h : CacheOk g K) (hg : 1 ≤ g.ways) {a va : Addr}
    (hv : victimAddress g K a = some va) :
    (decodeAddr g va).index = (decodeAddr g a).index ∧
      (setAt g K va).matchWay (decodeAddr g va).tag = some (fillWay g K a) ∧ setAt g K va = setAt g K a := by
  obtain ⟨t, ht, rfl⟩ := victimAddress_eq_some.1 hv
  obtain ⟨hi, htag⟩ := decodeAddr_lineOf (g := g) t (decodeAddr_index_lt g a)
  have hset := setAt_congr K hi
  refine ⟨hi, ?_, hset⟩
  rw [hset, htag, matchWay_eq_some_iff (setAt_ok h a)]
  exact ⟨fillWay_lt h hg a, ht⟩

theorem probe_victim {g : Geometry} {K : Cache} (h : CacheOk g K) (hg : 1 ≤ g.ways) {a va : Addr}
    (hv : victimAddress g K a = some va) : probe g K va = .found (selectVictim g K a).st := by
  obtain ⟨-, hm, hset⟩ := match_victim h hg hv
  rw [probe_of_match hm, hset]
  rfl

/-- A line the cache holds in the set of `a`, when the line of `a` is absent, is not the line of `a`. -/
theorem victim_ne_of_notPresent {g : Geometry} {K : Cache} (h : CacheOk g K) (hg : 1 ≤ g.ways) {a va : Addr}
    (hv : victimAddress g K a = some va) (ha : probe g K a = .notPresent) : ¬ SameLine g va a := by
  intro hs
  have := probe_victim h hg hv
  rw [probe_congr K hs, ha] at this
  exact absurd this (by simp)

/-- Where the cache holds the line of `a`, the victim is that line (R105). -/
theorem victim_of_present {g : Geometry} {K : Cache} {a : Addr}
    (ha : probe g K a ≠ .notPresent) :
    ∃ va, victimAddress g K a = some va ∧ SameLine g va a := by
  cases hm : (setAt g K a).matchWay (decodeAddr g a).tag with
  | none => exact absurd (probe_of_no_match hm) ha
  | some w =>
    have hf : fillWay g K a = w := by simp [fillWay, CacheSet.fillWay, hm]
    have ht : (selectVictim g K a).tag = some (decodeAddr g a).tag := by
      unfold selectVictim
      rw [hf]
      exact matchWay_tag hm
    refine ⟨_, victimAddress_eq_some.2 ⟨_, ht, rfl⟩, ?_⟩
    exact decodeAddr_lineOf (g := g) _ (decodeAddr_index_lt g a)

/-- A victim's address is an address of the block. -/
theorem victimAddress_lt {g : Geometry} {K : Cache} (h : CacheOk g K) (hg : 1 ≤ g.ways) {a va : Addr}
    (hv : victimAddress g K a = some va) : va < 2 ^ (g.ob + g.ib + g.tw) := by
  obtain ⟨t, ht, rfl⟩ := victimAddress_eq_some.1 hv
  exact encodeAddr_lt (decodeAddr_index_lt g a) ((selectVictim_ok h hg a).2 t ht) (Nat.two_pow_pos _)

/-- The end of an eviction is a change of state at the victim's address (R110, R117). -/
theorem invalidateWay_eq_setState {g : Geometry} {K : Cache} (h : CacheOk g K) (hg : 1 ≤ g.ways) {a va : Addr}
    (hv : victimAddress g K a = some va) : invalidateWay g (fillWay g K a) a K = setState g .I va K := by
  obtain ⟨hi, hm, hset⟩ := match_victim h hg hv
  unfold setState
  rw [hm]
  unfold invalidateWay putAt
  rw [hset, hi]

/-! ## install (R106) -/

theorem cacheOk_install {g : Geometry} {K : Cache} (h : CacheOk g K) (hg : 1 ≤ g.ways) {a : Addr}
    (ha : (decodeAddr g a).tag < 2 ^ g.tw) (st : Mesi) : CacheOk g (install g st (fillWay g K a) a K) :=
  cacheOk_putAt h a (setOk_touch (setOk_install (setAt_ok h a) ha st) (fillWay_lt h hg a))

theorem setAt_install {g : Geometry} {K : Cache} (h : CacheOk g K) (st : Mesi) (w : Nat) (a b : Addr) :
    setAt g (install g st w a K) b =
      if (decodeAddr g b).index = (decodeAddr g a).index
      then ((setAt g K a).withLine w ⟨some (decodeAddr g a).tag, st⟩).touch w else setAt g K b :=
  setAt_putAt h a b _

/-- An install into the fill way gives the line of `a` the state `st`, takes the victim's line out of the cache, and changes
no other line (R105, R106). -/
theorem probe_install {g : Geometry} {K : Cache} (h : CacheOk g K) (hg : 1 ≤ g.ways) {a : Addr}
    (ha : (decodeAddr g a).tag < 2 ^ g.tw) (st : Mesi) (b : Addr) :
    probe g (install g st (fillWay g K a) a K) b =
      if SameLine g b a then .found st
      else if ∃ va, victimAddress g K a = some va ∧ SameLine g b va then .notPresent
      else probe g K b := by
  have hok := setAt_ok h a
  have hw := fillWay_lt h hg a
  by_cases hidx : (decodeAddr g b).index = (decodeAddr g a).index
  · have hset := setAt_congr K hidx
    have hvic : (∃ va, victimAddress g K a = some va ∧ SameLine g b va) ↔
        (selectVictim g K a).tag = some (decodeAddr g b).tag := by
      constructor
      · rintro ⟨va, hv, hs⟩
        obtain ⟨t, ht, rfl⟩ := victimAddress_eq_some.1 hv
        rw [ht, hs.2, (decodeAddr_lineOf (g := g) t (decodeAddr_index_lt g a)).2]
      · intro ht
        refine ⟨_, victimAddress_eq_some.2 ⟨_, ht, rfl⟩, ?_⟩
        obtain ⟨h1, h2⟩ := decodeAddr_lineOf (g := g) (decodeAddr g b).tag (decodeAddr_index_lt g a)
        exact ⟨hidx.trans h1.symm, h2.symm⟩
    have hmi := matchWay_install hok hg ha st (decodeAddr g b).tag
    unfold probe
    rw [setAt_install h, if_pos hidx, touch_matchWay]
    show (match ((setAt g K a).withLine ((setAt g K a).fillWay (decodeAddr g a).tag) _).matchWay _ with
      | some w => _ | none => _) = _
    rw [hmi]
    by_cases ht : (decodeAddr g b).tag = (decodeAddr g a).tag
    · rw [if_pos ht, if_pos ⟨hidx, ht⟩]
      simp only [touch_line, line_withLine]
      rw [if_pos ⟨rfl, hok.1 ▸ hw⟩]
    · rw [if_neg ht, if_neg (fun hs : SameLine g b a => ht hs.2)]
      by_cases hv : (selectVictim g K a).tag = some (decodeAddr g b).tag
      · have hv' : ((setAt g K a).line ((setAt g K a).fillWay (decodeAddr g a).tag)).tag = some (decodeAddr g b).tag := hv
        rw [if_pos hv', if_pos (hvic.2 hv)]
      · have hv' : ¬ ((setAt g K a).line ((setAt g K a).fillWay (decodeAddr g a).tag)).tag = some (decodeAddr g b).tag := hv
        rw [if_neg hv', if_neg (fun hc => hv (hvic.1 hc)), hset]
        cases hb : (setAt g K a).matchWay (decodeAddr g b).tag with
        | none => rfl
        | some v =>
          simp only [touch_line, line_withLine]
          have : ¬(v = fillWay g K a ∧ fillWay g K a < (setAt g K a).ways.length) := by
            rintro ⟨rfl, -⟩
            exact hv (matchWay_tag hb)
          rw [if_neg this]
  · have h1 : ¬ SameLine g b a := fun hs => hidx hs.1
    have h2 : ¬ ∃ va, victimAddress g K a = some va ∧ SameLine g b va := by
      rintro ⟨va, hv, hs⟩
      exact hidx (hs.1.trans (match_victim h hg hv).1)
    rw [if_neg h1, if_neg h2]
    unfold probe
    rw [setAt_install h, if_neg hidx]

/-- The way written by an install holds the new line (R106). -/
theorem install_line {g : Geometry} {K : Cache} (h : CacheOk g K) (hg : 1 ≤ g.ways) (st : Mesi) (a : Addr) :
    (setAt g (install g st (fillWay g K a) a K) a).line (fillWay g K a) = ⟨some (decodeAddr g a).tag, st⟩ := by
  rw [setAt_install h, if_pos rfl, touch_line, line_withLine, if_pos ⟨rfl, (setAt_ok h a).1 ▸ fillWay_lt h hg a⟩]

/-- An install leaves every other way of the set as it was (R106). -/
theorem install_otherLine {g : Geometry} {K : Cache} (h : CacheOk g K) (st : Mesi) (a : Addr) {w v : Nat} (hv : v ≠ w) :
    (setAt g (install g st w a K) a).line v = (setAt g K a).line v := by
  rw [setAt_install h, if_pos rfl, touch_line, line_withLine, if_neg (fun hc => hv hc.1)]

/-- An install into the fill way, as the statements say it (R105, R106). -/
theorem installed_install {g : Geometry} {K : Cache} (h : CacheOk g K) (hg : 1 ≤ g.ways) (st : Mesi) (a : Addr) :
    Installed g K (install g st (fillWay g K a) a K) a st where
  line := install_line h hg st a
  lru := by
    rw [setAt_install h, if_pos rfl]
    rfl
  otherTags _ hw := congrArg Line.tag (install_otherLine h st a hw)

/-- What came before an install in one operation, where it moved no tag and left the order of the set as it was, or touched its
fill way, is no part of it (R118). -/
theorem Installed.of_before {g : Geometry} {K0 K K' : Cache} {a : Addr} {st : Mesi} (h : Installed g K K' a st)
    (h0 : CacheOk g K0) (hK : CacheOk g K) (hm : ∀ t, (setAt g K a).matchWay t = (setAt g K0 a).matchWay t)
    (hw : fillWay g K a = fillWay g K0 a)
    (hl : (setAt g K a).lru = (setAt g K0 a).lru ∨ (setAt g K a).lru = ((setAt g K0 a).touch (fillWay g K0 a)).lru) :
    Installed g K0 K' a st := by
  refine ⟨hw ▸ h.line, ?_, fun w hne => (h.otherTags w (hw ▸ hne)).trans (tags_of_match (setAt_ok h0 a) (setAt_ok hK a) hm w)⟩
  rw [h.lru, hw]
  rcases hl with hl | hl
  · exact touch_lru_congr hl _
  · rw [touch_lru_congr hl, touch_touch]

end Sys2Proof.Machine
end

