-- ==== Sys2Proof/Laws/Ops.lean ====
section
/-! SUPPORT. One spec lemma per shared operation of an operation's work (spec R109 to R117, R142 to R148, R163 to R166): the
caches stay in order, which states change, and which events are emitted. -/

namespace Sys2Proof.Machine

/-! ## The three caches in order, by core -/

theorem cachesOk_iff (cfg : Config) (cs : Caches) :
    CachesOk cfg cs ↔ (∀ c, CacheOk cfg.l1 (cs.l1.get c)) ∧ CacheOk cfg.l2 cs.l2 := by
  constructor
  · rintro ⟨h1, h2, h3⟩
    exact ⟨fun c => by cases c <;> assumption, h3⟩
  · rintro ⟨h, h3⟩
    exact ⟨h .core1, h .core2, h3⟩

theorem CachesOk.l1 {cfg : Config} {k : Work} (h : CachesOk cfg k.caches) (c : CoreId) : CacheOk cfg.l1 (k.l1 c) :=
  ((cachesOk_iff _ _).1 h).1 c

theorem CachesOk.l2 {cfg : Config} {k : Work} (h : CachesOk cfg k.caches) : CacheOk cfg.l2 k.l2 :=
  ((cachesOk_iff _ _).1 h).2

theorem cachesOk_emit {cfg : Config} {k : Work} (h : CachesOk cfg k.caches) (e : Event) :
    CachesOk cfg (k.emit e).caches := h

theorem cachesOk_withL1 {cfg : Config} {k : Work} (h : CachesOk cfg k.caches) (c : CoreId) {K : Cache}
    (hK : CacheOk cfg.l1 K) : CachesOk cfg (k.withL1 c K).caches := by
  refine (cachesOk_iff _ _).2 ⟨fun d => ?_, h.l2⟩
  rcases eq_or_eq_peer c d with rfl | rfl
  · rw [Work.caches_l1, Work.withL1_l1_same]
    exact hK
  · rw [Work.caches_l1, Work.withL1_l1_peer]
    exact h.l1 _

theorem cachesOk_withL2 {cfg : Config} {k : Work} (h : CachesOk cfg k.caches) {K : Cache} (hK : CacheOk cfg.l2 K) :
    CachesOk cfg (k.withL2 K).caches := (cachesOk_iff _ _).2 ⟨fun d => h.l1 d, hK⟩

theorem ways_l1 {cfg : Config} (h : cfg.Wf) : 1 ≤ cfg.l1.ways := h.2.2.2.1
theorem ways_l2 {cfg : Config} (h : cfg.Wf) : 1 ≤ cfg.l2.ways := h.2.2.2.2.1

theorem tag_l1_lt {cfg : Config} (h : cfg.Wf) {a : Addr} (ha : inRange cfg a) :
    (decodeAddr cfg.l1 a).tag < 2 ^ cfg.l1.tw := decodeAddr_tag_lt ha (config_l1_widths h)

theorem tag_l2_lt {cfg : Config} (h : cfg.Wf) {a : Addr} (ha : inRange cfg a) :
    (decodeAddr cfg.l2 a).tag < 2 ^ cfg.l2.tw := decodeAddr_tag_lt ha (config_l2_widths h)

theorem stateL1_eq (cfg : Config) (k : Work) (c : CoreId) (a : Addr) :
    k.caches.stateL1 cfg c a = probe cfg.l1 (k.l1 c) a := rfl

theorem stateL2_eq (cfg : Config) (k : Work) (a : Addr) : k.caches.stateL2 cfg a = probe cfg.l2 k.l2 a := rfl

/-! ## The local victim (R109 to R112) -/

theorem evictL1Victim_way (cfg : Config) (c : CoreId) (a : Addr) (k : Work) :
    (evictL1Victim cfg c a k).1 = fillWay cfg.l1 (k.l1 c) a := by
  unfold evictL1Victim
  cases ht : (selectVictim cfg.l1 (k.l1 c) a).tag <;> simp only [ht]

/-- An empty fill way: nothing to evict (R112). -/
theorem evictL1Victim_of_none {cfg : Config} {c : CoreId} {a : Addr} {k : Work}
    (h : victimAddress cfg.l1 (k.l1 c) a = none) : (evictL1Victim cfg c a k).2 = k := by
  have ht : (selectVictim cfg.l1 (k.l1 c) a).tag = none := by
    unfold victimAddress at h
    simpa using h
  unfold evictL1Victim
  simp only [ht]

/-- A victim with a tag becomes Invalid; a Modified one is written back to the L2 first (R109 to R111). -/
theorem evictL1Victim_of_some {cfg : Config} (hcfg : cfg.Wf) {c : CoreId} {a va : Addr} {k : Work}
    (hk : CachesOk cfg k.caches) (h : victimAddress cfg.l1 (k.l1 c) a = some va) :
    (evictL1Victim cfg c a k).2 =
      (if probe cfg.l1 (k.l1 c) va = .found .M
        then (k.emit (.writeback c va (.l1 c) .l2)).withL2 (setState cfg.l2 .M va k.l2) else k).withL1 c
        (setState cfg.l1 .I va (k.l1 c)) := by
  have hp := probe_victim (hk.l1 c) (ways_l1 hcfg) h
  have hi := invalidateWay_eq_setState (hk.l1 c) (ways_l1 hcfg) h
  obtain ⟨t, ht, hva⟩ := victimAddress_eq_some.1 h
  unfold evictL1Victim
  rw [hp]
  simp only [ht]
  rw [← hva, ← hi]
  cases (selectVictim cfg.l1 (k.l1 c) a).st <;> rfl

/-- What the eviction of the local victim leaves and emits. -/
structure L1Evicted (cfg : Config) (c : CoreId) (a : Addr) (k k' : Work) : Prop where
  ok : CachesOk cfg k'.caches
  peer : k'.l1 (peer c) = k.l1 (peer c)
  local_fillWay : fillWay cfg.l1 (k'.l1 c) a = fillWay cfg.l1 (k.l1 c) a
  local_victim : victimAddress cfg.l1 (k'.l1 c) a = victimAddress cfg.l1 (k.l1 c) a
  l2_fillWay : ∀ x, fillWay cfg.l2 k'.l2 x = fillWay cfg.l2 k.l2 x
  l2_victim : ∀ x, victimAddress cfg.l2 k'.l2 x = victimAddress cfg.l2 k.l2 x
  /-- the victim's line is Invalid in the local L1, every other line as before -/
  stateL1 : ∀ b, probe cfg.l1 (k'.l1 c) b =
    if ∃ va, victimAddress cfg.l1 (k.l1 c) a = some va ∧ SameLine cfg.l1 b va then .found .I
    else probe cfg.l1 (k.l1 c) b
  /-- the L2 copy of a Modified victim is Modified, every other L2 line as before -/
  stateL2 : ∀ b, probe cfg.l2 k'.l2 b =
    if ∃ va, victimAddress cfg.l1 (k.l1 c) a = some va ∧ probe cfg.l1 (k.l1 c) va = .found .M ∧
      SameLine cfg.l2 b va ∧ probe cfg.l2 k.l2 va ≠ .notPresent then .found .M
    else probe cfg.l2 k.l2 b
  /-- recency and matches stay -/
  local_lru : ∀ b, (setAt cfg.l1 (k'.l1 c) b).lru = (setAt cfg.l1 (k.l1 c) b).lru
  local_match : ∀ b t, (setAt cfg.l1 (k'.l1 c) b).matchWay t = (setAt cfg.l1 (k.l1 c) b).matchWay t
  l2_lru : ∀ b, (setAt cfg.l2 k'.l2 b).lru = (setAt cfg.l2 k.l2 b).lru
  l2_match : ∀ b t, (setAt cfg.l2 k'.l2 b).matchWay t = (setAt cfg.l2 k.l2 b).matchWay t
  events : k'.events = k.events ++ l1VictimEvents cfg c k.caches a

theorem evictL1Victim_spec {cfg : Config} (hcfg : cfg.Wf) (c : CoreId) (a : Addr) {k : Work}
    (hk : CachesOk cfg k.caches) : L1Evicted cfg c a k (evictL1Victim cfg c a k).2 := by
  cases hv : victimAddress cfg.l1 (k.l1 c) a with
  | none =>
    rw [evictL1Victim_of_none hv]
    refine ⟨hk, rfl, rfl, rfl, fun _ => rfl, fun _ => rfl, ?_, ?_, fun _ => rfl, fun _ _ => rfl, fun _ => rfl,
      fun _ _ => rfl, ?_⟩
    · intro b
      simp [hv]
    · intro b
      simp [hv]
    · simp [l1VictimEvents, Work.caches_l1, hv]
  | some va =>
    rw [evictL1Victim_of_some hcfg hk hv]
    have hpres : probe cfg.l1 (k.l1 c) va ≠ .notPresent := by
      rw [probe_victim (hk.l1 c) (ways_l1 hcfg) hv]
      simp
    have hev : l1VictimEvents cfg c k.caches a =
        if probe cfg.l1 (k.l1 c) va = .found .M then [.writeback c va (.l1 c) .l2] else [] := by
      unfold l1VictimEvents
      rw [Work.caches_l1, hv]
      rfl
    have hlocal : ∀ b, probe cfg.l1 (setState cfg.l1 .I va (k.l1 c)) b =
        if ∃ va', victimAddress cfg.l1 (k.l1 c) a = some va' ∧ SameLine cfg.l1 b va' then .found .I
        else probe cfg.l1 (k.l1 c) b := by
      intro b
      rw [probe_setState (hk.l1 c)]
      simp [hv, hpres]
    by_cases hM : probe cfg.l1 (k.l1 c) va = .found .M
    · rw [if_pos hM] at hev ⊢
      refine ⟨?_, by simp, ?_, ?_, ?_, ?_, ?_, ?_, ?_, ?_, ?_, ?_, by simp [hev]⟩
      · exact cachesOk_withL1 (cachesOk_withL2 (cachesOk_emit hk _) (cacheOk_setState hk.l2 _ _)) c
          (cacheOk_setState (hk.l1 c) _ _)
      · simpa using fillWay_setState (hk.l1 c) _ _ _
      · simpa using victimAddress_setState (hk.l1 c) _ _ _
      · intro x
        simpa using fillWay_setState hk.l2 _ _ _
      · intro x
        simpa using victimAddress_setState hk.l2 _ _ _
      · intro b
        simpa using hlocal b
      · intro b
        simp only [Work.withL1_l2, Work.withL2_l2]
        rw [probe_setState hk.l2]
        simp [hv, hM]
      · intro b
        simpa using lru_setState (hk.l1 c) _ _ _
      · intro b t
        simpa using matchWay_setState (hk.l1 c) _ _ _ _
      · intro b
        simpa using lru_setState hk.l2 _ _ _
      · intro b t
        simpa using matchWay_setState hk.l2 _ _ _ _
    · rw [if_neg hM] at hev ⊢
      refine ⟨?_, by simp, ?_, ?_, by simp, by simp, ?_, ?_, ?_, ?_, by simp, by simp, by simp [hev]⟩
      · exact cachesOk_withL1 hk c (cacheOk_setState (hk.l1 c) _ _)
      · simpa using fillWay_setState (hk.l1 c) _ _ _
      · simpa using victimAddress_setState (hk.l1 c) _ _ _
      · intro b
        simpa using hlocal b
      · intro b
        simp [hv, hM]
      · intro b
        simpa using lru_setState (hk.l1 c) _ _ _
      · intro b t
        simpa using matchWay_setState (hk.l1 c) _ _ _ _

/-- The eviction of the local victim writes one line of the local L1 at most: the fill way's, in the set of `a` (R110). -/
theorem evictL1Victim_otherLine {cfg : Config} (hcfg : cfg.Wf) (c : CoreId) (a : Addr) {k : Work} (hk : CachesOk cfg k.caches)
    {w : Nat} (hw : w ≠ fillWay cfg.l1 (k.l1 c) a) :
    (setAt cfg.l1 ((evictL1Victim cfg c a k).2.l1 c) a).line w = (setAt cfg.l1 (k.l1 c) a).line w := by
  cases hv : victimAddress cfg.l1 (k.l1 c) a with
  | none => rw [evictL1Victim_of_none hv]
  | some va =>
    rw [evictL1Victim_of_some hcfg hk hv, Work.withL1_l1_same, ← invalidateWay_eq_setState (hk.l1 c) (ways_l1 hcfg) hv]
    unfold invalidateWay
    rw [setAt_putAt (hk.l1 c), if_pos rfl, CacheSet.withState, line_withLine, if_neg (fun hc => hw hc.1)]

theorem evictL1Victim_otherSet {cfg : Config} (hcfg : cfg.Wf) (c : CoreId) (a : Addr) {k : Work} (hk : CachesOk cfg k.caches)
    {b : Addr} (hb : (decodeAddr cfg.l1 b).index ≠ (decodeAddr cfg.l1 a).index) :
    setAt cfg.l1 ((evictL1Victim cfg c a k).2.l1 c) b = setAt cfg.l1 (k.l1 c) b := by
  cases hv : victimAddress cfg.l1 (k.l1 c) a with
  | none => rw [evictL1Victim_of_none hv]
  | some va =>
    rw [evictL1Victim_of_some hcfg hk hv, Work.withL1_l1_same, ← invalidateWay_eq_setState (hk.l1 c) (ways_l1 hcfg) hv]
    unfold invalidateWay
    rw [setAt_putAt (hk.l1 c), if_neg hb]

/-! ## Back-invalidation and the L2 victim (R114 to R117) -/

/-- A valid copy of `va` in the target L1 becomes Invalid, with the events of R116; nothing else changes. -/
theorem backInvalidate_eq (cfg : Config) (c : CoreId) (va : Addr) (target : CoreId) (k : Work) :
    backInvalidate cfg c va target k =
      { caches := (if (probe cfg.l1 (k.l1 target) va).isValid
          then k.withL1 target (setState cfg.l1 .I va (k.l1 target)) else k).caches
        events := k.events ++ backEvents cfg c k.caches va target } := by
  unfold backInvalidate backEvents
  rw [stateL1_eq]
  cases hst : probe cfg.l1 (k.l1 target) va with
  | notPresent => simp [Lookup.isValid]
  | found st =>
    cases st <;> simp [Lookup.isValid, Mesi.isValid, Work.emit, Work.withL1, Work.l1]

/-- What a back-invalidation leaves. -/
structure BackInvalidated (cfg : Config) (va : Addr) (target : CoreId) (k k' : Work) : Prop where
  ok : CachesOk cfg k'.caches
  l2 : k'.l2 = k.l2
  peer : k'.l1 (peer target) = k.l1 (peer target)
  stateL1 : ∀ b, probe cfg.l1 (k'.l1 target) b =
    if SameLine cfg.l1 b va ∧ (probe cfg.l1 (k.l1 target) va).isValid = true then .found .I
    else probe cfg.l1 (k.l1 target) b
  fillWay : ∀ x, fillWay cfg.l1 (k'.l1 target) x = fillWay cfg.l1 (k.l1 target) x
  victim : ∀ x, victimAddress cfg.l1 (k'.l1 target) x = victimAddress cfg.l1 (k.l1 target) x
  lru : ∀ b, (setAt cfg.l1 (k'.l1 target) b).lru = (setAt cfg.l1 (k.l1 target) b).lru
  matchWay : ∀ b t, (setAt cfg.l1 (k'.l1 target) b).matchWay t = (setAt cfg.l1 (k.l1 target) b).matchWay t

theorem backInvalidate_spec {cfg : Config} (c : CoreId) (va : Addr) (target : CoreId) {k : Work}
    (hk : CachesOk cfg k.caches) : BackInvalidated cfg va target k (backInvalidate cfg c va target k) := by
  have hK := hk.l1 target
  rw [backInvalidate_eq]
  by_cases hv : (probe cfg.l1 (k.l1 target) va).isValid = true
  · have hpres : probe cfg.l1 (k.l1 target) va ≠ .notPresent := by
      intro he
      simp [he, Lookup.isValid] at hv
    rw [if_pos hv]
    refine ⟨cachesOk_withL1 hk target (cacheOk_setState hK _ _), rfl, Work.withL1_l1_peer _ _ _, ?_, ?_, ?_, ?_, ?_⟩
    all_goals simp only [Work.mk_l1, Work.caches_l1, Work.withL1_l1_same]
    · intro b
      rw [probe_setState hK]
      simp [hv, hpres]
    · exact fun x => fillWay_setState hK _ _ _
    · exact fun x => victimAddress_setState hK _ _ _
    · exact fun b => lru_setState hK _ _ _
    · exact fun b t => matchWay_setState hK _ _ _ _
  · rw [if_neg hv]
    refine ⟨hk, rfl, rfl, ?_, fun _ => rfl, fun _ => rfl, fun _ => rfl, fun _ _ => rfl⟩
    intro b
    exact (if_neg (fun hc => hv hc.2)).symm

theorem evictL2Victim_way (cfg : Config) (c : CoreId) (a : Addr) (k : Work) :
    (evictL2Victim cfg c a k).1 = fillWay cfg.l2 k.l2 a := by
  unfold evictL2Victim
  cases ht : (selectVictim cfg.l2 k.l2 a).tag <;> simp only [ht]

/-- What the eviction of the L2 victim leaves and emits. -/
structure L2Evicted (cfg : Config) (c : CoreId) (a : Addr) (k k' : Work) : Prop where
  ok : CachesOk cfg k'.caches
  l1_fillWay : ∀ d x, fillWay cfg.l1 (k'.l1 d) x = fillWay cfg.l1 (k.l1 d) x
  l1_victim : ∀ d x, victimAddress cfg.l1 (k'.l1 d) x = victimAddress cfg.l1 (k.l1 d) x
  l2_fillWay : fillWay cfg.l2 k'.l2 a = fillWay cfg.l2 k.l2 a
  l2_victim : victimAddress cfg.l2 k'.l2 a = victimAddress cfg.l2 k.l2 a
  /-- every valid L1 copy of the victim is Invalid, every other L1 line as before -/
  stateL1 : ∀ d b, probe cfg.l1 (k'.l1 d) b =
    if ∃ va, victimAddress cfg.l2 k.l2 a = some va ∧ SameLine cfg.l1 b va ∧ (probe cfg.l1 (k.l1 d) va).isValid = true
    then .found .I else probe cfg.l1 (k.l1 d) b
  /-- the victim is Invalid in the L2, every other L2 line as before -/
  stateL2 : ∀ b, probe cfg.l2 k'.l2 b =
    if ∃ va, victimAddress cfg.l2 k.l2 a = some va ∧ SameLine cfg.l2 b va then .found .I else probe cfg.l2 k.l2 b
  l1_lru : ∀ d b, (setAt cfg.l1 (k'.l1 d) b).lru = (setAt cfg.l1 (k.l1 d) b).lru
  l1_match : ∀ d b t, (setAt cfg.l1 (k'.l1 d) b).matchWay t = (setAt cfg.l1 (k.l1 d) b).matchWay t
  l2_lru : ∀ b, (setAt cfg.l2 k'.l2 b).lru = (setAt cfg.l2 k.l2 b).lru
  l2_match : ∀ b t, (setAt cfg.l2 k'.l2 b).matchWay t = (setAt cfg.l2 k.l2 b).matchWay t
  events : k'.events = k.events ++ l2VictimEvents cfg c k.caches a

theorem evictL2Victim_spec {cfg : Config} (hcfg : cfg.Wf) (c : CoreId) (a : Addr) {k : Work}
    (hk : CachesOk cfg k.caches) : L2Evicted cfg c a k (evictL2Victim cfg c a k).2 := by
  cases hv : victimAddress cfg.l2 k.l2 a with
  | none =>
    have ht : (selectVictim cfg.l2 k.l2 a).tag = none := by
      unfold victimAddress at hv
      simpa using hv
    have he : (evictL2Victim cfg c a k).2 = k := by
      unfold evictL2Victim
      simp only [ht]
    rw [he]
    refine ⟨hk, fun _ _ => rfl, fun _ _ => rfl, rfl, rfl, ?_, ?_, fun _ _ => rfl, fun _ _ _ => rfl, fun _ => rfl,
      fun _ _ => rfl, ?_⟩
    · intro d b
      simp [hv]
    · intro b
      simp [hv]
    · simp [l2VictimEvents, Work.caches_l2, hv]
  | some va =>
    have hK2 := hk.l2
    have hp := probe_victim hK2 (ways_l2 hcfg) hv
    have hi := invalidateWay_eq_setState hK2 (ways_l2 hcfg) hv
    obtain ⟨t, ht, hva⟩ := victimAddress_eq_some.1 hv
    obtain ⟨k1, hk1⟩ : ∃ k1, k1 = if (selectVictim cfg.l2 k.l2 a).st = .M then k.emit (.writeback c va .l2 .mem) else k :=
      ⟨_, rfl⟩
    have hcs : k1.caches = k.caches := by
      rw [hk1]
      split <;> rfl
    have hok1 : CachesOk cfg k1.caches := hcs ▸ hk
    have h2 := backInvalidate_spec c va .core1 hok1
    have h3 := backInvalidate_spec c va .core2 h2.ok
    have he : (evictL2Victim cfg c a k).2 =
        (backInvalidate cfg c va .core2 (backInvalidate cfg c va .core1 k1)).withL2 (setState cfg.l2 .I va k.l2) := by
      have hl2 : (backInvalidate cfg c va .core2 (backInvalidate cfg c va .core1 k1)).l2 = k.l2 := by
        rw [h3.l2, h2.l2]
        exact congrArg Caches.l2 hcs
      rw [← hi, hk1] at *
      unfold evictL2Victim
      simp only [ht]
      rw [← hva, hl2]
    have hl1 : ∀ d, k1.l1 d = k.l1 d := fun d => congrArg (fun cs : Caches => cs.l1.get d) hcs
    have p1 : (backInvalidate cfg c va .core1 k1).l1 .core2 = k1.l1 .core2 := h2.peer
    have p2 : (backInvalidate cfg c va .core2 (backInvalidate cfg c va .core1 k1)).l1 .core1 =
      (backInvalidate cfg c va .core1 k1).l1 .core1 := h3.peer
    rw [he]
    refine ⟨cachesOk_withL2 h3.ok (cacheOk_setState hK2 _ _), ?_, ?_, ?_, ?_, ?_, ?_, ?_, ?_, ?_, ?_, ?_⟩
    · intro d x
      cases d
      · rw [Work.withL2_l1, p2, h2.fillWay, hl1]
      · rw [Work.withL2_l1, h3.fillWay, p1, hl1]
    · intro d x
      cases d
      · rw [Work.withL2_l1, p2, h2.victim, hl1]
      · rw [Work.withL2_l1, h3.victim, p1, hl1]
    · rw [Work.withL2_l2, fillWay_setState hK2]
    · rw [Work.withL2_l2, victimAddress_setState hK2]
    · intro d b
      cases d
      · rw [Work.withL2_l1, p2, h2.stateL1, hl1]
        simp [hv]
      · rw [Work.withL2_l1, h3.stateL1, p1, hl1]
        simp [hv]
    · intro b
      rw [Work.withL2_l2, probe_setState hK2, hp]
      simp [hv]
    · intro d b
      cases d
      · rw [Work.withL2_l1, p2, h2.lru, hl1]
      · rw [Work.withL2_l1, h3.lru, p1, hl1]
    · intro d b t
      cases d
      · rw [Work.withL2_l1, p2, h2.matchWay, hl1]
      · rw [Work.withL2_l1, h3.matchWay, p1, hl1]
    · intro b
      rw [Work.withL2_l2, lru_setState hK2]
    · intro b t
      rw [Work.withL2_l2, matchWay_setState hK2]
    · have hb : backEvents cfg c (backInvalidate cfg c va .core1 k1).caches va .core2 =
          backEvents cfg c k.caches va .core2 := by
        unfold backEvents
        rw [stateL1_eq, stateL1_eq, p1, hl1]
      have hb1 : backEvents cfg c k1.caches va .core1 = backEvents cfg c k.caches va .core1 := by rw [hcs]
      have hmain : l2VictimEvents cfg c k.caches a =
          (if probe cfg.l2 k.l2 va = .found .M then [.writeback c va .l2 .mem] else []) ++
            (backEvents cfg c k.caches va .core1 ++ backEvents cfg c k.caches va .core2) := by
        unfold l2VictimEvents
        rw [Work.caches_l2, hv]
        rfl
      rw [Work.withL2_events, backInvalidate_eq]
      simp only [hb]
      rw [backInvalidate_eq]
      simp only [hb1]
      rw [hmain, hp, hk1]
      by_cases hM : (selectVictim cfg.l2 k.l2 a).st = .M
      · simp [hM]
      · simp [hM]

end Sys2Proof.Machine
end

