-- ==== Sys2Proof/Laws/Controller.lean ====
section
/-! SUPPORT. One spec lemma for each part a Load miss and a Store miss share (spec R113, R142 to R148, R163 to R166), and the
paths of LOAD and STORE as equations, so that no later proof unfolds an operation. -/

namespace Sys2Proof.Machine

/-! ## The start of a miss (R142, R163) -/

/-- The work when the local eviction of a miss begins: the L2 has been looked up and `MissL1` emitted. -/
def beforeL1Eviction (cfg : Config) (c : CoreId) (a : Addr) (mode : ModeCode) (k : Work) : Work :=
  (k.withL2 (lookup cfg.l2 k.l2 a).2).emit (.missL1 c a mode)

@[simp] theorem beforeL1Eviction_l1 (cfg : Config) (c : CoreId) (a : Addr) (mode : ModeCode) (k : Work) (d : CoreId) :
    (beforeL1Eviction cfg c a mode k).l1 d = k.l1 d := rfl

@[simp] theorem beforeL1Eviction_l2 (cfg : Config) (c : CoreId) (a : Addr) (mode : ModeCode) (k : Work) :
    (beforeL1Eviction cfg c a mode k).l2 = (lookup cfg.l2 k.l2 a).2 := rfl

@[simp] theorem beforeL1Eviction_events (cfg : Config) (c : CoreId) (a : Addr) (mode : ModeCode) (k : Work) :
    (beforeL1Eviction cfg c a mode k).events = k.events ++ [.missL1 c a mode] := rfl

theorem beforeL1Eviction_ok {cfg : Config} (c : CoreId) (a : Addr) (mode : ModeCode) {k : Work}
    (hk : CachesOk cfg k.caches) : CachesOk cfg (beforeL1Eviction cfg c a mode k).caches :=
  cachesOk_emit (cachesOk_withL2 hk (cacheOk_lookup hk.l2 a)) _

theorem startMiss_hitL2 (cfg : Config) (c : CoreId) (a : Addr) (mode : ModeCode) (k : Work) :
    (startMiss cfg c a mode k).hitL2 = (probe cfg.l2 k.l2 a).isValid := by
  rw [← lookup_result]
  rfl

theorem startMiss_way (cfg : Config) (c : CoreId) (a : Addr) (mode : ModeCode) (k : Work) :
    (startMiss cfg c a mode k).way = fillWay cfg.l1 (k.l1 c) a :=
  evictL1Victim_way cfg c a (beforeL1Eviction cfg c a mode k)

/-- The work after the start of a miss, by what the local eviction leaves and emits. -/
theorem startMiss_work {cfg : Config} (hcfg : cfg.Wf) (c : CoreId) (a : Addr) (mode : ModeCode) {k : Work}
    (hk : CachesOk cfg k.caches) :
    L1Evicted cfg c a (beforeL1Eviction cfg c a mode k) (startMiss cfg c a mode k).work :=
  evictL1Victim_spec hcfg c a (beforeL1Eviction_ok c a mode hk)

/-! ## Taking a line from the peer -/

/-- What taking the line of `a` from the peer leaves and emits (R144, R162, R165). -/
structure PeerInvalidated (cfg : Config) (c : CoreId) (a : Addr) (k k' : Work) : Prop where
  ok : CachesOk cfg k'.caches
  l2 : k'.l2 = k.l2
  local_l1 : k'.l1 c = k.l1 c
  statePeer : ∀ b, probe cfg.l1 (k'.l1 (peer c)) b =
    if SameLine cfg.l1 b a ∧ probe cfg.l1 (k.l1 (peer c)) a ≠ .notPresent then .found .I
    else probe cfg.l1 (k.l1 (peer c)) b
  lru : ∀ b, (setAt cfg.l1 (k'.l1 (peer c)) b).lru = (setAt cfg.l1 (k.l1 (peer c)) b).lru
  matchWay : ∀ b t, (setAt cfg.l1 (k'.l1 (peer c)) b).matchWay t = (setAt cfg.l1 (k.l1 (peer c)) b).matchWay t
  events : k'.events = k.events ++ [.invalidate c (lineAddr cfg a) (peer c)]

theorem invalidatePeer_spec {cfg : Config} (c : CoreId) (a : Addr) {k : Work} (hk : CachesOk cfg k.caches) :
    PeerInvalidated cfg c a k (invalidatePeer cfg c a k) := by
  have hP := hk.l1 (peer c)
  refine ⟨cachesOk_emit (cachesOk_withL1 hk _ (cacheOk_setState hP _ _)) _, rfl, ?_, ?_, ?_, ?_, rfl⟩
  · simp [invalidatePeer]
  · intro b
    simp only [invalidatePeer, Work.emit_l1, Work.withL1_l1_same]
    exact probe_setState hP _ _ _
  · intro b
    simp only [invalidatePeer, Work.emit_l1, Work.withL1_l1_same]
    exact lru_setState hP _ _ _
  · intro b t
    simp only [invalidatePeer, Work.emit_l1, Work.withL1_l1_same]
    exact matchWay_setState hP _ _ _ _

/-! ## The fills -/

/-- What the fill from the L2 leaves (R143 to R147, R165). -/
structure FilledFromL2 (cfg : Config) (c : CoreId) (a : Addr) (st : Mesi) (k k' : Work) : Prop where
  ok : CachesOk cfg k'.caches
  peer : k'.l1 (peer c) = k.l1 (peer c)
  installed : Installed cfg.l1 (k.l1 c) (k'.l1 c) a st
  stateL1 : ∀ b, probe cfg.l1 (k'.l1 c) b =
    if SameLine cfg.l1 b a then .found st
    else if ∃ va, victimAddress cfg.l1 (k.l1 c) a = some va ∧ SameLine cfg.l1 b va then .notPresent
    else probe cfg.l1 (k.l1 c) b
  otherSets : ∀ b, (decodeAddr cfg.l1 b).index ≠ (decodeAddr cfg.l1 a).index →
    setAt cfg.l1 (k'.l1 c) b = setAt cfg.l1 (k.l1 c) b
  stateL2 : ∀ b, probe cfg.l2 k'.l2 b =
    if SameLine cfg.l2 b a ∧ probe cfg.l2 k.l2 a ≠ .notPresent then .found .S else probe cfg.l2 k.l2 b
  l2_lru : ∀ b, (setAt cfg.l2 k'.l2 b).lru = (setAt cfg.l2 k.l2 b).lru
  l2_match : ∀ b t, (setAt cfg.l2 k'.l2 b).matchWay t = (setAt cfg.l2 k.l2 b).matchWay t
  events : k'.events = k.events

theorem fillFromL2_spec {cfg : Config} (hcfg : cfg.Wf) (c : CoreId) {a : Addr} (ha : inRange cfg a) (st : Mesi) {w : Nat}
    {k : Work} (hk : CachesOk cfg k.caches) (hw : w = fillWay cfg.l1 (k.l1 c) a) :
    FilledFromL2 cfg c a st k (fillFromL2 cfg c a st w k) := by
  subst hw
  have hL := hk.l1 c
  have hg := ways_l1 hcfg
  have ht := tag_l1_lt hcfg ha
  refine ⟨cachesOk_withL2 (cachesOk_withL1 hk c (cacheOk_install hL hg ht st)) (cacheOk_setState hk.l2 _ _),
    ?_, ?_, ?_, ?_, ?_, ?_, ?_, rfl⟩
  all_goals simp only [fillFromL2, Work.withL2_l1, Work.withL2_l2, Work.withL1_l1_same, Work.withL1_l1_peer, Work.withL1_l2]
  · exact installed_install hL hg st a
  · exact fun b => probe_install hL hg ht st b
  · intro b hb
    rw [setAt_install hL, if_neg hb]
  · exact fun b => probe_setState hk.l2 _ _ _
  · exact fun b => lru_setState hk.l2 _ _ _
  · exact fun b t => matchWay_setState hk.l2 _ _ _ _

/-- What the fill of both levels leaves and emits, from the work `k` before `MissL2` (R148, R166); `e` is the work after the
L2 victim's eviction. -/
structure FilledFromMemory (cfg : Config) (c : CoreId) (a : Addr) (mode : ModeCode) (st : Mesi) (k e k' : Work) : Prop where
  evicted : L2Evicted cfg c a (k.emit (.missL2 c a mode)) e
  ok : CachesOk cfg k'.caches
  peer : k'.l1 (peer c) = e.l1 (peer c)
  installed : Installed cfg.l1 (e.l1 c) (k'.l1 c) a st
  stateL1 : ∀ b, probe cfg.l1 (k'.l1 c) b =
    if SameLine cfg.l1 b a then .found st
    else if ∃ va, victimAddress cfg.l1 (e.l1 c) a = some va ∧ SameLine cfg.l1 b va then .notPresent
    else probe cfg.l1 (e.l1 c) b
  otherSets : ∀ b, (decodeAddr cfg.l1 b).index ≠ (decodeAddr cfg.l1 a).index →
    setAt cfg.l1 (k'.l1 c) b = setAt cfg.l1 (e.l1 c) b
  installedL2 : Installed cfg.l2 e.l2 k'.l2 a .S
  stateL2 : ∀ b, probe cfg.l2 k'.l2 b =
    if SameLine cfg.l2 b a then .found .S
    else if ∃ va, victimAddress cfg.l2 e.l2 a = some va ∧ SameLine cfg.l2 b va then .notPresent
    else probe cfg.l2 e.l2 b
  otherSetsL2 : ∀ b, (decodeAddr cfg.l2 b).index ≠ (decodeAddr cfg.l2 a).index →
    setAt cfg.l2 k'.l2 b = setAt cfg.l2 e.l2 b
  events : k'.events = k.events ++ (.missL2 c a mode :: l2VictimEvents cfg c k.caches a)

theorem fillFromMemory_spec {cfg : Config} (hcfg : cfg.Wf) (c : CoreId) {a : Addr} (ha : inRange cfg a) (mode : ModeCode)
    (st : Mesi) {w : Nat} {k : Work} (hk : CachesOk cfg k.caches) (hw : w = fillWay cfg.l1 (k.l1 c) a) :
    FilledFromMemory cfg c a mode st k (evictL2Victim cfg c a (k.emit (.missL2 c a mode))).2
      (fillFromMemory cfg c a mode st w k) := by
  have he := evictL2Victim_spec hcfg c a (cachesOk_emit hk (.missL2 c a mode))
  have hw1 : w = fillWay cfg.l1 ((evictL2Victim cfg c a (k.emit (.missL2 c a mode))).2.l1 c) a := by
    rw [he.l1_fillWay]
    exact hw
  have hw2 : (evictL2Victim cfg c a (k.emit (.missL2 c a mode))).1 =
      fillWay cfg.l2 (evictL2Victim cfg c a (k.emit (.missL2 c a mode))).2.l2 a := by
    rw [he.l2_fillWay]
    exact evictL2Victim_way _ _ _ _
  have heq : fillFromMemory cfg c a mode st w k =
      (((evictL2Victim cfg c a (k.emit (.missL2 c a mode))).2.withL1 c
          (install cfg.l1 st w a ((evictL2Victim cfg c a (k.emit (.missL2 c a mode))).2.l1 c))).withL2
        (install cfg.l2 .S (evictL2Victim cfg c a (k.emit (.missL2 c a mode))).1 a
          (evictL2Victim cfg c a (k.emit (.missL2 c a mode))).2.l2)) := rfl
  rw [heq, hw2, hw1]
  clear heq hw1 hw2
  generalize (evictL2Victim cfg c a (k.emit (.missL2 c a mode))).2 = e at *
  have hL := he.ok.l1 c
  have hL2 := he.ok.l2
  have hg := ways_l1 hcfg
  have ht := tag_l1_lt hcfg ha
  have hg2 := ways_l2 hcfg
  have ht2 := tag_l2_lt hcfg ha
  refine ⟨he, cachesOk_withL2 (cachesOk_withL1 he.ok c (cacheOk_install hL hg ht st)) (cacheOk_install hL2 hg2 ht2 .S),
    ?_, ?_, ?_, ?_, ?_, ?_, ?_, ?_⟩
  all_goals simp only [Work.withL2_l1, Work.withL2_l2, Work.withL1_l1_same, Work.withL1_l1_peer, Work.withL2_events,
    Work.withL1_events]
  · exact installed_install hL hg st a
  · exact fun b => probe_install hL hg ht st b
  · intro b hb
    rw [setAt_install hL, if_neg hb]
  · exact installed_install hL2 hg2 .S a
  · exact fun b => probe_install hL2 hg2 ht2 .S b
  · intro b hb
    rw [setAt_install hL2, if_neg hb]
  · rw [he.events]
    simp

/-! ## The paths of LOAD and STORE, as equations -/

/-- The work of an operation of core `c` after its first lookup (R140, R160). -/
def afterLocalLookup (cfg : Config) (c : CoreId) (a : Addr) (cs : Caches) : Work :=
  (Work.mk cs []).withL1 c (lookup cfg.l1 (cs.l1.get c) a).2

theorem loadOp_hit {cfg : Config} {c : CoreId} {a : Addr} {cs : Caches} (h : (cs.stateL1 cfg c a).isValid = true) :
    loadOp cfg c a cs = (afterLocalLookup cfg c a cs).emit (.hit c a modeLoad) := by
  have h' : (lookup cfg.l1 ((Work.mk cs []).l1 c) a).1.isValid = true := by
    rw [lookup_result]
    exact h
  unfold loadOp
  simp only [h', if_true]
  rfl

theorem loadOp_missL2Hit {cfg : Config} {c : CoreId} {a : Addr} {cs : Caches} (h : (cs.stateL1 cfg c a).isValid = false)
    (h2 : (cs.stateL2 cfg a).isValid = true) :
    loadOp cfg c a cs = loadFromPeer cfg c a (startMiss cfg c a modeLoad (afterLocalLookup cfg c a cs)).way
      (startMiss cfg c a modeLoad (afterLocalLookup cfg c a cs)).work := by
  have h' : (lookup cfg.l1 ((Work.mk cs []).l1 c) a).1.isValid = false := by
    rw [lookup_result]
    exact h
  have h2' : (startMiss cfg c a modeLoad (afterLocalLookup cfg c a cs)).hitL2 = true := by
    rw [startMiss_hitL2]
    exact h2
  unfold afterLocalLookup at h2'
  unfold loadOp afterLocalLookup
  simp only [Work.mk_l1] at h' ⊢
  simp only [h', h2', if_true, Bool.false_eq_true, if_false]

theorem loadOp_missL2Miss {cfg : Config} {c : CoreId} {a : Addr} {cs : Caches} (h : (cs.stateL1 cfg c a).isValid = false)
    (h2 : (cs.stateL2 cfg a).isValid = false) :
    loadOp cfg c a cs = fillFromMemory cfg c a modeLoad .E (startMiss cfg c a modeLoad (afterLocalLookup cfg c a cs)).way
      (startMiss cfg c a modeLoad (afterLocalLookup cfg c a cs)).work := by
  have h' : (lookup cfg.l1 ((Work.mk cs []).l1 c) a).1.isValid = false := by
    rw [lookup_result]
    exact h
  have h2' : (startMiss cfg c a modeLoad (afterLocalLookup cfg c a cs)).hitL2 = false := by
    rw [startMiss_hitL2]
    exact h2
  unfold afterLocalLookup at h2'
  unfold loadOp afterLocalLookup
  simp only [Work.mk_l1] at h' ⊢
  simp only [h', h2', Bool.false_eq_true, if_false]

theorem storeOp_hitOwner {cfg : Config} {c : CoreId} {a : Addr} {cs : Caches}
    (h : cs.stateL1 cfg c a = .found .M ∨ cs.stateL1 cfg c a = .found .E) :
    storeOp cfg c a cs = ((afterLocalLookup cfg c a cs).emit (.hit c a modeStore)).withL1 c
      (setState cfg.l1 .M a ((afterLocalLookup cfg c a cs).l1 c)) := by
  have h' : (lookup cfg.l1 ((Work.mk cs []).l1 c) a).1 = .found .M ∨
      (lookup cfg.l1 ((Work.mk cs []).l1 c) a).1 = .found .E := by
    rw [lookup_result]
    exact h
  unfold storeOp
  rcases h' with h' | h' <;> simp only [h'] <;> rfl

theorem storeOp_hitShared {cfg : Config} {c : CoreId} {a : Addr} {cs : Caches} (h : cs.stateL1 cfg c a = .found .S) :
    storeOp cfg c a cs = storeUpgrade cfg c a ((afterLocalLookup cfg c a cs).emit (.hit c a modeStore)) := by
  have h' : (lookup cfg.l1 ((Work.mk cs []).l1 c) a).1 = .found .S := by
    rw [lookup_result]
    exact h
  unfold storeOp
  simp only [h']
  rfl

theorem storeOp_miss {cfg : Config} {c : CoreId} {a : Addr} {cs : Caches} (h : (cs.stateL1 cfg c a).isValid = false) :
    storeOp cfg c a cs = storeMiss cfg c a (afterLocalLookup cfg c a cs) := by
  have h' : (lookup cfg.l1 ((Work.mk cs []).l1 c) a).1.isValid = false := by
    rw [lookup_result]
    exact h
  unfold storeOp
  cases hr : (lookup cfg.l1 ((Work.mk cs []).l1 c) a).1 with
  | notPresent =>
    simp only [hr]
    rfl
  | found st =>
    rw [hr] at h'
    cases st <;> simp [Lookup.isValid, Mesi.isValid] at h'
    simp only [hr]
    rfl

theorem storeMiss_l2Hit {cfg : Config} {c : CoreId} {a : Addr} {k : Work} (h2 : (probe cfg.l2 k.l2 a).isValid = true) :
    storeMiss cfg c a k = storeFromPeer cfg c a (startMiss cfg c a modeStore k).way (startMiss cfg c a modeStore k).work := by
  unfold storeMiss
  simp only [startMiss_hitL2, h2, if_true]

theorem storeMiss_l2Miss {cfg : Config} {c : CoreId} {a : Addr} {k : Work} (h2 : (probe cfg.l2 k.l2 a).isValid = false) :
    storeMiss cfg c a k =
      fillFromMemory cfg c a modeStore .M (startMiss cfg c a modeStore k).way (startMiss cfg c a modeStore k).work := by
  unfold storeMiss
  simp only [startMiss_hitL2, h2, Bool.false_eq_true, if_false]

end Sys2Proof.Machine
end

