-- ==== Sys2Proof/Laws/PerInstr.lean ====
section
/-! SUPPORT. Facts proved one constructor at a time. Family EncodeFits: the word of a well-formed operation fits its
`ADDR_W + 8` bits, and its fields read back (spec R72). -/

namespace Sys2Proof.Laws

/-- A mode code above an address of `addrW` bits. -/
theorem modeOverAddr {addrW a : Nat} (mode : ModeCode) (ha : a < 2 ^ addrW) :
    ((mode.toNat <<< addrW) ||| a) < 2 ^ (addrW + 8) ∧
      wordMode addrW ((mode.toNat <<< addrW) ||| a) = mode ∧ wordAddr addrW ((mode.toNat <<< addrW) ||| a) = a := by
  rw [← Nat.shiftLeft_add_eq_or_of_lt ha, Nat.shiftLeft_eq]
  have hm : mode.toNat < 2 ^ 8 := mode.isLt
  have hq : (mode.toNat * 2 ^ addrW + a) / 2 ^ addrW = mode.toNat := by
    rw [Nat.add_comm, Nat.add_mul_div_right _ _ (Nat.two_pow_pos _), Nat.div_eq_of_lt ha, Nat.zero_add]
  refine ⟨?_, ?_, ?_⟩
  · calc mode.toNat * 2 ^ addrW + a < mode.toNat * 2 ^ addrW + 2 ^ addrW := by omega
      _ = (mode.toNat + 1) * 2 ^ addrW := by ring
      _ ≤ 2 ^ 8 * 2 ^ addrW := Nat.mul_le_mul_right _ hm
      _ = 2 ^ (addrW + 8) := by rw [Nat.pow_add, Nat.mul_comm]
  · rw [wordMode, Nat.shiftRight_eq_div_pow, hq, BitVec.ofNat_toNat, BitVec.setWidth_eq]
  · rw [wordAddr, Nat.add_comm, Nat.add_mul_mod_self_right, Nat.mod_eq_of_lt ha]

namespace EncodeFits

/-- The word fits, and its `mode` and `addr` fields are the operation's. -/
def Statement (i : Instr) : Prop :=
  ∀ addrW : Nat, i.WellFormed addrW →
    encode addrW i < 2 ^ (addrW + 8) ∧ wordMode addrW (encode addrW i) = i.mode ∧ wordAddr addrW (encode addrW i) = i.addr

theorem load (addr : Addr) : Statement (.load addr) := fun _ h => modeOverAddr modeLoad h.1

theorem store (addr : Addr) : Statement (.store addr) := fun _ h => modeOverAddr modeStore h.1

theorem invalidAction (mode : ModeCode) (addr : Addr) : Statement (.invalidAction mode addr) :=
  fun _ h => modeOverAddr mode h.1

end EncodeFits

end Sys2Proof.Laws
end

