-- ==== Sys2Proof/Laws/Step.lean ====
section
/-! SUPPORT. What one step can do (spec R180, R181, R196, R198), said once: the cases of `exec`, of the scheduler's search and
of `step`. -/

namespace Sys2Proof.Machine

/-! ## exec -/

/-- The work of an operation on the caches. -/
def opOf : Instr → Config → CoreId → Addr → Caches → Work
  | .load _ => loadOp
  | .store _ => storeOp
  | .invalidAction mode _ => invalidActionOp mode

theorem exec_eq (i : Instr) (s : State) : exec i s = runRecord (opOf i) i.addr s := by cases i <;> rfl

/-- An operation on an address in range completes (R181). -/
theorem exec_inRange {i : Instr} {s : State} (h : inRange s.cfg i.addr) :
    exec i s = .next (completeRecord s.issuing (opOf i s.cfg s.issuing i.addr s.caches) s) := by
  rw [exec_eq, runRecord, if_pos h]

/-- An operation on any other address raises AddressOutOfRange (R55, R213). -/
theorem exec_outOfRange {i : Instr} {s : State} (h : ¬ inRange s.cfg i.addr) :
    exec i s = .next (raiseFault (.addressOutOfRange s.issuing (s.cur.get s.issuing) i.addr) s) := by
  rw [exec_eq, runRecord, if_neg h]

/-- What `exec` can do: complete the record, or raise the one fault. -/
theorem exec_cases {i : Instr} {s t : State} (h : exec i s = .next t) :
    (inRange s.cfg i.addr ∧ t = completeRecord s.issuing (opOf i s.cfg s.issuing i.addr s.caches) s) ∨
      (¬ inRange s.cfg i.addr ∧ t = raiseFault (.addressOutOfRange s.issuing (s.cur.get s.issuing) i.addr) s) := by
  by_cases ha : inRange s.cfg i.addr
  · rw [exec_inRange ha] at h
    exact .inl ⟨ha, (Host.Outcome.next.inj h).symm⟩
  · rw [exec_outOfRange ha] at h
    exact .inr ⟨ha, (Host.Outcome.next.inj h).symm⟩

/-! ## The scheduler -/

theorem searchSlot_some {s : State} {c : CoreId} {n : Nat} :
    ∀ {fuel slot : Nat}, searchSlot s fuel slot = some (c, n) → ¬ s.exhausted c ∧ ∃ k, c = slotOwner s.cfg k ∧ n = slotAfter s.cfg k
  | 0, _, h => by simp [searchSlot] at h
  | fuel + 1, slot, h => by
    unfold searchSlot at h
    split at h
    · exact searchSlot_some h
    · rename_i hne
      obtain ⟨rfl, rfl⟩ := Prod.mk.inj (Option.some.inj h)
      exact ⟨hne, slot, rfl, rfl⟩

/-- The scheduler chooses a core with an item left, and only moves the slot and records the core (R196). -/
theorem nextCore_some {s s1 : State} {c : CoreId} (h : nextCore s = some (c, s1)) :
    ¬ s.exhausted c ∧ ∃ n, s1 = chooseCore c n s ∧ (1 ≤ roundSlots s.cfg → n < roundSlots s.cfg) := by
  unfold nextCore at h
  split at h
  · rename_i c' n hs
    obtain ⟨rfl, rfl⟩ := Prod.mk.inj (Option.some.inj h)
    obtain ⟨hne, k, -, rfl⟩ := searchSlot_some hs
    exact ⟨hne, _, rfl, fun hr => Nat.mod_lt _ hr⟩
  · simp at h

/-- The item at the cursor of a core that has one left. -/
theorem fetchItem_eq {s : State} {c : CoreId} (h : ¬ s.exhausted c) :
    ∃ it, (s.stream c)[s.cur.get c]? = some it ∧ fetchItem s c = fetchedOf it := by
  have hlt : s.cur.get c < (s.stream c).length := by omega
  exact ⟨(s.stream c)[s.cur.get c], by simp [hlt], by simp [fetchItem, List.getD_eq_getElem?_getD, hlt]⟩

/-! ## step -/

/-- What a step that answers a next state has done: ended the run, faulted on a malformed item, or executed the chosen core's
record. -/
theorem step_cases {s t : State} (h : step s = .next t) :
    s.cfg.Wf ∧ s.run = .running ∧
      ((s.finished ∧ t = endRun s) ∨
        ∃ c n, ¬ s.finished ∧ nextCore s = some (c, chooseCore c n s) ∧ ¬ s.exhausted c ∧
          (1 ≤ roundSlots s.cfg → n < roundSlots s.cfg) ∧
          (((s.stream c)[s.cur.get c]? = some .malformed ∧
              t = raiseFault (.malformedRecord c (s.cur.get c)) (chooseCore c n s)) ∨
            ∃ a m, (s.stream c)[s.cur.get c]? = some (.record a m) ∧
              exec (selectInstr m a) (chooseCore c n s) = .next t)) := by
  unfold step at h
  split at h
  · rename_i hcfg
    split at h
    · simp at h
    · simp at h
    · rename_i hrun
      refine ⟨hcfg, hrun, ?_⟩
      split at h
      · rename_i hfin
        exact .inl ⟨hfin, (Host.Outcome.next.inj h).symm⟩
      · rename_i hfin
        split at h
        · simp at h
        · rename_i c s1 hn
          obtain ⟨hne, n, rfl, hlt⟩ := nextCore_some hn
          obtain ⟨it, hit, hf⟩ := fetchItem_eq (s := chooseCore c n s) hne
          refine .inr ⟨c, n, hfin, hn, hne, hlt, ?_⟩
          rw [hf] at h
          cases it with
          | malformed => exact .inl ⟨hit, (Host.Outcome.next.inj h).symm⟩
          | record a m => exact .inr ⟨a, m, hit, h⟩
  · simp at h

end Sys2Proof.Machine
end

