-- ==== Sys2Proof/Tests/Slice0.lean ====
section
/-! SUPPORT. The model's own tests. Expected results are taken from spec/95_test_vectors.md (named in each comment) or written
out from the rule named; then one witness for the hypotheses of every statement that has some. -/

namespace Sys2Proof.Tests

open Sys2Proof Sys2Proof.Machine

/-! ## Helpers: small machines -/

/-- A machine of configuration `cfg` with the caches `cs`, executing for core `c`. -/
def machine (cfg : Config) (cs : Caches) (c : CoreId) : State := { State.reset with cfg := cfg, caches := cs, issuing := c }

/-- What an outcome leaves; `s` itself if it is no next state. -/
def after (s : State) : Host.Outcome State Fault Refusal → State
  | .next t => t
  | .fault _ => s
  | .refused _ => s

/-- The events in the output. -/
def eventsOf (s : State) : List Event := outEvents s.out

/-- The geometry G17 of spec/95_test_vectors.md. -/
def g17 : Config := { Config.default with l2Ib := 17 }

/-- A line that has held nothing. -/
def e : Line := ⟨none, .I⟩

/-! ## WellFormed: an ill-formed term for each check -/

theorem test_wf_address_too_wide : ¬ (Instr.load 0x100000000).WellFormed 32 := by decide
theorem test_wf_store_address_too_wide : ¬ (Instr.store 0x100000000).WellFormed 32 := by decide
theorem test_wf_invalid_action_address_too_wide : ¬ (Instr.invalidAction 0x58 0x100000000).WellFormed 32 := by decide
theorem test_wf_invalid_action_with_load_mode : ¬ (Instr.invalidAction 0x4C 0x80).WellFormed 32 := by decide
theorem test_wf_invalid_action_with_store_mode : ¬ (Instr.invalidAction 0x53 0x80).WellFormed 32 := by decide
theorem test_wf_accepts : (Instr.load 0xFFFFFFFF).WellFormed 32 ∧ (Instr.invalidAction 0x58 0x100).WellFormed 32 := by decide

/-! ## Configurations: one that fails each condition of R8 -/

theorem test_cfg_offsets_differ : ¬ ({ Config.default with l2Ob := 6 } : Config).Wf := by decide
theorem test_cfg_l1_too_wide : ¬ ({ Config.default with l1Ib := 28 } : Config).Wf := by decide
theorem test_cfg_l2_too_wide : ¬ ({ Config.default with l2Ib := 28 } : Config).Wf := by decide
theorem test_cfg_no_way_or_ratio : ¬ ({ Config.default with l1Ways := 0 } : Config).Wf ∧
    ¬ ({ Config.default with l2Ways := 0 } : Config).Wf ∧ ¬ ({ Config.default with ratio1 := 0 } : Config).Wf ∧
    ¬ ({ Config.default with ratio2 := 0 } : Config).Wf := by decide

/-! ## Decode: words written out bit by bit from R72 and R73 -/

/-- mode 0100 1100, address 0x84 (vector LD-1) -/
theorem test_decode_load :
    decodeWord 32 0b0100110000000000000000000000000010000100 = .instr (.load 0x84) := by decide

/-- mode 0101 0011, address 0x1000 (vector ST-5) -/
theorem test_decode_store :
    decodeWord 32 0b0101001100000000000000000001000000000000 = .instr (.store 0x1000) := by decide

/-- mode 0101 1000, address 0x100 (vector IA-1) -/
theorem test_decode_invalid_action :
    decodeWord 32 0b0101100000000000000000000000000100000000 = .instr (.invalidAction 0x58 0x100) := by decide

/-- mode 0111 0011, lower case s (vector IA-4) -/
theorem test_decode_lower_case : decodeTableWord 40 0x7300000080 = some (.invalidAction 0x73 0x80) := by decide

/-- the top address (vector F-3) -/
theorem test_decode_top_address : decodeTableWord 40 0x4CFFFFFFFF = some (.load 0xFFFFFFFF) := by decide

/-- a 41-bit number is no word (R72) -/
theorem test_decode_too_wide : decodeWord 32 0x14C00000084 = .rejected .wordTooWide := by decide

/-- the words of vectors LD-1, ST-5 and IA-1, by the encoder -/
theorem test_encode : encode 32 (.load 0x84) = 0x4C00000084 ∧ encode 32 (.store 0x1000) = 0x5300001000 ∧
    encode 32 (.invalidAction 0x58 0x100) = 0x5800000100 := by decide

/-! ## Addresses (section 2 of the vectors) -/

theorem test_address_fields : decodeAddr Config.default.l1 0xDEADBEEF = ⟨0x6DF7, 0x6F5, 0xF⟩ ∧
    decodeAddr Config.default.l2 0xDEADBEEF = ⟨0xDF7, 0x6F56, 0xF⟩ ∧ lineAddr Config.default 0xDEADBEEF = 0xDEADBEE0 ∧
    (decodeAddr g17.l2 0xDEADBEEF).index = 0x16DF7 ∧ (decodeAddr g17.l2 0xDEADBEEF).tag = 0x37A := by decide

theorem test_address_encode : encodeAddr Config.default.l1 0xA2B3 0x91 0x18 = 0x12345678 ∧
    encodeAddr Config.default.l2 0x2 0x10 0 = 0x200040 := by decide

/-! ## Primitives (section 3 of the vectors: set 0x80 as prepared there) -/

/-- The prepared set of section 3. -/
def prepared (lru : List Nat) : Cache := [(0x80, ⟨[⟨some 0, .I⟩, ⟨some 1, .E⟩], lru⟩)]

/-- PR-3, PR-4: an Invalid match touches, no match does not. -/
theorem test_lookup : lookup Config.default.l1 (prepared [0, 1]) 0x1004 = (.found .I, prepared [1, 0]) ∧
    lookup Config.default.l1 (prepared [0, 1]) 0x401000 = (.notPresent, prepared [0, 1]) := by decide

/-- PR-8, PR-9, PR-10: the matching way, else the least recently used one. -/
theorem test_fillWay : fillWay Config.default.l1 (prepared [1, 0]) 0x1000 = 0 ∧
    fillWay Config.default.l1 (prepared [0, 1]) 0x401000 = 0 ∧
    fillWay Config.default.l1 (prepared [1, 0]) 0x401000 = 1 := by decide

/-- PR-11, PR-12. -/
theorem test_install : install Config.default.l1 .E 1 0x401000 (prepared [1, 0]) =
      [(0x80, ⟨[⟨some 0, .I⟩, ⟨some 2, .E⟩], [0, 1]⟩)] ∧
    victimAddress Config.default.l1 (prepared [1, 0]) 0x401000 = some 0x201000 := by decide

/-- A set written back to its reset contents leaves the list (canonical form). -/
theorem test_array_canonical : putAt Config.default.l1 (prepared [0, 1]) 0x1000 (resetSet Config.default.l1) = [] := by decide

/-! ## Operations -/

/-- The start of vector LD-5: core 1 holds `0x1000` in `M`. -/
def ld5 : State := machine Config.default ⟨⟨[(0x80, ⟨[⟨some 0, .M⟩, e], [1, 0]⟩)], []⟩, [(0x80, ⟨[⟨some 0, .S⟩], [0]⟩)]⟩ .core2

/-- The start of vector LD-12, in G17. -/
def ld12 : State := machine g17 ⟨⟨[(0x2, ⟨[⟨some 0, .M⟩, ⟨some 1, .E⟩], [0, 1]⟩)], []⟩,
  [(0x2, ⟨[⟨some 0, .S⟩], [0]⟩), (0x10002, ⟨[⟨some 0, .S⟩], [0]⟩)]⟩ .core1

/-- The start of vector ST-3: both cores hold `0x80` in `S`. -/
def st3 : State := machine Config.default ⟨⟨[(0x4, ⟨[⟨some 0, .S⟩, e], [1, 0]⟩)], [(0x4, ⟨[⟨some 0, .S⟩, e], [1, 0]⟩)]⟩,
  [(0x4, ⟨[⟨some 0, .S⟩], [0]⟩)]⟩ .core1

/-- LD-5: the source's snoop example. -/
theorem test_load_snoops_modified : eventsOf (after ld5 (exec (.load 0x1000) ld5)) =
      [.missL1 .core2 0x1000 0x4C, .writeback .core2 0x1000 (.l1 .core1) .l2, .invalidate .core2 0x1000 .core1] ∧
    (after ld5 (exec (.load 0x1000) ld5)).caches =
      ⟨⟨[(0x80, ⟨[⟨some 0, .I⟩, e], [1, 0]⟩)], [(0x80, ⟨[⟨some 0, .E⟩, e], [1, 0]⟩)]⟩,
        [(0x80, ⟨[⟨some 0, .S⟩], [0]⟩)]⟩ := by decide

/-- LD-12: the local victim is written back to the L2, which writes it back to memory. -/
theorem test_load_two_writebacks : eventsOf (after ld12 (exec (.load 0x400040) ld12)) =
      [.missL1 .core1 0x400040 0x4C, .writeback .core1 0x40 (.l1 .core1) .l2, .missL2 .core1 0x400040 0x4C,
        .writeback .core1 0x40 .l2 .mem] ∧
    (after ld12 (exec (.load 0x400040) ld12)).caches.l1.core1 =
      [(0x2, ⟨[⟨some 2, .E⟩, ⟨some 1, .E⟩], [1, 0]⟩)] := by decide

/-- ST-3: write upgrade. -/
theorem test_store_upgrades : eventsOf (after st3 (exec (.store 0x80) st3)) =
      [.hit .core1 0x80 0x53, .invalidate .core1 0x80 .core2] ∧
    (after st3 (exec (.store 0x80) st3)).caches =
      ⟨⟨[(0x4, ⟨[⟨some 0, .M⟩, e], [1, 0]⟩)], [(0x4, ⟨[⟨some 0, .I⟩, e], [1, 0]⟩)]⟩,
        [(0x4, ⟨[⟨some 0, .S⟩], [0]⟩)]⟩ := by decide

/-- The start of vector ST-10: core 2 holds `0x0` in `M`. -/
def st10 : State := machine Config.default ⟨⟨[], [(0x0, ⟨[⟨some 0, .M⟩, e], [1, 0]⟩)]⟩, [(0x0, ⟨[⟨some 0, .S⟩], [0]⟩)]⟩ .core1

/-- ST-10: the L2 victim is written back from the peer and back-invalidated. -/
theorem test_store_back_invalidates : eventsOf (after st10 (exec (.store 0x20000) st10)) =
      [.missL1 .core1 0x20000 0x53, .missL2 .core1 0x20000 0x53, .writeback .core1 0x0 (.l1 .core2) .mem,
        .invalidate .core1 0x0 .core2] ∧
    (after st10 (exec (.store 0x20000) st10)).caches =
      ⟨⟨[(0x1000, ⟨[⟨some 0, .M⟩, e], [1, 0]⟩)], [(0x0, ⟨[⟨some 0, .I⟩, e], [1, 0]⟩)]⟩,
        [(0x0, ⟨[⟨some 1, .S⟩], [0]⟩)]⟩ := by decide

/-- IA-2 (lower-case l): one event, one count, no recency change. -/
theorem test_invalid_action : eventsOf (after st3 (exec (.invalidAction 0x6C 0x80) st3)) = [.invalidAction .core1 0x80 0x6C] ∧
    (after st3 (exec (.invalidAction 0x6C 0x80) st3)).caches = st3.caches ∧
    (after st3 (exec (.invalidAction 0x6C 0x80) st3)).counters = ⟨⟨1, 0⟩, ⟨0, 0⟩, 0⟩ := by decide

/-! ## Faults, scheduler, end of a run -/

/-- IA-5: the address is checked before the mode. -/
theorem test_address_out_of_range :
    (after State.reset (step (placeNext State.reset (.record 0x100000000 0x58)))).run =
      .faulted (.addressOutOfRange .core1 0 0x100000000) := by decide

/-- F-7, last step: core 2's malformed first item, slot 3. -/
theorem test_malformed : (after State.reset (step (placeNext { State.reset with slot := 3 } .malformed))).run =
      .faulted (.malformedRecord .core2 0) ∧
    (after State.reset (step (placeNext { State.reset with slot := 3 } .malformed))).slot = 0 := by decide

/-- F-4, F-5: missing traces, core 1 reported first. -/
theorem test_missing_trace : (resetWith Config.default (some []) none).run = .faulted (.missingTrace .core2) ∧
    (resetWith Config.default none none).run = .faulted (.missingTrace .core1) := by decide

/-- F-6: two empty streams end in one step. -/
theorem test_empty_streams : (after State.reset (step State.reset)).run = .done ∧
    (after State.reset (step State.reset)).out = [] := by decide

/-- SC-2, second step: slots 1 and 2 of the exhausted core 1 are skipped. -/
theorem test_slots_skipped : (nextCore { State.reset with
      streams := ⟨[.record 0 0x4C], [.record 0 0x4C]⟩, cur := ⟨1, 0⟩, slot := 1 }).map (fun r => (r.1, r.2.slot)) =
    some (.core2, 0) := by decide

/-- A counter at `2^64 - 1` reads 0 after one more (section 9). -/
theorem test_counter_wraps : bump Config.default (2 ^ 64 - 1) = 0 := by decide

/-- A placed word runs first: LOAD `0x80` from reset, the counters of vector LD-4. -/
theorem test_first_word :
    (after State.reset (step (State.reset.withFetchWord 40 0x4C00000080))).counters = ⟨⟨1, 0⟩, ⟨1, 0⟩, 1⟩ := by decide

/-! ## The host's side -/

/-- R80, R82: the codes of the Writeback of vector LD-5. -/
theorem test_event_record : (Event.writeback .core2 0x1000 (.l1 .core1) .l2).record =
    ⟨3, 2, 0x1000, none, some 1, some 3, none⟩ := by decide

/-- R79: an L1 line `{tag 1, E}` is `1 00000000001 10` in 14 bits. -/
theorem test_stored_line : Line.stored 11 ⟨some 1, .E⟩ = 0b10000000000110 := by decide

/-- R71: the text lines of vectors IA-3 and section 7. -/
theorem test_transcribe : transcribeLine .sixteen "80 LS".toList = .record 0x80 0x00 ∧
    transcribeLine .sixteen "zz L".toList = .malformed ∧ transcribeLine .sixteen "80".toList = .malformed ∧
    transcribeLine .ten "128 L".toList = .record 128 0x4C := by decide

/-! ## Witnesses: for each statement with hypotheses, a state and operands that meet them -/

/-- Does an outcome give a next state? -/
def isNext : Host.Outcome State Fault Refusal → Bool
  | .next _ => true
  | .fault _ => false
  | .refused _ => false

theorem next_after (s : State) : ∀ {o : Host.Outcome State Fault Refusal}, isNext o = true → o = .next (after s o)
  | .next _, _ => rfl
  | .fault _, h => by cases h
  | .refused _, h => by cases h

theorem structOk_machine {cfg : Config} {cs : Caches} {c : CoreId} (h : cfg.Wf) (hc : CachesOk cfg cs) :
    StructOk (machine cfg cs c) := by
  have hp : 0 < 2 ^ cfg.cntW := Nat.two_pow_pos _
  have hs : 0 < roundSlots cfg := Nat.add_pos_left h.2.2.2.2.2.1 _
  exact ⟨h, hc, ⟨hp, hp, hp, hp, hp⟩, Nat.le_refl 0, Nat.le_refl 0, hs⟩

/-- The start of vector LD-1 (line `0x80`): core 1 holds it in `E`, the L2 in `S`; core `c` issues. -/
def held (c : CoreId) : State := machine Config.default ⟨⟨[(0x4, ⟨[⟨some 0, .E⟩, e], [1, 0]⟩)], []⟩, [(0x4, ⟨[⟨some 0, .S⟩], [0]⟩)]⟩ c

/-- In G17, core 1 holds `0x80` in `st1` and the L2 in `st2`; core `c` issues. -/
def held17 (st1 st2 : Mesi) (c : CoreId) : State :=
  machine g17 ⟨⟨[(0x4, ⟨[⟨some 0, st1⟩, e], [1, 0]⟩)], []⟩, [(0x4, ⟨[⟨some 0, st2⟩], [0]⟩)]⟩ c

/-- `held`, running, with one item for each core. -/
def busy (i1 i2 : Item) : State := { held .core1 with streams := ⟨[i1], [i2]⟩ }

theorem held_ok (c : CoreId) : StructOk (held c) := structOk_machine (by decide) (by decide)
theorem ld5_ok : StructOk ld5 := structOk_machine (by decide) (by decide)
theorem ld12_ok : StructOk ld12 := structOk_machine (by decide) (by decide)
theorem st3_ok : StructOk st3 := structOk_machine (by decide) (by decide)
theorem st10_ok : StructOk st10 := structOk_machine (by decide) (by decide)
theorem busy_ok (i1 i2 : Item) : StructOk (busy i1 i2) :=
  ⟨(held_ok .core1).1, (held_ok .core1).2.1, (held_ok .core1).2.2.1, Nat.zero_le _, Nat.zero_le _, (held_ok .core1).2.2.2.2.2⟩

/-! ### Reset, configurations, addresses, words -/

theorem witness_ResetLeavesSpecifiedState : Config.default.Wf ∧ g17.Wf := by decide

/-- One configuration that fails the first condition alone, and one that passes each with nothing to spare. -/
theorem witness_IllFormedConfigRefused :
    (∃ s : State, ¬(s.cfg.l1Ob = s.cfg.l2Ob ∧ s.cfg.l1Ob + s.cfg.l1Ib ≤ s.cfg.addrW ∧ s.cfg.l2Ob + s.cfg.l2Ib ≤ s.cfg.addrW ∧
      s.cfg.l1Ways ≥ 1 ∧ s.cfg.l2Ways ≥ 1 ∧ s.cfg.ratio1 ≥ 1 ∧ s.cfg.ratio2 ≥ 1)) ∧
    (⟨0, 0, 0, 1, 0, 0, 1, 1, 1, 0, none⟩ : Config).Wf :=
  ⟨⟨machine { Config.default with l2Ob := 6 } Caches.reset .core1, by decide⟩, by decide⟩

/-- The top address, and the largest index, offset and tag. -/
theorem witness_AddressCodecRoundTrip :
    32 = Config.default.l1.ob + Config.default.l1.ib + Config.default.l1.tw ∧ 0xFFFFFFFF < 2 ^ 32 ∧
      0xFFFF < 2 ^ Config.default.l1.ib ∧ 0x1F < 2 ^ Config.default.l1.ob ∧ 0x7FF < 2 ^ Config.default.l1.tw := by decide

theorem witness_LineAddressSelectsLine : Config.default.Wf := by decide

theorem witness_OffsetDoesNotMatter : ld5.cfg.Wf ∧ inRange ld5.cfg 0x1000 ∧
    lineAddr ld5.cfg 0x1000 = lineAddr ld5.cfg 0x101F := by decide

theorem witness_DecodeEncodeRoundTrip : (Instr.load 0xFFFFFFFF).WellFormed 32 ∧ (Instr.store 0).WellFormed 32 ∧
    (Instr.invalidAction 0xFF 0x80).WellFormed 32 := by decide

theorem witness_EveryWordDecodes : 0xFFFFFFFFFF < 2 ^ (32 + 8) := by decide

theorem witness_ModeSelectsOperation : 0xFFFFFFFF < 2 ^ 32 ∧ (0x4CFFFFFFFF#40).extractLsb 39 32 = 0x4C#8 ∧
    (0x5300000000#40).extractLsb 39 32 = 0x53#8 ∧
    ((0x4D00000080#40).extractLsb 39 32 ≠ 0x4C#8 ∧ (0x4D00000080#40).extractLsb 39 32 ≠ 0x53#8) := by decide

/-! ### The step, the scheduler, the end -/

/-- LOAD `0x84` for core 1 is next; it is what the word `0x4C00000084` stands for. -/
theorem witness_StepRunsDecodedItem : ∃ s1, (busy (.record 0x84 0x4C) .malformed).cfg.Wf ∧
    (busy (.record 0x84 0x4C) .malformed).run = .running ∧ ¬ (busy (.record 0x84 0x4C) .malformed).finished ∧
    nextCore (busy (.record 0x84 0x4C) .malformed) = some (.core1, s1) ∧
    ((busy (.record 0x84 0x4C) .malformed).stream .core1)[(busy (.record 0x84 0x4C) .malformed).cur.get .core1]? =
      some (.record 0x84 0x4C) ∧
    itemOfWord (busy (.record 0x84 0x4C) .malformed).cfg.addrW 0x4C00000084 = .record 0x84 0x4C ∧
    decodeWord (busy (.record 0x84 0x4C) .malformed).cfg.addrW 0x4C00000084 = .instr (.load 0x84) :=
  ⟨chooseCore .core1 1 (busy (.record 0x84 0x4C) .malformed), by decide⟩

theorem witness_PlacedWordRunsNext : (held .core2).cfg.Wf ∧
    decodeWord (held .core2).cfg.addrW (0x5300000080 % 2 ^ 40) = .instr (.store 0x80) := by decide

theorem witness_RunEndsExactlyWhenExhausted : State.reset.cfg.Wf ∧ State.reset.run = .running ∧
    State.reset.cur.core1 = State.reset.streams.core1.length ∧ State.reset.cur.core2 = State.reset.streams.core2.length ∧
    step State.reset = .next (after State.reset (step State.reset)) ∧
    (after State.reset (step State.reset)).run = .done :=
  ⟨by decide, rfl, rfl, rfl, next_after _ (by decide), by decide⟩

theorem witness_NoStepAfterTheEnd : (endRun State.reset).cfg.Wf ∧ (endRun State.reset).run = .done ∧
    (raiseFault (.malformedRecord .core1 0) State.reset).run = .faulted (.malformedRecord .core1 0) := by decide

theorem witness_MalformedItemFaults : ∃ s1, (busy .malformed .malformed).cfg.Wf ∧ (busy .malformed .malformed).run = .running ∧
    ¬ (busy .malformed .malformed).finished ∧ nextCore (busy .malformed .malformed) = some (.core1, s1) ∧
    ((busy .malformed .malformed).stream .core1)[(busy .malformed .malformed).cur.get .core1]? = some .malformed :=
  ⟨chooseCore .core1 1 (busy .malformed .malformed), by decide⟩

/-- The least address that is too large, in a record and in each operation. -/
theorem witness_AddressOutOfRangeFaults : (∃ s1, (busy (.record 0x100000000 0x4C) .malformed).cfg.Wf ∧
    (busy (.record 0x100000000 0x4C) .malformed).run = .running ∧
    ¬ (busy (.record 0x100000000 0x4C) .malformed).finished ∧
    nextCore (busy (.record 0x100000000 0x4C) .malformed) = some (.core1, s1) ∧
    ((busy (.record 0x100000000 0x4C) .malformed).stream .core1)[(busy (.record 0x100000000 0x4C) .malformed).cur.get .core1]? =
      some (.record 0x100000000 0x4C) ∧ 0x100000000 ≥ 2 ^ (busy (.record 0x100000000 0x4C) .malformed).cfg.addrW) ∧
    (Instr.store 0x100000000).addr ≥ 2 ^ (held .core1).cfg.addrW :=
  ⟨⟨chooseCore .core1 1 (busy (.record 0x100000000 0x4C) .malformed), by decide⟩, by decide⟩

/-- Core 1's last slot, and core 2's. -/
theorem witness_SchedulerTakesFirstOpenSlot (slot : Nat) (h : slot ∈ [0, 2, 3]) :
    ({ busy .malformed .malformed with slot := slot } : State).cfg.Wf ∧
      slot < Config.default.ratio1 + Config.default.ratio2 ∧
      ¬ ({ busy .malformed .malformed with slot := slot } : State).finished := by
  refine ⟨(held_ok .core1).1, ?_, fun hf => Nat.not_succ_le_zero 0 hf.1⟩
  revert slot
  decide

theorem witness_FirstStepTakesFirstItem : Config.default.Wf := by decide

/-- Two machines with other addresses, modes and caches, in step. -/
theorem witness_OrderIgnoresContents :
    let s := busy (.record 0x84 0x53) .malformed
    let s' := machine g17 Caches.reset .core2
    let s'' := { s' with streams := ⟨[.record 0x1000 0x58], [.record 0 0]⟩ }
    s.cfg.ratio1 = s''.cfg.ratio1 ∧ s.cfg.ratio2 = s''.cfg.ratio2 ∧ s.slot = s''.slot ∧ s.cur = s''.cur ∧
      (∀ c, (s.stream c).length = (s''.stream c).length) ∧ step s = .next (after s (step s)) ∧
      step s'' = .next (after s'' (step s'')) ∧ (after s (step s)).run = .running ∧
      (after s'' (step s'')).run = .running := by
  refine ⟨rfl, rfl, rfl, rfl, ?_, next_after _ (by decide), next_after _ (by decide), by decide, by decide⟩
  intro c
  cases c <;> rfl

theorem witness_StepMovesForward : step (busy (.record 0x84 0x53) .malformed) =
    .next (after State.reset (step (busy (.record 0x84 0x53) .malformed))) := next_after _ (by decide)

theorem witness_EveryRunEnds : StructOk (busy (.record 0x84 0x53) (.record 0x80 0x4C)) ∧
    (busy (.record 0x84 0x53) (.record 0x80 0x4C)).run = .running := ⟨busy_ok _ _, rfl⟩

/-! ### LOAD -/

theorem witness_LoadHit : StructOk (held .core1) ∧ inRange (held .core1).cfg 0x84 ∧
    ((held .core1).stateL1 (held .core1).issuing 0x84).isValid = true := ⟨held_ok _, by decide, by decide⟩

theorem witness_LoadMissPeerModified : StructOk ld5 ∧ inRange ld5.cfg 0x1000 ∧
    (ld5.stateL1 ld5.issuing 0x1000).isValid = false ∧ (ld5.stateL2 0x1000).isValid = true ∧
    ld5.stateL1 (peer ld5.issuing) 0x1000 = .found .M := ⟨ld5_ok, by decide⟩

theorem witness_LoadMissPeerShared : StructOk (held17 .S .S .core2) ∧ inRange g17 0x80 ∧
    ((held17 .S .S .core2).stateL1 .core2 0x80).isValid = false ∧ ((held17 .S .S .core2).stateL2 0x80).isValid = true ∧
    (held17 .S .S .core2).stateL1 (peer .core2) 0x80 = .found .S :=
  ⟨structOk_machine (by decide) (by decide), by decide⟩

theorem witness_LoadMissPeerExclusive : StructOk (held .core2) ∧ inRange (held .core2).cfg 0x80 ∧
    ((held .core2).stateL1 (held .core2).issuing 0x80).isValid = false ∧ ((held .core2).stateL2 0x80).isValid = true ∧
    (held .core2).stateL1 (peer (held .core2).issuing) 0x80 = .found .E := ⟨held_ok _, by decide⟩

/-- The peer's copy Invalid, the L2's Modified. -/
theorem witness_LoadMissPeerWithoutCopy : StructOk (held17 .I .M .core2) ∧ inRange g17 0x80 ∧
    ((held17 .I .M .core2).stateL1 .core2 0x80).isValid = false ∧ ((held17 .I .M .core2).stateL2 0x80).isValid = true ∧
    ((held17 .I .M .core2).stateL1 (peer .core2) 0x80).isValid = false :=
  ⟨structOk_machine (by decide) (by decide), by decide⟩

theorem witness_LoadMissBoth : StructOk ld12 ∧ inRange ld12.cfg 0x400040 ∧
    (ld12.stateL1 ld12.issuing 0x400040).isValid = false ∧ (ld12.stateL2 0x400040).isValid = false := ⟨ld12_ok, by decide⟩

/-! ### STORE and INVALID_ACTION -/

theorem witness_StoreHitOwner : (StructOk (held .core1) ∧ inRange (held .core1).cfg 0x80 ∧
      (held .core1).stateL1 (held .core1).issuing 0x80 = .found .E) ∧
    (StructOk { ld5 with issuing := .core1 } ∧ inRange ld5.cfg 0x1000 ∧ ld5.stateL1 .core1 0x1000 = .found .M) :=
  ⟨⟨held_ok _, by decide⟩, ld5_ok, by decide⟩

/-- With a valid peer copy, and without one. -/
theorem witness_StoreHitShared : (StructOk st3 ∧ inRange st3.cfg 0x80 ∧ st3.stateL1 st3.issuing 0x80 = .found .S ∧
      (st3.stateL1 (peer st3.issuing) 0x80).isValid = true) ∧
    (StructOk (held17 .S .S .core1) ∧ inRange g17 0x80 ∧ (held17 .S .S .core1).stateL1 .core1 0x80 = .found .S ∧
      ((held17 .S .S .core1).stateL1 .core2 0x80).isValid = false) :=
  ⟨⟨st3_ok, by decide⟩, structOk_machine (by decide) (by decide), by decide⟩

/-- With a Modified peer copy, and with an Invalid one. -/
theorem witness_StoreMissL2Hit : (StructOk ld5 ∧ inRange ld5.cfg 0x1000 ∧ (ld5.stateL1 ld5.issuing 0x1000).isValid = false ∧
      (ld5.stateL2 0x1000).isValid = true ∧ ld5.stateL1 (peer ld5.issuing) 0x1000 = .found .M) ∧
    (StructOk (held17 .I .M .core2) ∧ inRange g17 0x80 ∧ ((held17 .I .M .core2).stateL1 .core2 0x80).isValid = false ∧
      ((held17 .I .M .core2).stateL2 0x80).isValid = true) :=
  ⟨⟨ld5_ok, by decide⟩, structOk_machine (by decide) (by decide), by decide⟩

theorem witness_StoreMissBoth : StructOk st10 ∧ inRange st10.cfg 0x20000 ∧
    (st10.stateL1 st10.issuing 0x20000).isValid = false ∧ (st10.stateL2 0x20000).isValid = false := ⟨st10_ok, by decide⟩

theorem witness_InvalidActionOnlyReports : inRange st3.cfg 0xFFFFFFFF := by decide

/-! ### Every operation -/

/-- A hit, a miss of the L1 alone, a miss of both, and an Invalid-Action. -/
theorem witness_CountersFollowEvents : (StructOk st3 ∧ inRange st3.cfg (Instr.store 0x80).addr) ∧
    (StructOk ld5 ∧ inRange ld5.cfg (Instr.load 0x1000).addr) ∧ (StructOk st10 ∧ inRange st10.cfg (Instr.store 0x20000).addr) ∧
    inRange st3.cfg (Instr.invalidAction 0x6C 0x80).addr := ⟨⟨st3_ok, by decide⟩, ⟨ld5_ok, by decide⟩, ⟨st10_ok, by decide⟩, by decide⟩

theorem witness_OutcomeMatchesOperation : inRange ld5.cfg (Instr.load 0x1000).addr := by decide

/-- The peer's copy is Invalid, and least recently used. -/
theorem witness_PeerReadTouches : ∃ s : State, StructOk s ∧ inRange s.cfg 0x80 ∧ (s.stateL1 s.issuing 0x80).isValid = false ∧
    (s.stateL2 0x80).isValid = true ∧
    (setAt s.cfg.l1 (s.caches.l1.get (peer s.issuing)) 0x80).matchWay (decodeAddr s.cfg.l1 0x80).tag = some 0 :=
  ⟨machine g17 ⟨⟨[(0x4, ⟨[⟨some 0, .I⟩, ⟨some 1, .I⟩], [0, 1]⟩)], []⟩, [(0x4, ⟨[⟨some 0, .M⟩], [0]⟩)]⟩ .core2,
    structOk_machine (by decide) (by decide), by decide⟩

/-- G17: the local victim `0x40` is Modified, the L2 holds it and the line loaded. -/
def victim17 : State := machine g17 ⟨⟨[(0x2, ⟨[⟨some 0, .M⟩, ⟨some 1, .E⟩], [0, 1]⟩)], []⟩,
  [(0x2, ⟨[⟨some 0, .S⟩], [0]⟩), (0x10002, ⟨[⟨some 1, .S⟩], [0]⟩)]⟩ .core1

theorem witness_MissFrameOnL2Hit : StructOk victim17 ∧ inRange victim17.cfg 0x600040 ∧
    (victim17.stateL1 victim17.issuing 0x600040).isValid = false ∧ (victim17.stateL2 0x600040).isValid = true ∧
    exec (.load 0x600040) victim17 = .next (after victim17 (exec (.load 0x600040) victim17)) ∧
    victimAddress victim17.cfg.l1 (victim17.caches.l1.get victim17.issuing) 0x600040 = some 0x40 ∧
    lineAddr victim17.cfg 0x40 ≠ lineAddr victim17.cfg 0x600040 :=
  ⟨structOk_machine (by decide) (by decide), by decide, by decide, by decide, next_after _ (by decide), by decide, by decide⟩

/-- An L2 of two ways, whose matching way is the least recently used one. -/
theorem witness_MissFrameOnL2Hit_recency : ∃ s : State, StructOk s ∧ s.cfg.l2.ways = 2 ∧ inRange s.cfg 0x80 ∧
    (s.stateL1 s.issuing 0x80).isValid = false ∧ (s.stateL2 0x80).isValid = true ∧
    exec (.store 0x80) s = .next (after s (exec (.store 0x80) s)) ∧
    (setAt s.cfg.l2 s.caches.l2 0x80).matchWay (decodeAddr s.cfg.l2 0x80).tag = some 0 ∧
    (setAt s.cfg.l2 s.caches.l2 0x80).lru = [0, 1] :=
  ⟨machine { g17 with l2Ways := 2 } ⟨⟨[], []⟩, [(0x4, ⟨[⟨some 0, .M⟩, ⟨some 1, .S⟩], [0, 1]⟩)]⟩ .core2,
    structOk_machine (by decide) (by decide), by decide, by decide, by decide, by decide, next_after _ (by decide), by decide,
    by decide⟩

/-- The local victim `0x40` is Modified and not the L2 victim's line, which is `0x200040`. -/
theorem witness_MissFrameOnL2Miss_victims : StructOk ld12 ∧ inRange ld12.cfg 0x600040 ∧
    (ld12.stateL1 ld12.issuing 0x600040).isValid = false ∧ (ld12.stateL2 0x600040).isValid = false ∧
    exec (.load 0x600040) ld12 = .next (after ld12 (exec (.load 0x600040) ld12)) ∧
    victimAddress ld12.cfg.l1 (ld12.caches.l1.get ld12.issuing) 0x600040 = some 0x40 ∧
    victimAddress ld12.cfg.l2 ld12.caches.l2 0x600040 = some 0x200040 ∧
    lineAddr ld12.cfg 0x40 ≠ lineAddr ld12.cfg 0x200040 ∧ ld12.stateL1 ld12.issuing 0x40 = .found .M ∧
    ld12.stateL2 0x40 ≠ .notPresent :=
  ⟨ld12_ok, by decide, by decide, by decide, next_after _ (by decide), by decide, by decide, by decide, by decide, by decide⟩

/-- The local victim is the L2 victim's line too. -/
theorem witness_MissFrameOnL2Miss : StructOk ld12 ∧ inRange ld12.cfg 0x400040 ∧
    (ld12.stateL1 ld12.issuing 0x400040).isValid = false ∧ (ld12.stateL2 0x400040).isValid = false ∧
    exec (.load 0x400040) ld12 = .next (after ld12 (exec (.load 0x400040) ld12)) ∧
    victimAddress ld12.cfg.l1 (ld12.caches.l1.get ld12.issuing) 0x400040 = some 0x40 ∧
    victimAddress ld12.cfg.l2 ld12.caches.l2 0x400040 = some 0x40 ∧
    lineAddr ld12.cfg 0x40 ≠ lineAddr ld12.cfg 0x400040 :=
  ⟨ld12_ok, by decide, by decide, by decide, next_after _ (by decide), by decide, by decide, by decide⟩

/-! ### Sequences -/

theorem witness_ReadYourWrite : StructOk ld5 ∧ inRange ld5.cfg 0x1000 ∧ lineAddr ld5.cfg 0x1000 = lineAddr ld5.cfg 0x101F ∧
    ∃ u, exec (.store 0x1000) ld5 = .next u ∧ u.issuing = ld5.issuing :=
  ⟨ld5_ok, by decide, by decide, after ld5 (exec (.store 0x1000) ld5), next_after _ (by decide), by decide⟩

theorem witness_WriteAfterWrite : StructOk st3 ∧ inRange st3.cfg 0x80 ∧ lineAddr st3.cfg 0x80 = lineAddr st3.cfg 0x9F ∧
    ∃ u, exec (.store 0x80) st3 = .next u ∧ u.issuing = st3.issuing :=
  ⟨st3_ok, by decide, by decide, after st3 (exec (.store 0x80) st3), next_after _ (by decide), by decide⟩

/-- The tags 0, 1 and 2 of an empty 2-way set. -/
theorem witness_LruVictimOrder : Config.default.l1.ways = 2 ∧ CacheOk Config.default.l1 [] ∧
    (∀ a ∈ [0x40, 0x200040, 0x400040], (decodeAddr Config.default.l1 a).index = (decodeAddr Config.default.l1 0x40).index ∧
      (decodeAddr Config.default.l1 a).tag < 2 ^ Config.default.l1.tw ∧ probe Config.default.l1 [] a = .notPresent) ∧
    (decodeAddr Config.default.l1 0x40).tag ≠ (decodeAddr Config.default.l1 0x200040).tag ∧
    (decodeAddr Config.default.l1 0x40).tag ≠ (decodeAddr Config.default.l1 0x400040).tag ∧
    (decodeAddr Config.default.l1 0x200040).tag ≠ (decodeAddr Config.default.l1 0x400040).tag := by decide

/-- Two untouched lines of one L2 set, beside a line held. -/
theorem witness_MissesOfUntouchedLines : StructOk (held .core1) ∧
    (∀ a ∈ [0x1000, 0x21000], inRange (held .core1).cfg a ∧ Untouched (held .core1) a) ∧
    [0x1000, 0x21000].Pairwise (fun a b => lineAddr (held .core1).cfg a ≠ lineAddr (held .core1).cfg b) ∧
    lineAddr (held .core1).cfg 0x1000 = lineAddr (held .core1).cfg 0x1004 := by
  refine ⟨held_ok _, ?_, by decide, by decide⟩
  intro a ha
  simp only [List.mem_cons, List.not_mem_nil, or_false] at ha
  obtain rfl | rfl := ha <;> exact ⟨by decide, by decide, by decide, by decide⟩

/-! ### Invariants -/

/-- The caches of `held` are those two installs leave. -/
theorem held_caches (c : CoreId) : (held c).caches =
    ⟨⟨install Config.default.l1 .E (fillWay Config.default.l1 [] 0x80) 0x80 [], []⟩,
      install Config.default.l2 .S (fillWay Config.default.l2 [] 0x80) 0x80 []⟩ := by
  have h : ∀ d ∈ [CoreId.core1, CoreId.core2], (held d).caches =
      ⟨⟨install Config.default.l1 .E (fillWay Config.default.l1 [] 0x80) 0x80 [], []⟩,
        install Config.default.l2 .S (fillWay Config.default.l2 [] 0x80) 0x80 []⟩ := by decide
  exact h c (by cases c <;> decide)

/-- Where an address lies in the line held, the three caches hold it in `E`, not at all, and in `S`; elsewhere none does. -/
theorem held_states (c : CoreId) (a : Addr) :
    (SameLine Config.default.l1 a 0x80 ∧ (held c).stateL1 .core1 a = .found .E ∧ (held c).stateL1 .core2 a = .notPresent ∧
      (held c).stateL2 a = .found .S) ∨
    (¬ SameLine Config.default.l1 a 0x80 ∧ (held c).stateL1 .core1 a = .notPresent ∧
      (held c).stateL1 .core2 a = .notPresent ∧ (held c).stateL2 a = .notPresent) := by
  have h1 : (held c).stateL1 .core1 a = if SameLine Config.default.l1 a 0x80 then .found .E else .notPresent := by
    show probe Config.default.l1 ((held c).caches.l1.get .core1) a = _
    rw [held_caches, PerCore.get_core1, probe_install (cacheOk_reset _) (by decide) (by decide), probe_reset,
      show victimAddress Config.default.l1 [] 0x80 = none by decide]
    simp
  have h2 : (held c).stateL1 .core2 a = .notPresent := probe_reset _ a
  have h3 : (held c).stateL2 a = if SameLine Config.default.l1 a 0x80 then .found .S else .notPresent := by
    show probe Config.default.l2 (held c).caches.l2 a = _
    rw [held_caches, probe_install (cacheOk_reset _) (by decide) (by decide), probe_reset,
      show victimAddress Config.default.l2 [] 0x80 = none by decide]
    simp [sameLine_l1_iff_l2 (cfg := Config.default) rfl]
  by_cases h : SameLine Config.default.l1 a 0x80
  · exact .inl ⟨h, by rw [h1, if_pos h], h2, by rw [h3, if_pos h]⟩
  · exact .inr ⟨h, by rw [h1, if_neg h], h2, by rw [h3, if_neg h]⟩

theorem held_coherent (c : CoreId) : Coherent (held c).cfg (held c).caches where
  ownerAlone d a _ h := by
    rcases held_states c a with ⟨-, h1, h2, h3⟩ | ⟨-, h1, h2, h3⟩ <;> cases d <;> simp_all [peer, Lookup.isValid]
  sharedNoOwner d d' a _ h := by
    rcases held_states c a with ⟨-, h1, h2, h3⟩ | ⟨-, h1, h2, h3⟩ <;> cases d <;> simp_all
  inclusion d a _ h := by
    rcases held_states c a with ⟨-, h1, h2, h3⟩ | ⟨-, h1, h2, h3⟩ <;> cases d <;> simp_all [Lookup.isValid, Mesi.isValid]
  l2SharedOrModified a _ h := by
    rcases held_states c a with ⟨-, h1, h2, h3⟩ | ⟨-, h1, h2, h3⟩ <;> simp_all
  l2ModifiedAlone d a _ h := by
    rcases held_states c a with ⟨-, h1, h2, h3⟩ | ⟨-, h1, h2, h3⟩ <;> simp_all

theorem held_defaultFacts (c : CoreId) : DefaultFacts (held c).cfg (held c).caches where
  validIsRecent d a _ h := by
    rcases held_states c a with ⟨hs, h1, h2, h3⟩ | ⟨-, h1, h2, h3⟩ <;> cases d <;> simp_all [Lookup.isValid, Mesi.isValid]
    show (setAt Config.default.l1 ((held c).caches.l1.get .core1) a).matchWay (decodeAddr Config.default.l1 a).tag =
      (setAt Config.default.l1 ((held c).caches.l1.get .core1) a).lru.getLast?
    rw [setAt_congr _ hs.1, hs.2]
    cases c <;> decide
  noL2Modified a _ := by
    rcases held_states c a with ⟨-, h1, h2, h3⟩ | ⟨-, h1, h2, h3⟩ <;> simp_all
  l2HasCopy a _ h := by
    rcases held_states c a with ⟨-, h1, h2, h3⟩ | ⟨-, h1, h2, h3⟩
    · exact ⟨.core1, by simp_all [Lookup.isValid, Mesi.isValid]⟩
    · simp_all [Lookup.isValid]
  sharedInPairs d a _ h := by
    rcases held_states c a with ⟨-, h1, h2, h3⟩ | ⟨-, h1, h2, h3⟩ <;> cases d <;> simp_all

theorem held_inv (c : CoreId) : Inv (held c) := ⟨held_ok c, held_coherent c⟩

/-- `held`, with a Store of core 1 to the line it holds next, and a Load of core 2. -/
def nextBusy : State := busy (.record 0x84 0x53) (.record 0x80 0x4C)

theorem nextBusy_inv : Inv nextBusy := ⟨busy_ok _ _, held_coherent .core1⟩

theorem witness_StoreLeavesSoleOwner : Inv (held .core2) ∧ inRange (held .core2).cfg 0x80 := ⟨held_inv _, by decide⟩

theorem witness_StepKeepsStructure : StructOk nextBusy ∧ step nextBusy = .next (after nextBusy (step nextBusy)) :=
  ⟨busy_ok _ _, next_after _ (by decide)⟩

theorem witness_StepKeepsCoherence : Inv nextBusy ∧ step nextBusy = .next (after nextBusy (step nextBusy)) :=
  ⟨nextBusy_inv, next_after _ (by decide)⟩

theorem witness_ResetMeetsInvariants : Config.default.Wf ∧ g17.Wf := by decide

theorem witness_OneValidLinePerL1Set : Inv (held .core1) ∧ DefaultGeometry (held .core1).cfg ∧ inRange (held .core1).cfg 0x80 ∧
    inRange (held .core1).cfg 0x9F ∧
    (decodeAddr (held .core1).cfg.l1 0x80).index = (decodeAddr (held .core1).cfg.l1 0x9F).index ∧
    ((held .core1).stateL1 .core1 0x80).isValid = true ∧ ((held .core1).stateL1 .core1 0x9F).isValid = true :=
  ⟨held_inv _, by decide⟩

theorem witness_StepKeepsDefaultFacts : Inv nextBusy ∧ DefaultGeometry nextBusy.cfg ∧
    DefaultFacts nextBusy.cfg nextBusy.caches ∧ step nextBusy = .next (after nextBusy (step nextBusy)) :=
  ⟨nextBusy_inv, by decide, held_defaultFacts .core1, next_after _ (by decide)⟩

/-- A miss on another line of the L1 set that holds a valid line. -/
theorem witness_DefaultGeometryNoVictimWriteback : Inv (held .core1) ∧ DefaultGeometry (held .core1).cfg ∧
    DefaultFacts (held .core1).cfg (held .core1).caches ∧ inRange (held .core1).cfg 0x200080 ∧
    ((held .core1).stateL1 (held .core1).issuing 0x200080).isValid = false :=
  ⟨held_inv _, by decide, held_defaultFacts _, by decide⟩

/-! ### The host's side -/

theorem witness_StoredLineRoundTrip : (∀ t ∈ (⟨some 0x7FF, .M⟩ : Line).tag, t < 2 ^ Config.default.l1.tw) ∧
    (∀ t ∈ (⟨none, .I⟩ : Line).tag, t < 2 ^ Config.default.l1.tw) := by decide

/-- Three fields; a bad numeral; a one-character mode; a mode field of two characters, and one whose code is 256. -/
theorem witness_TranscriberMapsLines : (splitFields "80 L 1".toList).length ≠ 2 ∧
    (splitFields "8G L".toList = ["8G".toList, "L".toList] ∧ readNumeral .sixteen "8G".toList = none) ∧
    (splitFields "80 L".toList = ["80".toList, ['L']] ∧ readNumeral .sixteen "80".toList = some 0x80 ∧ 'L'.toNat < 256) ∧
    (splitFields "80 LS".toList = ["80".toList, ['L', 'S']] ∧ ['L', 'S'].length ≠ 1) ∧
    (Char.ofNat 255).toNat < 256 ∧ 256 ≤ (Char.ofNat 256).toNat := by decide

/-- Digits up to the largest of each radix, in both cases; `G`, and `A` in radix ten, are no digits. -/
theorem witness_NumeralHasItsValue :
    ([(15, true), (0, false), (10, false)] ≠ ([] : List (Nat × Bool)) ∧
      ∀ d ∈ [(15, true), (0, false), (10, false)], d.1 < radixBase .sixteen) ∧
    ([(9, true), (0, false)] ≠ ([] : List (Nat × Bool)) ∧ ∀ d ∈ [(9, true), (0, false)], d.1 < radixBase .ten) ∧
    ('G' ∈ ['8', 'G'] ∧ ∀ d < radixBase .sixteen, 'G' ≠ Nat.digitChar d ∧ 'G' ≠ (Nat.digitChar d).toUpper) ∧
    ('A' ∈ ['1', 'A'] ∧ ∀ d < radixBase .ten, 'A' ≠ Nat.digitChar d ∧ 'A' ≠ (Nat.digitChar d).toUpper) := by decide

/-- A 3-way set, its middle way touched, and its most recently used one. -/
theorem witness_TouchKeepsOtherOrder : SetOk ⟨1, 1, 4, 3⟩ ⟨[e, ⟨some 1, .S⟩, ⟨some 2, .M⟩], [0, 2, 1]⟩ ∧ 2 < 3 ∧
    ([0, 2, 1] : List Nat).getLast? = some 1 ∧ SetOk ⟨1, 1, 4, 1⟩ ⟨[e], [0]⟩ := by decide

end Sys2Proof.Tests
end

/-! ## R8: what the start and a step do with an allowed and with a refused configuration -/

namespace Sys2Proof.Machine

/-- An allowed configuration is started, in the state after reset (R244, R225). -/
theorem start_of_wf {cfg : Config} (h : cfg.Wf) (t1 t2 : Option (List Item)) :
    start cfg t1 t2 = .next (resetWith cfg t1 t2) := if_pos h

/-- The start refuses a configuration that fails R8. -/
theorem start_of_not_wf {cfg : Config} (h : ¬ cfg.Wf) (t1 t2 : Option (List Item)) :
    start cfg t1 t2 = .refused .illFormedConfig := if_neg h

/-- A step refuses a configuration that fails R8, whatever the run state and the streams are. -/
theorem step_of_not_wf {s : State} (h : ¬ s.cfg.Wf) : step s = .refused .illFormedConfig := if_neg h

/-- Settles O2: the seven conditions are `Config.Wf`, which the start and every step ask for before anything else. -/
theorem illFormedConfigRefused : Obligations.IllFormedConfigRefused := by
  unfold Obligations.IllFormedConfigRefused
  constructor
  · intro s hbad
    exact ⟨step_of_not_wf hbad, start_of_not_wf hbad⟩
  · intro cfg t1 t2 hob hl1 hl2 hways1 hways2 hratio1 hratio2
    have hwf : cfg.Wf := ⟨hob, hl1, hl2, hways1, hways2, hratio1, hratio2⟩
    exact ⟨resetWith cfg t1 t2, start_of_wf hwf t1 t2⟩

end Sys2Proof.Machine

/-! ## Structure: what an access leaves, said once for Load and Store (R140 to R148, R160 to R166) -/

namespace Sys2Proof.Machine

/-- From `K` to `K'` the line of `a` went to the state `x`, and nothing else of the cache changed. -/
structure Restated (g : Geometry) (a : Addr) (x : Lookup) (K K' : Cache) : Prop where
  ok : CacheOk g K'
  state : ∀ b, probe g K' b = if SameLine g b a then x else probe g K b
  lru : ∀ b, (setAt g K' b).lru = (setAt g K b).lru
  matchWay : ∀ b t, (setAt g K' b).matchWay t = (setAt g K b).matchWay t

theorem restated_refl {g : Geometry} {K : Cache} (h : CacheOk g K) (a : Addr) : Restated g a (probe g K a) K K where
  ok := h
  state b := by
    split
    · rename_i hs
      exact probe_congr K hs
    · rfl
  lru _ := rfl
  matchWay _ _ := rfl

theorem restated_setState {g : Geometry} {K : Cache} {a : Addr} (h : CacheOk g K) (hp : probe g K a ≠ .notPresent)
    (st : Mesi) : Restated g a (.found st) K (setState g st a K) where
  ok := cacheOk_setState h st a
  state b := by simp [probe_setState h, hp]
  lru := lru_setState h st a
  matchWay := matchWay_setState h st a

/-- A cache that a lookup left, with no state changed since. -/
theorem restated_lookup {g : Geometry} {K : Cache} (h : CacheOk g K) (a : Addr) :
    Restated g a (probe g K a) (lookup g K a).2 (lookup g K a).2 := by
  simpa [probe_lookup h] using restated_refl (cacheOk_lookup h a) a

/-- A line a lookup found, given another state. -/
theorem restated_setState_lookup {g : Geometry} {K : Cache} {a : Addr} (h : CacheOk g K) (hp : probe g K a ≠ .notPresent)
    (st : Mesi) : Restated g a (.found st) (lookup g K a).2 (setState g st a (lookup g K a).2) :=
  restated_setState (cacheOk_lookup h a) (by simpa [probe_lookup h] using hp) st

theorem ne_notPresent_of_isValid {x : Lookup} (h : x.isValid = true) : x ≠ .notPresent := by
  rintro rfl
  cases h

/-- What the peer's reading on an L2 hit leaves: the peer's line of `a` looked up and in the state `y` (R143, R164). -/
structure PeerRead (cfg : Config) (c : CoreId) (a : Addr) (y : Lookup) (k k' : Work) : Prop where
  local_l1 : k'.l1 c = k.l1 c
  l2 : k'.l2 = k.l2
  peer : Restated cfg.l1 a y (lookup cfg.l1 (k.l1 (peer c)) a).2 (k'.l1 (peer c))

theorem PeerRead.ok {cfg : Config} {c : CoreId} {a : Addr} {y : Lookup} {k k' : Work} (h : PeerRead cfg c a y k k')
    (hk : CachesOk cfg k.caches) : CachesOk cfg k'.caches := by
  refine (cachesOk_iff _ _).2 ⟨fun d => ?_, ?_⟩
  · rcases eq_or_eq_peer c d with rfl | rfl
    · rw [Work.caches_l1, h.local_l1]
      exact hk.l1 _
    · exact h.peer.ok
  · rw [Work.caches_l2, h.l2]
    exact hk.l2

/-- What each path of an access makes of its line, as a function of the local state `x` and the peer's state `y` before. -/
structure AccessTable where
  mode : ModeCode
  /-- the local state after a hit -/
  hitLocal : Lookup → Lookup
  /-- the peer's state after a hit -/
  hitPeer : Lookup → Lookup → Lookup
  /-- the state installed from the L2 -/
  fillState : Lookup → Mesi
  /-- the peer's state after a miss that hits the L2 -/
  missPeer : Lookup → Lookup
  /-- the state installed from memory -/
  memoryState : Mesi

/-- LOAD (R141, R144 to R148). -/
def loadTable : AccessTable where
  mode := modeLoad
  hitLocal x := x
  hitPeer _ y := y
  fillState y := if y = .found .S ∨ y = .found .E then .S else .E
  missPeer y := if y = .found .M then .found .I else if y = .found .E then .found .S else y
  memoryState := .E

/-- STORE (R161, R162, R165, R166). -/
def storeTable : AccessTable where
  mode := modeStore
  hitLocal _ := .found .M
  hitPeer x y := if x = .found .S ∧ y.isValid = true then .found .I else y
  fillState _ := .M
  missPeer y := if y.isValid = true then .found .I else y
  memoryState := .M

/-- The three paths of an access of core `c` to `a`: an L1 hit, a miss that hits the L2, and a miss of both. -/
inductive Accessed (T : AccessTable) (cfg : Config) (c : CoreId) (a : Addr) (cs : Caches) : Work → Prop where
  | hit {k' : Work}
      (valid : (cs.stateL1 cfg c a).isValid = true)
      (toLocal : Restated cfg.l1 a (T.hitLocal (cs.stateL1 cfg c a)) (lookup cfg.l1 (cs.l1.get c) a).2 (k'.l1 c))
      (toPeer : Restated cfg.l1 a (T.hitPeer (cs.stateL1 cfg c a) (cs.stateL1 cfg (peer c) a)) (cs.l1.get (peer c))
        (k'.l1 (peer c)))
      (l2 : k'.l2 = cs.l2) : Accessed T cfg c a cs k'
  | fromL2 {k k2 k' : Work}
      (invalid : (cs.stateL1 cfg c a).isValid = false)
      (hitL2 : (cs.stateL2 cfg a).isValid = true)
      (start : L1Evicted cfg c a (beforeL1Eviction cfg c a T.mode (afterLocalLookup cfg c a cs)) k)
      (read : PeerRead cfg c a (T.missPeer (cs.stateL1 cfg (peer c) a)) k k2)
      (fill : FilledFromL2 cfg c a (T.fillState (cs.stateL1 cfg (peer c) a)) k2 k') : Accessed T cfg c a cs k'
  | fromMemory {k e k' : Work}
      (invalid : (cs.stateL1 cfg c a).isValid = false)
      (missL2 : (cs.stateL2 cfg a).isValid = false)
      (start : L1Evicted cfg c a (beforeL1Eviction cfg c a T.mode (afterLocalLookup cfg c a cs)) k)
      (fill : FilledFromMemory cfg c a T.mode T.memoryState k e k') : Accessed T cfg c a cs k'

/-! ### The first lookup and the start of a miss -/

@[simp] theorem afterLocalLookup_local (cfg : Config) (c : CoreId) (a : Addr) (cs : Caches) :
    (afterLocalLookup cfg c a cs).l1 c = (lookup cfg.l1 (cs.l1.get c) a).2 := Work.withL1_l1_same _ _ _

@[simp] theorem afterLocalLookup_peer (cfg : Config) (c : CoreId) (a : Addr) (cs : Caches) :
    (afterLocalLookup cfg c a cs).l1 (peer c) = cs.l1.get (peer c) := Work.withL1_l1_peer _ _ _

@[simp] theorem afterLocalLookup_l2 (cfg : Config) (c : CoreId) (a : Addr) (cs : Caches) :
    (afterLocalLookup cfg c a cs).l2 = cs.l2 := rfl

theorem afterLocalLookup_ok {cfg : Config} {cs : Caches} (h : CachesOk cfg cs) (c : CoreId) (a : Addr) :
    CachesOk cfg (afterLocalLookup cfg c a cs).caches :=
  cachesOk_withL1 (k := ⟨cs, []⟩) h c (cacheOk_lookup (((cachesOk_iff _ _).1 h).1 c) a)

/-- The start of a miss leaves the peer's L1 alone. -/
theorem startMiss_peer {cfg : Config} (hcfg : cfg.Wf) {cs : Caches} (h : CachesOk cfg cs) (c : CoreId) (a : Addr)
    (mode : ModeCode) :
    (startMiss cfg c a mode (afterLocalLookup cfg c a cs)).work.l1 (peer c) = cs.l1.get (peer c) := by
  simpa using (startMiss_work hcfg c a mode (afterLocalLookup_ok h c a)).peer

/-- The start of a miss moves no local fill way. -/
theorem startMiss_fillWay {cfg : Config} (hcfg : cfg.Wf) {cs : Caches} (h : CachesOk cfg cs) (c : CoreId) (a : Addr)
    (mode : ModeCode) :
    (startMiss cfg c a mode (afterLocalLookup cfg c a cs)).way =
      fillWay cfg.l1 ((startMiss cfg c a mode (afterLocalLookup cfg c a cs)).work.l1 c) a := by
  rw [(startMiss_work hcfg c a mode (afterLocalLookup_ok h c a)).local_fillWay, startMiss_way]
  rfl

/-! ### The peer's reading -/

theorem PeerRead.of_caches {cfg : Config} {c : CoreId} {a : Addr} {y : Lookup} {k k' k'' : Work}
    (h : PeerRead cfg c a y k k') (he : k''.caches = k'.caches) : PeerRead cfg c a y k k'' := by
  obtain ⟨cs, evs⟩ := k''
  cases he
  exact ⟨h.local_l1, h.l2, h.peer⟩

/-- The peer looked up, and its line of `a` left as it is. -/
theorem peerRead_lookup {cfg : Config} {k : Work} (hk : CachesOk cfg k.caches) (c : CoreId) (a : Addr) :
    PeerRead cfg c a (probe cfg.l1 (k.l1 (peer c)) a) k
      (k.withL1 (peer c) (lookup cfg.l1 (k.l1 (peer c)) a).2) where
  local_l1 := Work.withL1_peer_l1 _ _ _
  l2 := rfl
  peer := by
    rw [Work.withL1_l1_same]
    exact restated_lookup (hk.l1 _) a

/-- The peer looked up, and the line of `a` it holds given the state `st`. -/
theorem peerRead_setState {cfg : Config} {c : CoreId} {a : Addr} {k k1 : Work} (hk : CachesOk cfg k.caches)
    (hk1 : k1 = k.withL1 (peer c) (lookup cfg.l1 (k.l1 (peer c)) a).2)
    (hp : probe cfg.l1 (k.l1 (peer c)) a ≠ .notPresent) (st : Mesi) :
    PeerRead cfg c a (.found st) k (k1.withL1 (peer c) (setState cfg.l1 st a (k1.l1 (peer c)))) where
  local_l1 := by simp [hk1]
  l2 := by simp [hk1]
  peer := by
    rw [Work.withL1_l1_same, hk1, Work.withL1_l1_same]
    exact restated_setState_lookup (hk.l1 _) hp st

/-- LOAD on an L2 hit, as one reading of the peer and one fill (R143 to R147). -/
theorem loadFromPeer_eq {cfg : Config} {k : Work} (hk : CachesOk cfg k.caches) (c : CoreId) (a : Addr) (w : Nat) :
    ∃ k2, PeerRead cfg c a (loadTable.missPeer (probe cfg.l1 (k.l1 (peer c)) a)) k k2 ∧
      loadFromPeer cfg c a w k = fillFromL2 cfg c a (loadTable.fillState (probe cfg.l1 (k.l1 (peer c)) a)) w k2 := by
  have hread := peerRead_lookup hk c a
  have hset := @peerRead_setState cfg c a k _ hk rfl
  unfold loadFromPeer
  simp only [lookup_result]
  cases hy : probe cfg.l1 (k.l1 (peer c)) a with
  | notPresent =>
    rw [hy] at hread
    exact ⟨_, hread, rfl⟩
  | found st =>
    rw [hy] at hread hset
    cases st with
    | I => exact ⟨_, hread, rfl⟩
    | S => exact ⟨_, hread, rfl⟩
    | E => exact ⟨_, hset (by simp) .S, rfl⟩
    | M =>
      refine ⟨_, ?_, rfl⟩
      exact (hset (by simp) .I).of_caches rfl

/-- STORE on an L2 hit, as one reading of the peer and one fill (R164, R165). -/
theorem storeFromPeer_eq {cfg : Config} {k : Work} (hk : CachesOk cfg k.caches) (c : CoreId) (a : Addr) (w : Nat) :
    ∃ k2, PeerRead cfg c a (storeTable.missPeer (probe cfg.l1 (k.l1 (peer c)) a)) k k2 ∧
      storeFromPeer cfg c a w k = fillFromL2 cfg c a (storeTable.fillState (probe cfg.l1 (k.l1 (peer c)) a)) w k2 := by
  unfold storeFromPeer
  simp only [lookup_result, storeTable]
  refine ⟨_, ?_, rfl⟩
  by_cases hv : (probe cfg.l1 (k.l1 (peer c)) a).isValid = true
  · rw [if_pos hv, if_pos hv]
    exact (peerRead_setState hk rfl (ne_notPresent_of_isValid hv) .I).of_caches rfl
  · rw [if_neg hv, if_neg hv]
    exact peerRead_lookup hk c a

/-! ### The paths of LOAD and STORE -/

section
variable {T : AccessTable} {cfg : Config} {cs : Caches} (hcfg : cfg.Wf) (h : CachesOk cfg cs) (c : CoreId) {a : Addr}
  (ha : inRange cfg a) (invalid : (cs.stateL1 cfg c a).isValid = false)
include hcfg h ha invalid

/-- A miss that hits the L2, where its second half is a reading of the peer and a fill. -/
theorem accessed_fromL2 (hitL2 : (cs.stateL2 cfg a).isValid = true) {op : Nat → Work → Work}
    (heq : ∀ w k, CachesOk cfg k.caches → ∃ k2, PeerRead cfg c a (T.missPeer (probe cfg.l1 (k.l1 (peer c)) a)) k k2 ∧
      op w k = fillFromL2 cfg c a (T.fillState (probe cfg.l1 (k.l1 (peer c)) a)) w k2) :
    Accessed T cfg c a cs (op (startMiss cfg c a T.mode (afterLocalLookup cfg c a cs)).way
      (startMiss cfg c a T.mode (afterLocalLookup cfg c a cs)).work) := by
  have start := startMiss_work hcfg c a T.mode (afterLocalLookup_ok h c a)
  obtain ⟨k2, read, he⟩ := heq (startMiss cfg c a T.mode (afterLocalLookup cfg c a cs)).way _ start.ok
  rw [startMiss_peer hcfg h] at read he
  rw [he]
  refine .fromL2 invalid hitL2 start read (fillFromL2_spec hcfg c ha _ (read.ok start.ok) ?_)
  rw [read.local_l1]
  exact startMiss_fillWay hcfg h c a T.mode

/-- A miss of both levels. -/
theorem accessed_fromMemory (missL2 : (cs.stateL2 cfg a).isValid = false) :
    Accessed T cfg c a cs (fillFromMemory cfg c a T.mode T.memoryState
      (startMiss cfg c a T.mode (afterLocalLookup cfg c a cs)).way
      (startMiss cfg c a T.mode (afterLocalLookup cfg c a cs)).work) := by
  have start := startMiss_work hcfg c a T.mode (afterLocalLookup_ok h c a)
  exact .fromMemory invalid missL2 start
    (fillFromMemory_spec hcfg c ha T.mode T.memoryState start.ok (startMiss_fillWay hcfg h c a T.mode))

end

/-- LOAD takes one of the paths of its table (R140). -/
theorem loadOp_accessed {cfg : Config} (hcfg : cfg.Wf) {cs : Caches} (h : CachesOk cfg cs) (c : CoreId) {a : Addr}
    (ha : inRange cfg a) : Accessed loadTable cfg c a cs (loadOp cfg c a cs) := by
  have hL1 := ((cachesOk_iff _ _).1 h).1
  cases hx : (cs.stateL1 cfg c a).isValid with
  | true =>
    rw [loadOp_hit hx]
    refine .hit hx ?_ ?_ rfl
    · rw [Work.emit_l1, afterLocalLookup_local]
      exact restated_lookup (hL1 c) a
    · rw [Work.emit_l1, afterLocalLookup_peer]
      exact restated_refl (hL1 (peer c)) a
  | false =>
    cases hz : (cs.stateL2 cfg a).isValid with
    | true =>
      rw [loadOp_missL2Hit hx hz]
      exact accessed_fromL2 (T := loadTable) hcfg h c ha hx hz (fun w _ hk => loadFromPeer_eq hk c a w)
    | false =>
      rw [loadOp_missL2Miss hx hz]
      exact accessed_fromMemory (T := loadTable) hcfg h c ha hx hz

/-- A lookup answers an owner's state, `S`, or no valid state. -/
theorem Lookup.owner_or_shared_or_invalid (x : Lookup) :
    (x = .found .M ∨ x = .found .E) ∨ x = .found .S ∨ x.isValid = false := by
  rcases x with _ | st
  · exact .inr (.inr rfl)
  · cases st <;> simp [Lookup.isValid, Mesi.isValid]

/-- A Store hit in `S` (R162). -/
theorem storeUpgrade_accessed {cfg : Config} {cs : Caches} (h : CachesOk cfg cs) {c : CoreId} {a : Addr}
    (hx : cs.stateL1 cfg c a = .found .S) :
    Accessed storeTable cfg c a cs (storeUpgrade cfg c a ((afterLocalLookup cfg c a cs).emit (.hit c a modeStore))) := by
  have hL1 := ((cachesOk_iff _ _).1 h).1
  have hv : (cs.stateL1 cfg c a).isValid = true := by rw [hx]; rfl
  have toLocal := restated_setState_lookup (hL1 c) (ne_notPresent_of_isValid hv) .M
  unfold storeUpgrade
  simp only [Work.emit_l1, afterLocalLookup_peer]
  by_cases hy : (probe cfg.l1 (cs.l1.get (peer c)) a).isValid = true
  · rw [if_pos hy]
    refine .hit hv ?_ ?_ rfl
    · simpa [invalidatePeer, storeTable] using toLocal
    · have hto : storeTable.hitPeer (cs.stateL1 cfg c a) (cs.stateL1 cfg (peer c) a) = .found .I := if_pos ⟨hx, hy⟩
      rw [hto]
      simpa [invalidatePeer] using restated_setState (hL1 (peer c)) (ne_notPresent_of_isValid hy) .I
  · rw [if_neg hy]
    refine .hit hv ?_ ?_ rfl
    · simpa [storeTable] using toLocal
    · have hto : storeTable.hitPeer (cs.stateL1 cfg c a) (cs.stateL1 cfg (peer c) a) = cs.stateL1 cfg (peer c) a :=
        if_neg (fun hc => hy hc.2)
      rw [hto]
      simpa [Caches.stateL1] using restated_refl (hL1 (peer c)) a

/-- STORE takes one of the paths of its table (R160). -/
theorem storeOp_accessed {cfg : Config} (hcfg : cfg.Wf) {cs : Caches} (h : CachesOk cfg cs) (c : CoreId) {a : Addr}
    (ha : inRange cfg a) : Accessed storeTable cfg c a cs (storeOp cfg c a cs) := by
  have hL1 := ((cachesOk_iff _ _).1 h).1
  rcases (cs.stateL1 cfg c a).owner_or_shared_or_invalid with hown | hS | hx
  · have hv : (cs.stateL1 cfg c a).isValid = true := by rcases hown with he | he <;> rw [he] <;> rfl
    have hne : cs.stateL1 cfg c a ≠ .found .S := by rcases hown with he | he <;> simp [he]
    rw [storeOp_hitOwner hown]
    refine .hit hv ?_ ?_ rfl
    · rw [Work.withL1_l1_same, afterLocalLookup_local]
      exact restated_setState_lookup (hL1 c) (ne_notPresent_of_isValid hv) .M
    · rw [Work.withL1_l1_peer, Work.emit_l1, afterLocalLookup_peer]
      simp only [storeTable, hne, false_and, if_false]
      exact restated_refl (hL1 (peer c)) a
  · rw [storeOp_hitShared hS]
    exact storeUpgrade_accessed h hS
  · rw [storeOp_miss hx]
    cases hz : (cs.stateL2 cfg a).isValid with
    | true =>
      rw [storeMiss_l2Hit (k := afterLocalLookup cfg c a cs) hz]
      exact accessed_fromL2 (T := storeTable) hcfg h c ha hx hz (fun w _ hk => storeFromPeer_eq hk c a w)
    | false =>
      rw [storeMiss_l2Miss (k := afterLocalLookup cfg c a cs) hz]
      exact accessed_fromMemory (T := storeTable) hcfg h c ha hx hz

/-- An access leaves the caches in order, whatever path it takes. -/
theorem Accessed.ok {T : AccessTable} {cfg : Config} {c : CoreId} {a : Addr} {cs : Caches} {k' : Work}
    (h : CachesOk cfg cs) (hacc : Accessed T cfg c a cs k') : CachesOk cfg k'.caches := by
  cases hacc with
  | hit valid toLocal toPeer l2 =>
    refine (cachesOk_iff _ _).2 ⟨fun d => ?_, ?_⟩
    · rcases eq_or_eq_peer c d with rfl | rfl
      · exact toLocal.ok
      · exact toPeer.ok
    · rw [Work.caches_l2, l2]
      exact ((cachesOk_iff _ _).1 h).2
  | fromL2 invalid hitL2 start read fill => exact fill.ok
  | fromMemory invalid missL2 start fill => exact fill.ok

/-- What an operation makes of the caches: an Invalid-Action leaves them, a Load and a Store access them by their tables. -/
theorem opOf_caches {cfg : Config} (hcfg : cfg.Wf) {cs : Caches} (h : CachesOk cfg cs) (c : CoreId) (i : Instr) {a : Addr}
    (ha : inRange cfg a) :
    (opOf i cfg c a cs).caches = cs ∨
      ∃ T, (T = loadTable ∨ T = storeTable) ∧ Accessed T cfg c a cs (opOf i cfg c a cs) := by
  cases i with
  | load _ => exact .inr ⟨_, .inl rfl, loadOp_accessed hcfg h c ha⟩
  | store _ => exact .inr ⟨_, .inr rfl, storeOp_accessed hcfg h c ha⟩
  | invalidAction _ _ => exact .inl rfl

/-- A step keeps the configuration, and leaves the caches as they were or accesses one address in range by a table. -/
theorem step_caches {s t : State} (hs : CachesOk s.cfg s.caches) (h : step s = .next t) :
    t.cfg = s.cfg ∧
      (t.caches = s.caches ∨
        ∃ T c a k', (T = loadTable ∨ T = storeTable) ∧ inRange s.cfg a ∧ Accessed T s.cfg c a s.caches k' ∧
          t.caches = k'.caches) := by
  obtain ⟨hcfg, -, ⟨-, rfl⟩ | ⟨c, n, -, -, -, -, ⟨-, rfl⟩ | ⟨a, m, -, hexec⟩⟩⟩ := step_cases h
  · exact ⟨rfl, .inl rfl⟩
  · exact ⟨rfl, .inl rfl⟩
  · rcases exec_cases hexec with ⟨ha, rfl⟩ | ⟨-, rfl⟩
    · refine ⟨rfl, ?_⟩
      rcases opOf_caches hcfg hs c (selectInstr m a) ha with he | ⟨T, hT, hacc⟩
      · exact .inl he
      · exact .inr ⟨T, c, _, _, hT, ha, hacc, rfl⟩
    · exact ⟨rfl, .inl rfl⟩

theorem step_keeps_cachesOk {s t : State} (hs : CachesOk s.cfg s.caches) (h : step s = .next t) :
    CachesOk t.cfg t.caches := by
  obtain ⟨hcfg, he | ⟨T, c, a, k', -, -, hacc, he⟩⟩ := step_caches hs h <;> rw [hcfg, he]
  · exact hs
  · exact hacc.ok hs

/-! ### The counters, the cursors and the slot -/

theorem bumpBy_lt {cfg : Config} : ∀ (n : Nat) {x : Nat}, x < 2 ^ cfg.cntW → bumpBy cfg n x < 2 ^ cfg.cntW
  | 0, _, h => h
  | n + 1, _, _ => bumpBy_lt n (Nat.mod_lt _ (Nat.two_pow_pos _))

/-- Counting a record keeps every counter within its width (R194). -/
theorem countersOk_countRecord {cfg : Config} {cnt : Counters} (h : CountersOk cfg cnt) (c : CoreId) (evs : List Event) :
    CountersOk cfg (countRecord cfg c evs cnt) := by
  obtain ⟨h1, h2, h3, h4, h5⟩ := h
  have hbump (x : Nat) : bump cfg x < 2 ^ cfg.cntW := Nat.mod_lt _ (Nat.two_pow_pos _)
  refine ⟨?_, ?_, bumpBy_lt _ h3, bumpBy_lt _ h4, bumpBy_lt _ h5⟩ <;> cases c
  · exact hbump _
  · exact h1
  · exact h2
  · exact hbump _

theorem step_keeps_countersOk {s t : State} (hs : CountersOk s.cfg s.counters) (h : step s = .next t) :
    CountersOk t.cfg t.counters := by
  obtain ⟨-, -, ⟨-, rfl⟩ | ⟨c, n, -, -, -, -, ⟨-, rfl⟩ | ⟨a, m, -, hexec⟩⟩⟩ := step_cases h
  · exact hs
  · exact hs
  · rcases exec_cases hexec with ⟨-, rfl⟩ | ⟨-, rfl⟩
    · exact countersOk_countRecord hs _ _
    · exact hs

theorem step_keeps_slot_in_round {s t : State} (hs : s.slot < roundSlots s.cfg) (h : step s = .next t) :
    t.slot < roundSlots t.cfg := by
  obtain ⟨-, -, ⟨-, rfl⟩ | ⟨c, n, -, -, -, hn, ⟨-, rfl⟩ | ⟨a, m, -, hexec⟩⟩⟩ := step_cases h
  · exact hs
  · exact hn (by omega)
  · rcases exec_cases hexec with ⟨-, rfl⟩ | ⟨-, rfl⟩ <;> exact hn (by omega)

/-- Settles O20: the one step that moves a cursor completes the record of the core the scheduler chose, which had one left. -/
theorem stepMovesForward : Obligations.StepMovesForward := by
  unfold Obligations.StepMovesForward
  intro s t h
  obtain ⟨-, hrun, ⟨-, rfl⟩ | ⟨c, n, -, -, hleft, -, ⟨-, rfl⟩ | ⟨a, m, -, hexec⟩⟩⟩ := step_cases h
  · exact ⟨⟨[], List.append_nil _⟩, rfl, rfl, .inl ⟨by simp, rfl⟩⟩
  · exact ⟨⟨[], List.append_nil _⟩, rfl, rfl, .inl ⟨by simp, rfl⟩⟩
  · rcases exec_cases hexec with ⟨-, rfl⟩ | ⟨-, rfl⟩
    · exact ⟨⟨_, rfl⟩, rfl, rfl,
        .inr ⟨hrun, c, hleft, PerCore.get_set_same _ _ _, PerCore.get_set_peer _ _ _⟩⟩
    · exact ⟨⟨[], List.append_nil _⟩, rfl, rfl, .inl ⟨by simp, rfl⟩⟩

/-- A step keeps every cursor within its stream (R21). -/
theorem step_keeps_cursor_in_stream {s t : State} (h : step s = .next t) (d : CoreId)
    (hs : s.cur.get d ≤ (s.streams.get d).length) : t.cur.get d ≤ (t.streams.get d).length := by
  obtain ⟨-, -, hstreams, ⟨-, hcur⟩ | ⟨-, c, hleft, hone, hother⟩⟩ := stepMovesForward s t h
  · rwa [hcur, hstreams]
  · rw [hstreams]
    rcases eq_or_eq_peer c d with rfl | rfl
    · rw [hone]
      exact Nat.lt_of_not_le hleft
    · rwa [hother]

/-- Settles O44: every part of the structural invariant is kept by what a step can do to it. -/
theorem stepKeepsStructure : Obligations.StepKeepsStructure := by
  unfold Obligations.StepKeepsStructure
  rintro s t ⟨hwf, hcaches, hcounters, hcur1, hcur2, hslot⟩ h
  have hcfg : t.cfg = s.cfg := (step_caches hcaches h).1
  exact ⟨hcfg ▸ hwf, step_keeps_cachesOk hcaches h, step_keeps_countersOk hcounters h,
    step_keeps_cursor_in_stream h .core1 hcur1, step_keeps_cursor_in_stream h .core2 hcur2,
    step_keeps_slot_in_round hslot h⟩

/-! ## Coherence: one line at a time (R34) -/

/-- R34 items 1 to 5 for one line: `x` and `y` are its states in the two L1s, `z` its state in the L2. Item 2 follows from
item 1 on both sides. -/
abbrev LineCoherent (x y z : Lookup) : Prop :=
  ((x = .found .M ∨ x = .found .E) → y.isValid = false) ∧ ((y = .found .M ∨ y = .found .E) → x.isValid = false) ∧
    (x.isValid = true ∨ y.isValid = true → z.isValid = true) ∧ (z ≠ .notPresent → z = .found .S ∨ z = .found .M) ∧
    (z = .found .M → x.isValid = false ∧ y.isValid = false)

theorem LineCoherent.symm {x y z : Lookup} (h : LineCoherent x y z) : LineCoherent y x z := by
  obtain ⟨h1, h2, h3, h4, h5⟩ := h
  exact ⟨h2, h1, fun hv => h3 hv.symm, h4, fun hM => (h5 hM).symm⟩

/-- The coherence invariant is the coherence of every line, seen from either core. -/
theorem coherent_iff (cfg : Config) (cs : Caches) (c : CoreId) :
    Coherent cfg cs ↔ ∀ b, inRange cfg b →
      LineCoherent (cs.stateL1 cfg c b) (cs.stateL1 cfg (peer c) b) (cs.stateL2 cfg b) := by
  constructor
  · intro h b hb
    have hback := h.ownerAlone (peer c) b hb
    rw [peer_peer] at hback
    exact ⟨h.ownerAlone c b hb, hback, fun hv => hv.elim (h.inclusion c b hb) (h.inclusion (peer c) b hb),
      h.l2SharedOrModified b hb, fun hM => ⟨h.l2ModifiedAlone c b hb hM, h.l2ModifiedAlone (peer c) b hb hM⟩⟩
  · intro h
    have hline (d : CoreId) (b : Addr) (hb : inRange cfg b) :
        LineCoherent (cs.stateL1 cfg d b) (cs.stateL1 cfg (peer d) b) (cs.stateL2 cfg b) := by
      rcases eq_or_eq_peer c d with rfl | rfl
      · exact h b hb
      · rw [peer_peer]
        exact (h b hb).symm
    refine ⟨fun d b hb => (hline d b hb).1, fun d d' b hb hS => ?_, fun d b hb hv => (hline d b hb).2.2.1 (.inl hv),
      fun b hb => (hline c b hb).2.2.2.1, fun d b hb hM => ((hline d b hb).2.2.2.2 hM).1⟩
    rcases eq_or_eq_peer d d' with rfl | rfl
    · simp [hS]
    · obtain ⟨-, hown, -⟩ := hline d b hb
      rw [hS] at hown
      exact ⟨fun he => absurd (hown (.inl he)) (by decide), fun he => absurd (hown (.inr he)) (by decide)⟩

/-- A line that leaves the local L1 stays coherent. -/
theorem LineCoherent.drop {x x' y z : Lookup} (h : LineCoherent x y z) (hx : x'.isValid = false) : LineCoherent x' y z := by
  obtain ⟨-, -, h3, h4, h5⟩ := h
  refine ⟨?_, fun _ => hx, fun hv => h3 (.inr (hv.resolve_left (by simp [hx]))), h4, fun hM => ⟨hx, (h5 hM).2⟩⟩
  rintro (rfl | rfl) <;> cases hx

/-- A Modified line that leaves the local L1 with a writeback stays coherent (R111). -/
theorem LineCoherent.writeback {x' y z : Lookup} (h : LineCoherent (.found .M) y z) (hx : x'.isValid = false) :
    LineCoherent x' y (.found .M) := by
  have hy : y.isValid = false := h.1 (.inl rfl)
  refine ⟨?_, fun _ => hx, fun _ => rfl, fun _ => .inr rfl, fun _ => ⟨hx, hy⟩⟩
  rintro (rfl | rfl) <;> cases hx

/-- No owner's state is invalid. -/
theorem Lookup.not_owner_of_invalid {x : Lookup} (h : x.isValid = false) : ¬(x = .found .M ∨ x = .found .E) := by
  rintro (rfl | rfl) <;> cases h

/-- A line with no copy anywhere is coherent. -/
theorem lineCoherent_absent {x y : Lookup} (hx : x.isValid = false) (hy : y.isValid = false) :
    LineCoherent x y .notPresent :=
  ⟨fun h => absurd h (Lookup.not_owner_of_invalid hx), fun h => absurd h (Lookup.not_owner_of_invalid hy),
    by simp [hx, hy], by simp, by simp⟩

/-- A line in one L1 alone, and Shared in the L2, is coherent. -/
theorem lineCoherent_sole (st : Mesi) {y : Lookup} (hy : y.isValid = false) :
    LineCoherent (.found st) y (.found .S) :=
  ⟨fun _ => hy, fun h => absurd h (Lookup.not_owner_of_invalid hy), fun _ => rfl, fun _ => .inl rfl, by simp⟩

/-! ### The tables of LOAD and STORE keep their line coherent -/

/-- What the coherence of the accessed line asks of a table. -/
structure AccessTable.KeepsCoherence (T : AccessTable) : Prop where
  hit : ∀ x y z, LineCoherent x y z → x.isValid = true → LineCoherent (T.hitLocal x) (T.hitPeer x y) z
  fromL2 : ∀ y, LineCoherent (.found (T.fillState y)) (T.missPeer y) (.found .S)

/-- A property of lookup results is five properties. -/
theorem Lookup.forall_iff {P : Lookup → Prop} :
    (∀ x, P x) ↔ P .notPresent ∧ P (.found .I) ∧ P (.found .S) ∧ P (.found .E) ∧ P (.found .M) := by
  constructor
  · exact fun h => ⟨h _, h _, h _, h _, h _⟩
  · rintro ⟨hN, hI, hS, hE, hM⟩ (_ | st)
    · exact hN
    · cases st <;> assumption

theorem loadTable_keepsCoherence : loadTable.KeepsCoherence where
  hit _ _ _ h _ := h
  fromL2 := Lookup.forall_iff.2 ⟨by decide, by decide, by decide, by decide, by decide⟩

/-- A Store leaves the peer no valid copy: an owner has none beside it, and a Shared one is invalidated (R161, R162). -/
theorem storeTable_hitPeer_invalid {x y z : Lookup} (h : LineCoherent x y z) (hx : x.isValid = true) :
    (storeTable.hitPeer x y).isValid = false := by
  unfold storeTable
  dsimp only
  rcases x.owner_or_shared_or_invalid with hown | hS | hI
  · have hy := h.1 hown
    simp [hy]
  · cases hy : y.isValid with
    | false => simp [hy]
    | true =>
      rw [if_pos ⟨hS, rfl⟩]
      rfl
  · simp [hI] at hx

theorem storeTable_keepsCoherence : storeTable.KeepsCoherence where
  hit x y z h hx := by
    have hz : z = .found .S := by
      obtain ⟨-, -, hincl, hstates, hM⟩ := h
      refine (hstates (ne_notPresent_of_isValid (hincl (.inl hx)))).resolve_right (fun he => ?_)
      simp [(hM he).1] at hx
    rw [hz]
    exact lineCoherent_sole .M (storeTable_hitPeer_invalid h hx)
  fromL2 := Lookup.forall_iff.2 ⟨by decide, by decide, by decide, by decide, by decide⟩

/-! ### The parts of an access keep coherence -/

/-- `b` lies in the line an L1 miss on `a` evicts from the L1 `K`. -/
abbrev LocalVictim (cfg : Config) (K : Cache) (a b : Addr) : Prop :=
  ∃ va, victimAddress cfg.l1 K a = some va ∧ SameLine cfg.l1 b va

/-- `b` lies in the line an L2 miss on `a` evicts from the L2 `K`. -/
abbrev L2Victim (cfg : Config) (K : Cache) (a b : Addr) : Prop :=
  ∃ va, victimAddress cfg.l2 K a = some va ∧ SameLine cfg.l1 b va

section
variable {cfg : Config} {c : CoreId} {a : Addr}

/-- Coherence is a matter of the states alone. -/
theorem Coherent.of_states {cs cs' : Caches} (h : Coherent cfg cs)
    (h1 : ∀ b, cs'.stateL1 cfg c b = cs.stateL1 cfg c b)
    (hp : ∀ b, cs'.stateL1 cfg (peer c) b = cs.stateL1 cfg (peer c) b)
    (h2 : ∀ b, cs'.stateL2 cfg b = cs.stateL2 cfg b) : Coherent cfg cs' := by
  rw [coherent_iff _ _ c] at h ⊢
  intro b hb
  rw [h1, hp, h2]
  exact h b hb

/-- The lookups before the local eviction of a miss change no state. -/
theorem coherent_beforeL1Eviction {cs : Caches} (hok : CachesOk cfg cs) (h : Coherent cfg cs) (mode : ModeCode) :
    Coherent cfg (beforeL1Eviction cfg c a mode (afterLocalLookup cfg c a cs)).caches := by
  obtain ⟨hL1, hL2⟩ := (cachesOk_iff _ _).1 hok
  refine h.of_states (c := c) (fun b => ?_) (fun b => ?_) (fun b => ?_)
  · rw [stateL1_eq, beforeL1Eviction_l1, afterLocalLookup_local, probe_lookup (hL1 c)]
    rfl
  · rw [stateL1_eq, beforeL1Eviction_l1, afterLocalLookup_peer]
    rfl
  · rw [stateL2_eq, beforeL1Eviction_l2, afterLocalLookup_l2, probe_lookup hL2]
    rfl

/-- The local eviction drops one line from the local L1, with a writeback if it is Modified. -/
theorem coherent_l1Evicted {k k' : Work} (hob : cfg.l1Ob = cfg.l2Ob) (h : Coherent cfg k.caches)
    (hev : L1Evicted cfg c a k k') : Coherent cfg k'.caches := by
  rw [coherent_iff _ _ c] at h ⊢
  intro b hb
  have hline := h b hb
  rw [stateL1_eq, stateL1_eq, stateL2_eq] at hline ⊢
  rw [hev.peer, hev.stateL1, hev.stateL2]
  by_cases hv : LocalVictim cfg (k.l1 c) a b
  · rw [if_pos hv]
    split
    · rename_i hM
      obtain ⟨va, -, hst, hs, -⟩ := hM
      rw [probe_congr _ ((sameLine_l1_iff_l2 hob b va).2 hs), hst] at hline
      exact hline.writeback rfl
    · exact hline.drop rfl
  · rw [if_neg hv, if_neg]
    · exact hline
    · rintro ⟨va, hva, -, hs, -⟩
      exact hv ⟨va, hva, (sameLine_l1_iff_l2 hob b va).2 hs⟩

/-- One line after a reading of the peer and a fill from the L2: the line of `a` has its new states; any other is as before,
or is the local victim's and left the local L1. -/
theorem fromL2_line_cases {k k2 k' : Work} {y : Lookup} {st : Mesi} (hob : cfg.l1Ob = cfg.l2Ob)
    (hk : CachesOk cfg k.caches) (hz : probe cfg.l2 k.l2 a ≠ .notPresent)
    (read : PeerRead cfg c a y k k2) (fill : FilledFromL2 cfg c a st k2 k') (b : Addr) :
    (SameLine cfg.l1 b a ∧ probe cfg.l1 (k'.l1 c) b = .found st ∧ probe cfg.l1 (k'.l1 (peer c)) b = y ∧
        probe cfg.l2 k'.l2 b = .found .S) ∨
      (¬ SameLine cfg.l1 b a ∧
        (probe cfg.l1 (k'.l1 c) b = probe cfg.l1 (k.l1 c) b ∨
          probe cfg.l1 (k'.l1 c) b = .notPresent ∧ LocalVictim cfg (k.l1 c) a b) ∧
        probe cfg.l1 (k'.l1 (peer c)) b = probe cfg.l1 (k.l1 (peer c)) b ∧
        probe cfg.l2 k'.l2 b = probe cfg.l2 k.l2 b) := by
  rw [fill.peer, fill.stateL1, fill.stateL2, read.peer.state, read.local_l1, read.l2, probe_lookup (hk.l1 (peer c))]
  have hsame := sameLine_l1_iff_l2 hob b a
  by_cases hs : SameLine cfg.l1 b a
  · exact .inl ⟨hs, if_pos hs, if_pos hs, if_pos ⟨hsame.1 hs, hz⟩⟩
  · refine .inr ⟨hs, ?_, if_neg hs, if_neg (fun hc => hs (hsame.2 hc.1))⟩
    rw [if_neg hs]
    split
    · rename_i hv
      exact .inr ⟨rfl, hv⟩
    · exact .inl rfl

/-- A reading of the peer and a fill from the L2, on a line whose new states are coherent. -/
theorem coherent_fromL2 {k k2 k' : Work} {y : Lookup} {st : Mesi} (hob : cfg.l1Ob = cfg.l2Ob)
    (hk : CachesOk cfg k.caches) (h : Coherent cfg k.caches) (hz : probe cfg.l2 k.l2 a ≠ .notPresent)
    (read : PeerRead cfg c a y k k2) (fill : FilledFromL2 cfg c a st k2 k')
    (hnew : LineCoherent (.found st) y (.found .S)) : Coherent cfg k'.caches := by
  rw [coherent_iff _ _ c] at h ⊢
  intro b hb
  have hline := h b hb
  rw [stateL1_eq, stateL1_eq, stateL2_eq] at hline ⊢
  rcases fromL2_line_cases hob hk hz read fill b with ⟨-, hx, hy, hz'⟩ | ⟨-, hx, hy, hz'⟩ <;> rw [hy, hz']
  · rwa [hx]
  · rcases hx with hx | ⟨hx, -⟩ <;> rw [hx]
    · exact hline
    · exact hline.drop rfl

/-- One line after the eviction of the L2 victim: the victim's line is valid in no L1, any other is as before. -/
theorem l2Evicted_line_cases {k k' : Work} (hob : cfg.l1Ob = cfg.l2Ob) (h : L2Evicted cfg c a k k') (b : Addr) :
    (L2Victim cfg k.l2 a b ∧ ∀ d, (probe cfg.l1 (k'.l1 d) b).isValid = false) ∨
      ¬ L2Victim cfg k.l2 a b ∧
        (∀ d, probe cfg.l1 (k'.l1 d) b = probe cfg.l1 (k.l1 d) b) ∧ probe cfg.l2 k'.l2 b = probe cfg.l2 k.l2 b := by
  by_cases hv : L2Victim cfg k.l2 a b
  · refine .inl ⟨hv, fun d => ?_⟩
    obtain ⟨va, hva, hs⟩ := hv
    rw [h.stateL1]
    split
    · rfl
    · rename_i hno
      rw [probe_congr _ hs]
      exact Bool.eq_false_of_not_eq_true (fun hval => hno ⟨va, hva, hs, hval⟩)
  · refine .inr ⟨hv, fun d => ?_, ?_⟩
    · rw [h.stateL1, if_neg (fun ⟨va, hva, hs, _⟩ => hv ⟨va, hva, hs⟩)]
    · rw [h.stateL2, if_neg (fun ⟨va, hva, hs⟩ => hv ⟨va, hva, (sameLine_l1_iff_l2 hob b va).2 hs⟩)]

/-- One line after the fill of both levels: the line of `a` has its new states, the peer's copy none if it had none; the L2
victim's line is nowhere; any other is as before, or is the local victim's and left the local L1. -/
theorem fromMemory_line_cases {k e k' : Work} {mode : ModeCode} {st : Mesi} (hob : cfg.l1Ob = cfg.l2Ob)
    (fill : FilledFromMemory cfg c a mode st k e k') (b : Addr) :
    (SameLine cfg.l1 b a ∧ probe cfg.l1 (k'.l1 c) b = .found st ∧
        ((probe cfg.l1 (k.l1 (peer c)) b).isValid = false → (probe cfg.l1 (k'.l1 (peer c)) b).isValid = false) ∧
        probe cfg.l2 k'.l2 b = .found .S) ∨
      (¬ SameLine cfg.l1 b a ∧ L2Victim cfg k.l2 a b ∧
        (probe cfg.l1 (k'.l1 c) b).isValid = false ∧ (probe cfg.l1 (k'.l1 (peer c)) b).isValid = false ∧
        probe cfg.l2 k'.l2 b = .notPresent) ∨
      (¬ SameLine cfg.l1 b a ∧ ¬ L2Victim cfg k.l2 a b ∧
        (probe cfg.l1 (k'.l1 c) b = probe cfg.l1 (k.l1 c) b ∨
          probe cfg.l1 (k'.l1 c) b = .notPresent ∧ LocalVictim cfg (k.l1 c) a b) ∧
        probe cfg.l1 (k'.l1 (peer c)) b = probe cfg.l1 (k.l1 (peer c)) b ∧
        probe cfg.l2 k'.l2 b = probe cfg.l2 k.l2 b) := by
  have hevicted := l2Evicted_line_cases hob fill.evicted b
  have hsame := sameLine_l1_iff_l2 hob b a
  have hlocal := fill.stateL1 b
  have hl2 := fill.stateL2 b
  rw [fill.evicted.l1_victim] at hlocal
  rw [fill.evicted.l2_victim] at hl2
  rw [fill.peer]
  by_cases hs : SameLine cfg.l1 b a
  · rw [if_pos hs] at hlocal
    rw [if_pos (hsame.1 hs)] at hl2
    refine .inl ⟨hs, hlocal, fun hinv => ?_, hl2⟩
    rcases hevicted with ⟨-, he⟩ | ⟨-, he, -⟩
    · exact he _
    · rwa [he]
  · rw [if_neg hs] at hlocal
    rw [if_neg (fun hc => hs (hsame.2 hc))] at hl2
    rcases hevicted with ⟨hv, he⟩ | ⟨hv, he, he2⟩
    · refine .inr (.inl ⟨hs, hv, ?_, he _, ?_⟩)
      · rw [hlocal]
        split
        · rfl
        · exact he c
      · obtain ⟨va, hva, hsv⟩ := hv
        rw [hl2, if_pos ⟨va, hva, (sameLine_l1_iff_l2 hob b va).1 hsv⟩]
    · refine .inr (.inr ⟨hs, hv, ?_, he _, ?_⟩)
      · rw [hlocal]
        split
        · rename_i hv1
          exact .inr ⟨rfl, hv1⟩
        · exact .inl (he c)
      · rw [hl2, if_neg (fun ⟨va, hva, hsv⟩ => hv ⟨va, hva, (sameLine_l1_iff_l2 hob b va).2 hsv⟩)]
        exact he2

/-- The fill of both levels keeps coherence: by inclusion the peer has no valid copy of a line the L2 has not. -/
theorem coherent_fromMemory {k e k' : Work} {mode : ModeCode} {st : Mesi} (hob : cfg.l1Ob = cfg.l2Ob)
    (h : Coherent cfg k.caches) (hz : (probe cfg.l2 k.l2 a).isValid = false)
    (fill : FilledFromMemory cfg c a mode st k e k') : Coherent cfg k'.caches := by
  rw [coherent_iff _ _ c] at h ⊢
  intro b hb
  have hline := h b hb
  rw [stateL1_eq, stateL1_eq, stateL2_eq] at hline ⊢
  rcases fromMemory_line_cases hob fill b with ⟨hs, hx, hy, hz'⟩ | ⟨-, -, hx, hy, hz'⟩ | ⟨-, -, hx, hy, hz'⟩ <;> rw [hz']
  · rw [hx]
    refine lineCoherent_sole st (hy (Bool.eq_false_of_not_eq_true (fun hval => ?_)))
    have := hline.2.2.1 (.inr hval)
    rw [probe_congr _ ((sameLine_l1_iff_l2 hob b a).1 hs), hz] at this
    cases this
  · exact lineCoherent_absent hx hy
  · rw [hy]
    rcases hx with hx | ⟨hx, -⟩ <;> rw [hx]
    · exact hline
    · exact hline.drop rfl

end

/-! ### An access keeps coherence, and so does a step -/

/-- A hit changes the states of one line, in the two L1s. -/
theorem coherent_hit {cfg : Config} {c : CoreId} {a : Addr} {cs : Caches} {k' : Work} {x y : Lookup}
    (hok : CachesOk cfg cs) (h : Coherent cfg cs) 
    (toLocal : Restated cfg.l1 a x (lookup cfg.l1 (cs.l1.get c) a).2 (k'.l1 c))
    (toPeer : Restated cfg.l1 a y (cs.l1.get (peer c)) (k'.l1 (peer c))) (l2 : k'.l2 = cs.l2)
    (hob : cfg.l1Ob = cfg.l2Ob) (hnew : LineCoherent x y (cs.stateL2 cfg a)) : Coherent cfg k'.caches := by
  rw [coherent_iff _ _ c] at h ⊢
  intro b hb
  have hline := h b hb
  rw [stateL1_eq, stateL1_eq, stateL2_eq, toLocal.state, toPeer.state, probe_lookup (((cachesOk_iff _ _).1 hok).1 c), l2]
  by_cases hs : SameLine cfg.l1 b a
  · rw [if_pos hs, if_pos hs, probe_congr _ ((sameLine_l1_iff_l2 hob b a).1 hs)]
    exact hnew
  · rw [if_neg hs, if_neg hs]
    exact hline

/-- The start of a miss leaves the L2's state of the line of `a`: the local victim written back is another line. -/
theorem missStart_stateL2 {cfg : Config} {c : CoreId} {a : Addr} {cs : Caches} {mode : ModeCode} {k : Work}
    (hob : cfg.l1Ob = cfg.l2Ob) (hok : CachesOk cfg cs) (invalid : (cs.stateL1 cfg c a).isValid = false)
    (start : L1Evicted cfg c a (beforeL1Eviction cfg c a mode (afterLocalLookup cfg c a cs)) k) :
    probe cfg.l2 k.l2 a = cs.stateL2 cfg a := by
  obtain ⟨hL1, hL2⟩ := (cachesOk_iff _ _).1 hok
  rw [start.stateL2, if_neg]
  · rw [beforeL1Eviction_l2, afterLocalLookup_l2, probe_lookup hL2]
    rfl
  · rintro ⟨va, -, hM, hs, -⟩
    rw [beforeL1Eviction_l1, afterLocalLookup_local, probe_lookup (hL1 c),
      ← probe_congr _ ((sameLine_l1_iff_l2 hob a va).2 hs)] at hM
    rw [Caches.stateL1, hM] at invalid
    cases invalid

/-- An access by a table that keeps its line coherent keeps every line coherent. -/
theorem Accessed.coherent {T : AccessTable} {cfg : Config} {c : CoreId} {a : Addr} {cs : Caches} {k' : Work}
    (hacc : Accessed T cfg c a cs k') (hT : T.KeepsCoherence) (hob : cfg.l1Ob = cfg.l2Ob) (hok : CachesOk cfg cs)
    (h : Coherent cfg cs) (ha : inRange cfg a) : Coherent cfg k'.caches := by
  cases hacc with
  | hit valid toLocal toPeer l2 =>
    exact coherent_hit hok h toLocal toPeer l2 hob (hT.hit _ _ _ ((coherent_iff _ _ c).1 h a ha) valid)
  | fromL2 invalid hitL2 start read fill =>
    have hk := coherent_l1Evicted hob (coherent_beforeL1Eviction hok h T.mode) start
    refine coherent_fromL2 hob start.ok hk ?_ read fill (hT.fromL2 _)
    rw [missStart_stateL2 hob hok invalid start]
    exact ne_notPresent_of_isValid hitL2
  | fromMemory invalid missL2 start fill =>
    have hk := coherent_l1Evicted hob (coherent_beforeL1Eviction hok h T.mode) start
    refine coherent_fromMemory hob hk ?_ fill
    rwa [missStart_stateL2 hob hok invalid start]

/-- Settles O45: a step leaves the caches or accesses one line by the table of LOAD or of STORE, which keep it coherent. -/
theorem stepKeepsCoherence : Obligations.StepKeepsCoherence := by
  unfold Obligations.StepKeepsCoherence
  rintro s t ⟨hstruct, hcoh⟩ h
  refine ⟨stepKeepsStructure s t hstruct h, ?_⟩
  obtain ⟨⟨hob, -⟩, hcaches, -⟩ := hstruct
  obtain ⟨hcfg, he | ⟨T, c, a, k', hT, ha, hacc, he⟩⟩ := step_caches hcaches h <;> rw [hcfg, he]
  · exact hcoh
  · have hkeeps : T.KeepsCoherence := by
      rcases hT with rfl | rfl
      · exact loadTable_keepsCoherence
      · exact storeTable_keepsCoherence
    exact hacc.coherent hkeeps hob hcaches hcoh ha

/-! ## The default geometry: one valid line per L1 set (R35) -/

/-- A direct-mapped cache holds one line of each set. -/
theorem sameLine_of_directMapped {g : Geometry} {K : Cache} (hg : g.ways = 1) (h : CacheOk g K) {a b : Addr}
    (ha : probe g K a ≠ .notPresent) (hb : probe g K b ≠ .notPresent)
    (hidx : (decodeAddr g a).index = (decodeAddr g b).index) : SameLine g a b := by
  have hset := setAt_congr K hidx
  have hok := setAt_ok h b
  have hway : ∀ {t w : Nat}, (setAt g K b).matchWay t = some w → ((setAt g K b).line 0).tag = some t := by
    intro t w hm
    obtain ⟨hw, ht⟩ := (matchWay_eq_some_iff hok t w).1 hm
    obtain rfl : w = 0 := by omega
    exact ht
  obtain ⟨v, hv⟩ := Option.ne_none_iff_exists'.1 (mt probe_of_no_match ha)
  obtain ⟨w, hw⟩ := Option.ne_none_iff_exists'.1 (mt probe_of_no_match hb)
  rw [hset] at hv
  exact ⟨hidx, Option.some.inj ((hway hv).symm.trans (hway hw))⟩

/-- In a direct-mapped cache the victim of a miss is the line its set holds. -/
theorem victim_of_directMapped {g : Geometry} {K : Cache} (hg : g.ways = 1) (h : CacheOk g K) {a b : Addr}
    (hb : probe g K b ≠ .notPresent) (hidx : (decodeAddr g b).index = (decodeAddr g a).index) :
    ∃ va, victimAddress g K a = some va ∧ SameLine g b va := by
  obtain ⟨w, hw⟩ := Option.ne_none_iff_exists'.1 (mt probe_of_no_match hb)
  rw [setAt_congr K hidx] at hw
  obtain ⟨hlt, htag⟩ := (matchWay_eq_some_iff (setAt_ok h a) _ w).1 hw
  have hfill := fillWay_lt h (by omega) a
  obtain rfl : w = fillWay g K a := by omega
  refine ⟨_, victimAddress_eq_some.2 ⟨_, htag, rfl⟩, ?_⟩
  obtain ⟨h1, h2⟩ := decodeAddr_lineOf (g := g) (decodeAddr g b).tag (decodeAddr_index_lt g a)
  exact ⟨hidx.trans h1.symm, h2.symm⟩

/-- The L2 index lies inside the L1 index. -/
theorem DefaultGeometry.l2_index {cfg : Config} (hgeo : DefaultGeometry cfg) {a b : Addr}
    (h : (decodeAddr cfg.l1 a).index = (decodeAddr cfg.l1 b).index) :
    (decodeAddr cfg.l2 a).index = (decodeAddr cfg.l2 b).index := by
  obtain ⟨-, hob1, hib1, -, hob2, hib2, -⟩ := hgeo
  simp only [decodeAddr_index, Config.l1, Config.l2, hob1, hib1, hob2, hib2] at h ⊢
  have hmod (n : Nat) : n % 2 ^ 12 = n % 2 ^ 16 % 2 ^ 12 := (Nat.mod_mod_of_dvd n (by decide)).symm
  rw [hmod, h, ← hmod]

/-- Two lines of one L1 set that the L2 holds are one line. -/
theorem DefaultGeometry.sameLine {cfg : Config} (hgeo : DefaultGeometry cfg) {K : Cache} (hK : CacheOk cfg.l2 K)
    {a b : Addr} (ha : probe cfg.l2 K a ≠ .notPresent) (hb : probe cfg.l2 K b ≠ .notPresent)
    (hidx : (decodeAddr cfg.l1 a).index = (decodeAddr cfg.l1 b).index) : SameLine cfg.l1 a b := by
  obtain ⟨-, hob1, -, -, hob2, -, hways⟩ := id hgeo
  exact (sameLine_l1_iff_l2 (hob1.trans hob2.symm) a b).2 (sameLine_of_directMapped hways hK ha hb (hgeo.l2_index hidx))

/-- Settles O47: by inclusion the L2 holds both lines, and it holds one line of the set. -/
theorem oneValidLinePerL1Set : Obligations.OneValidLinePerL1Set := by
  unfold Obligations.OneValidLinePerL1Set
  refine ⟨fun cfg a b hgeo hidx => ⟨hgeo.l2_index hidx, hgeo.2.2.2.2.2.2⟩, ?_⟩
  rintro s c a b ⟨⟨-, ⟨-, -, hL2⟩, -⟩, hcoh⟩ hgeo ha hb hidx hva hvb
  refine (sameLine_l1_iff _ _ _).1 (hgeo.sameLine hL2 ?_ ?_ hidx)
  · exact ne_notPresent_of_isValid (hcoh.inclusion c a ha hva)
  · exact ne_notPresent_of_isValid (hcoh.inclusion c b hb hvb)

/-! ## The facts of R36, one line at a time -/

/-- R36 items 1 (no L2 line in `M`), 2 and 3 for one line: `x` and `y` are its states in the two L1s, `z` in the L2. -/
abbrev LineDefault (x y z : Lookup) : Prop :=
  z ≠ .found .M ∧ (z.isValid = true → x.isValid = true ∨ y.isValid = true) ∧
    (x = .found .S → y = .found .S) ∧ (y = .found .S → x = .found .S)

theorem LineDefault.symm {x y z : Lookup} (h : LineDefault x y z) : LineDefault y x z := by
  obtain ⟨hM, hcopy, hxy, hyx⟩ := h
  exact ⟨hM, fun hz => (hcopy hz).symm, hyx, hxy⟩

/-- R36 item 1 for one line of an L1: if it is valid, it is its set's most recently used. -/
def RecentIfValid (g : Geometry) (K : Cache) (b : Addr) : Prop :=
  (probe g K b).isValid = true → (setAt g K b).matchWay (decodeAddr g b).tag = (setAt g K b).lru.getLast?

/-- The facts of R36 are those of every line, seen from either core. -/
theorem defaultFacts_iff (cfg : Config) (cs : Caches) (c : CoreId) :
    DefaultFacts cfg cs ↔ ∀ b, inRange cfg b → RecentIfValid cfg.l1 (cs.l1.get c) b ∧
      RecentIfValid cfg.l1 (cs.l1.get (peer c)) b ∧
      LineDefault (cs.stateL1 cfg c b) (cs.stateL1 cfg (peer c) b) (cs.stateL2 cfg b) := by
  constructor
  · intro h b hb
    have hback := h.sharedInPairs (peer c) b hb
    rw [peer_peer] at hback
    refine ⟨h.validIsRecent c b hb, h.validIsRecent (peer c) b hb, h.noL2Modified b hb, fun hz => ?_,
      h.sharedInPairs c b hb, hback⟩
    obtain ⟨d, hd⟩ := h.l2HasCopy b hb hz
    rcases eq_or_eq_peer c d with rfl | rfl
    · exact .inl hd
    · exact .inr hd
  · intro h
    refine ⟨fun d b hb => ?_, fun b hb => (h b hb).2.2.1, fun b hb hz => ?_, fun d b hb => ?_⟩
    · rcases eq_or_eq_peer c d with rfl | rfl
      · exact (h b hb).1
      · exact (h b hb).2.1
    · exact ((h b hb).2.2.2.1 hz).elim (fun hx => ⟨_, hx⟩) (fun hy => ⟨_, hy⟩)
    · obtain ⟨-, -, -, -, hxy, hyx⟩ := h b hb
      rcases eq_or_eq_peer c d with rfl | rfl
      · exact hxy
      · rw [peer_peer]
        exact hyx

/-- Invalid copies are alike. -/
theorem LineDefault.of_invalid {x x' y z : Lookup} (h : LineDefault x y z) (hx : x.isValid = false)
    (hx' : x'.isValid = false) : LineDefault x' y z := by
  obtain ⟨hM, hcopy, -, hyx⟩ := h
  refine ⟨hM, fun hz => (hcopy hz).imp_left (by simp [hx]), ?_, fun hy => ?_⟩
  · rintro rfl
    cases hx'
  · rw [hyx hy] at hx
    cases hx

/-- A line with no copy anywhere. -/
theorem lineDefault_absent {x y : Lookup} (hx : x.isValid = false) (hy : y.isValid = false) :
    LineDefault x y .notPresent := by
  refine ⟨by simp, fun hz => absurd hz (by decide), ?_, ?_⟩
  · rintro rfl
    cases hx
  · rintro rfl
    cases hy

/-- What the facts of R36 on the accessed line ask of a table. -/
structure AccessTable.KeepsDefault (T : AccessTable) : Prop where
  hit : ∀ x y z, LineDefault x y z → x.isValid = true → LineDefault (T.hitLocal x) (T.hitPeer x y) z
  fromL2 : ∀ y, y.isValid = true → LineDefault (.found (T.fillState y)) (T.missPeer y) (.found .S)
  fromMemory : ∀ y, y.isValid = false → LineDefault (.found T.memoryState) y (.found .S)
  /-- a hit gives the peer no copy -/
  hitPeer_valid : ∀ x y, (T.hitPeer x y).isValid = true → y.isValid = true
  /-- a miss gives the peer no copy -/
  missPeer_valid : ∀ y, (T.missPeer y).isValid = true → y.isValid = true

theorem loadTable_keepsDefault : loadTable.KeepsDefault where
  hit _ _ _ h _ := h
  fromL2 := Lookup.forall_iff.2 ⟨by decide, by decide, by decide, by decide, by decide⟩
  fromMemory := Lookup.forall_iff.2 ⟨by decide, by decide, by decide, by decide, by decide⟩
  hitPeer_valid _ _ h := h
  missPeer_valid := Lookup.forall_iff.2 ⟨by decide, by decide, by decide, by decide, by decide⟩

theorem storeTable_keepsDefault : storeTable.KeepsDefault where
  hit x y z h _ := by
    obtain ⟨hM, -, -, hyx⟩ := h
    refine ⟨hM, fun _ => .inl rfl, by simp [storeTable], fun hy => ?_⟩
    change (if x = .found .S ∧ y.isValid = true then Lookup.found .I else y) = _ at hy
    split at hy
    · cases hy
    · rename_i hno
      exact absurd ⟨hyx hy, congrArg Lookup.isValid hy⟩ hno
  fromL2 := Lookup.forall_iff.2 ⟨by decide, by decide, by decide, by decide, by decide⟩
  fromMemory := Lookup.forall_iff.2 ⟨by decide, by decide, by decide, by decide, by decide⟩
  hitPeer_valid x y h := by
    change (if x = .found .S ∧ y.isValid = true then Lookup.found .I else y).isValid = true at h
    split at h
    · cases h
    · exact h
  missPeer_valid := Lookup.forall_iff.2 ⟨by decide, by decide, by decide, by decide, by decide⟩

/-! ## Recency (R36 item 1) -/

/-- A line stays recent where no line of its set becomes valid, no tag moves and the most recent way stays. -/
theorem RecentIfValid.of_before {g : Geometry} {K K' : Cache} {b : Addr} (h : RecentIfValid g K b)
    (hv : (probe g K' b).isValid = true → (probe g K b).isValid = true)
    (hm : (setAt g K' b).matchWay (decodeAddr g b).tag = (setAt g K b).matchWay (decodeAddr g b).tag)
    (hl : (setAt g K' b).lru.getLast? = (setAt g K b).lru.getLast?) : RecentIfValid g K' b := by
  intro hval
  rw [hm, hl]
  exact h (hv hval)

/-- An installed line is recent (R106). -/
theorem Installed.recent {g : Geometry} {K K' : Cache} {a b : Addr} {st : Mesi} (h : Installed g K K' a st)
    (hK : CacheOk g K) (hK' : CacheOk g K') (hg : 1 ≤ g.ways) (hs : SameLine g b a) : RecentIfValid g K' b := by
  intro _
  rw [setAt_congr K' hs.1, hs.2, h.lru, touch_last, matchWay_eq_some_iff (setAt_ok hK' a), h.line]
  exact ⟨fillWay_lt hK hg a, rfl⟩

/-- A lookup of a recent valid line moves no most recent way: it touches the most recent one (R102). -/
theorem last_lookup_of_recent {g : Geometry} {K : Cache} (h : CacheOk g K) {a : Addr} (hr : RecentIfValid g K a)
    (hv : (probe g K a).isValid = true) (b : Addr) :
    (setAt g (lookup g K a).2 b).lru.getLast? = (setAt g K b).lru.getLast? := by
  rcases setAt_lookup h a b with he | ⟨w, hidx, hm, he⟩
  · rw [he]
  · rw [he, touch_last, setAt_congr K hidx, ← hr hv, hm]

/-- A lookup leaves the sets of other indices. -/
theorem setAt_lookup_otherSet {g : Geometry} {K : Cache} (h : CacheOk g K) {a b : Addr}
    (hb : (decodeAddr g b).index ≠ (decodeAddr g a).index) : setAt g (lookup g K a).2 b = setAt g K b :=
  (setAt_lookup h a b).resolve_right (fun ⟨_, hidx, _⟩ => hb hidx)

/-- In a set of two ways or more the least recently used way is not the most recently used one. -/
theorem last_ne_oldest {g : Geometry} {set : CacheSet} (h : SetOk g set) (hg : 2 ≤ g.ways) :
    set.lru.getLast? ≠ some set.oldest := by
  have hnd : set.lru.Nodup := h.2.1.nodup_iff.2 List.nodup_range
  have hlen : set.lru.length = g.ways := by rw [h.2.1.length_eq, List.length_range]
  unfold CacheSet.oldest
  match hlru : set.lru with
  | [] => simp
  | [x] =>
    rw [hlru] at hlen
    simp at hlen
    omega
  | x :: y :: rest =>
    rw [hlru] at hnd
    rw [List.getLast?_cons_cons]
    intro hlast
    exact (List.nodup_cons.1 hnd).1 (List.mem_of_getLast? hlast)

/-- Where the valid lines of a set are its most recent, the victim of a miss is not valid (R36 item 1). -/
theorem victim_invalid_of_recent {g : Geometry} {K : Cache} (h : CacheOk g K) (hg : 2 ≤ g.ways) {a va : Addr}
    (hr : RecentIfValid g K va) (ha : (probe g K a).isValid = false) (hv : victimAddress g K a = some va) :
    (probe g K va).isValid = false := by
  refine Bool.eq_false_of_not_eq_true (fun hval => ?_)
  obtain ⟨-, hm, hset⟩ := match_victim h (by omega) hv
  have hlast := hr hval
  rw [hm, hset] at hlast
  cases hma : (setAt g K a).matchWay (decodeAddr g a).tag with
  | none =>
    refine last_ne_oldest (setAt_ok h a) hg ?_
    simpa [fillWay, CacheSet.fillWay, hma] using hlast.symm
  | some w =>
    obtain ⟨va', hv', hs⟩ := victim_of_present (g := g) (K := K) (a := a) (by simp [probe_of_match hma])
    obtain rfl : va' = va := Option.some.inj (hv'.symm.trans hv)
    rw [probe_congr K hs, ha] at hval
    cases hval

theorem victimAddress_lookup {g : Geometry} {K : Cache} (h : CacheOk g K) (a : Addr) :
    victimAddress g (lookup g K a).2 a = victimAddress g K a := by
  unfold victimAddress
  rw [selectVictim_lookup h]

theorem eq_I_of_invalid (st : Mesi) (h : (Lookup.found st).isValid = false) : st = .I := by
  cases st with
  | I => rfl
  | S | E | M => cases h

/-! ## A miss in the default geometry (R36) -/

section
variable {cfg : Config} {cs : Caches} {c : CoreId} {a : Addr} (hwf : cfg.Wf) (hgeo : DefaultGeometry cfg)
  (hok : CachesOk cfg cs) (h : Coherent cfg cs) (hd : DefaultFacts cfg cs) (ha : inRange cfg a)
  (invalid : (cs.stateL1 cfg c a).isValid = false)

include hwf hgeo hok hd invalid in
/-- The local victim of a miss is Invalid (R36 item 1, first consequence). -/
theorem localVictim_state {va : Addr} (hv : victimAddress cfg.l1 (cs.l1.get c) a = some va) :
    cs.stateL1 cfg c va = .found .I := by
  have hK := ((cachesOk_iff _ _).1 hok).1 c
  have hva : inRange cfg va := by
    have := victimAddress_lt hK (ways_l1 hwf) hv
    rwa [← config_l1_widths hwf] at this
  obtain ⟨-, -, -, hways, -⟩ := hgeo
  have hinv := victim_invalid_of_recent hK (Nat.le_of_eq hways.symm) (hd.validIsRecent c va hva) invalid hv
  have hst := probe_victim hK (ways_l1 hwf) hv
  rw [hst] at hinv
  rw [Caches.stateL1, hst, eq_I_of_invalid _ hinv]

/-- What the start of a miss leaves in the default geometry: every state as before, and every set but the local one of `a`. -/
structure QuietStart (cfg : Config) (c : CoreId) (a : Addr) (cs : Caches) (k : Work) : Prop where
  ok : CachesOk cfg k.caches
  peer : k.l1 (peer c) = cs.l1.get (peer c)
  stateLocal : ∀ b, probe cfg.l1 (k.l1 c) b = cs.stateL1 cfg c b
  stateL2 : ∀ b, probe cfg.l2 k.l2 b = cs.stateL2 cfg b
  victim : victimAddress cfg.l1 (k.l1 c) a = victimAddress cfg.l1 (cs.l1.get c) a
  matchWay : ∀ b t, (setAt cfg.l1 (k.l1 c) b).matchWay t = (setAt cfg.l1 (cs.l1.get c) b).matchWay t
  otherSets : ∀ b, (decodeAddr cfg.l1 b).index ≠ (decodeAddr cfg.l1 a).index →
    (setAt cfg.l1 (k.l1 c) b).lru = (setAt cfg.l1 (cs.l1.get c) b).lru

include hwf hgeo hok hd invalid in
theorem quietStart_of_default {mode : ModeCode} {k : Work}
    (start : L1Evicted cfg c a (beforeL1Eviction cfg c a mode (afterLocalLookup cfg c a cs)) k) :
    QuietStart cfg c a cs k := by
  obtain ⟨hL1, hL2⟩ := (cachesOk_iff _ _).1 hok
  have hvic := fun va => localVictim_state hwf hgeo hok hd invalid (va := va)
  refine ⟨start.ok, ?_, fun b => ?_, fun b => ?_, ?_, fun b t => ?_, fun b hb => ?_⟩
  · rw [start.peer, beforeL1Eviction_l1, afterLocalLookup_peer]
  · rw [start.stateL1, beforeL1Eviction_l1, afterLocalLookup_local, victimAddress_lookup (hL1 c), probe_lookup (hL1 c)]
    split
    · rename_i hv
      obtain ⟨va, hva, hs⟩ := hv
      exact (hvic va hva).symm.trans (probe_congr _ hs).symm
    · rfl
  · rw [start.stateL2, beforeL1Eviction_l1, afterLocalLookup_local, beforeL1Eviction_l2, afterLocalLookup_l2,
      victimAddress_lookup (hL1 c), if_neg, probe_lookup hL2]
    · rfl
    · rintro ⟨va, hva, hM, -⟩
      rw [probe_lookup (hL1 c)] at hM
      exact absurd ((hvic va hva).symm.trans hM) (by decide)
  · rw [start.local_victim, beforeL1Eviction_l1, afterLocalLookup_local, victimAddress_lookup (hL1 c)]
  · rw [start.local_match, beforeL1Eviction_l1, afterLocalLookup_local, matchWay_lookup (hL1 c)]
  · rw [start.local_lru, beforeL1Eviction_l1, afterLocalLookup_local, setAt_lookup_otherSet (hL1 c) hb]

/-- A line that was left as it was, or dropped, is valid only if it was. -/
theorem isValid_of_kept_or_dropped {x x' : Lookup} {P : Prop} (hx : x' = x ∨ x' = .notPresent ∧ P)
    (hv : x'.isValid = true) : x.isValid = true := by
  rcases hx with rfl | ⟨rfl, -⟩
  · exact hv
  · cases hv

include hwf hgeo hok hd invalid in
/-- A line but that of `a`, left as it was or dropped as the local victim, keeps its facts: the victim was Invalid. -/
theorem lineDefault_kept_or_dropped {b : Addr} {x' y z : Lookup} (hline : LineDefault (cs.stateL1 cfg c b) y z)
    (hx : x' = cs.stateL1 cfg c b ∨
      x' = .notPresent ∧ LocalVictim cfg (cs.l1.get c) a b) :
    LineDefault x' y z := by
  rcases hx with rfl | ⟨rfl, va, hva, hs⟩
  · exact hline
  · have hI : cs.stateL1 cfg c b = .found .I :=
      (probe_congr _ hs).trans (localVictim_state hwf hgeo hok hd invalid hva)
    exact hline.of_invalid (by rw [hI]; rfl) rfl

include hwf hgeo hok h hd ha invalid in
/-- The fill from the L2 keeps the facts of R36: the peer's copy is valid, hence its set's most recent, and the local set has no
other valid line. -/
theorem defaultFacts_fromL2 {k k2 k' : Work} {T : AccessTable} (hT : T.KeepsDefault)
    (hitL2 : (cs.stateL2 cfg a).isValid = true) (start : QuietStart cfg c a cs k)
    (read : PeerRead cfg c a (T.missPeer (cs.stateL1 cfg (peer c) a)) k k2)
    (fill : FilledFromL2 cfg c a (T.fillState (cs.stateL1 cfg (peer c) a)) k2 k') : DefaultFacts cfg k'.caches := by
  obtain ⟨hL1, hL2⟩ := (cachesOk_iff _ _).1 hok
  have hz : cs.stateL2 cfg a ≠ .notPresent := ne_notPresent_of_isValid hitL2
  have hbefore := (defaultFacts_iff _ _ c).1 hd
  have hy : (cs.stateL1 cfg (peer c) a).isValid = true :=
    ((hbefore a ha).2.2.2.1 hitL2).resolve_left (by simp [invalid])
  have hlast := last_lookup_of_recent (hL1 (peer c)) (hbefore a ha).2.1 hy
  have hread := read.peer
  rw [start.peer] at hread
  rw [defaultFacts_iff _ _ c]
  intro b hb
  obtain ⟨hrecent, hrecentPeer, hline⟩ := hbefore b hb
  have hcases := fromL2_line_cases hwf.1 start.ok (by rwa [start.stateL2]) read fill b
  rw [start.stateLocal, start.peer, start.stateL2, LocalVictim, start.victim] at hcases
  refine ⟨?_, hrecentPeer.of_before ?_ ?_ ?_, ?_⟩
  · rcases hcases with ⟨hs, -⟩ | ⟨hs, hx, -⟩
    · exact fill.installed.recent ((read.ok start.ok).l1 c) (fill.ok.l1 c) (ways_l1 hwf) hs
    · intro hval
      have hvalBefore := isValid_of_kept_or_dropped hx hval
      have hidx : (decodeAddr cfg.l1 b).index ≠ (decodeAddr cfg.l1 a).index := fun hidx =>
        hs (hgeo.sameLine hL2 (ne_notPresent_of_isValid (h.inclusion c b hb hvalBefore)) hz hidx)
      refine hrecent.of_before (fun _ => hvalBefore) ?_ ?_ hval <;>
        rw [Work.caches_l1, fill.otherSets b hidx, read.local_l1]
      · exact start.matchWay b _
      · rw [start.otherSets b hidx]
  · rcases hcases with ⟨hs, -, hy', -⟩ | ⟨-, -, hy', -⟩ <;> rw [Work.caches_l1, hy']
    · rw [probe_congr _ hs]
      exact hT.missPeer_valid _
    · exact id
  · rw [Work.caches_l1, fill.peer, hread.matchWay, matchWay_lookup (hL1 _)]
  · rw [Work.caches_l1, fill.peer, hread.lru, hlast]
  · rw [stateL1_eq, stateL1_eq, stateL2_eq]
    rcases hcases with ⟨-, hx, hy', hz'⟩ | ⟨-, hx, hy', hz'⟩ <;> rw [hy', hz']
    · rw [hx]
      exact hT.fromL2 _ hy
    · exact lineDefault_kept_or_dropped hwf hgeo hok hd invalid hline hx

include hwf hgeo hok h hd invalid in
/-- The fill of both levels keeps the facts of R36: a valid line of the L1 sets of `a` is the L2's one line of their set, which
the L2 eviction takes from all caches. -/
theorem defaultFacts_fromMemory {k e k' : Work} {T : AccessTable} (hT : T.KeepsDefault)
    (missL2 : (cs.stateL2 cfg a).isValid = false) (start : QuietStart cfg c a cs k)
    (fill : FilledFromMemory cfg c a T.mode T.memoryState k e k') : DefaultFacts cfg k'.caches := by
  have hbefore := (defaultFacts_iff _ _ c).1 hd
  obtain ⟨-, -, -, -, -, -, hways⟩ := id hgeo
  rw [defaultFacts_iff _ _ c]
  intro b hb
  obtain ⟨hrecent, hrecentPeer, hline⟩ := hbefore b hb
  have hcases := fromMemory_line_cases hwf.1 fill b
  rw [start.stateLocal, start.peer, start.stateL2, LocalVictim, start.victim] at hcases
  refine ⟨?_, hrecentPeer.of_before ?_ ?_ ?_, ?_⟩
  · rcases hcases with ⟨hs, -⟩ | ⟨-, -, hx, -⟩ | ⟨-, hvic, hx, -⟩
    · exact fill.installed.recent (fill.evicted.ok.l1 c) (fill.ok.l1 c) (ways_l1 hwf) hs
    · intro hval
      exact absurd hval (by rw [Work.caches_l1, hx]; decide)
    · intro hval
      have hvalBefore := isValid_of_kept_or_dropped hx hval
      have hidx : (decodeAddr cfg.l1 b).index ≠ (decodeAddr cfg.l1 a).index := by
        intro hidx
        have hpresent : probe cfg.l2 k.l2 b ≠ .notPresent := by
          rw [start.stateL2]
          exact ne_notPresent_of_isValid (h.inclusion c b hb hvalBefore)
        obtain ⟨va, hva, hs⟩ := victim_of_directMapped hways start.ok.l2 hpresent (hgeo.l2_index hidx)
        exact hvic ⟨va, hva, (sameLine_l1_iff_l2 hwf.1 b va).2 hs⟩
      refine hrecent.of_before (fun _ => hvalBefore) ?_ ?_ hval <;> rw [Work.caches_l1, fill.otherSets b hidx]
      · rw [fill.evicted.l1_match]
        exact start.matchWay b _
      · rw [fill.evicted.l1_lru, Work.emit_l1, start.otherSets b hidx]
  · intro hval
    rcases hcases with ⟨-, -, hy, -⟩ | ⟨-, -, -, hy, -⟩ | ⟨-, -, -, hy, -⟩ <;> rw [Work.caches_l1] at hval
    · exact Bool.eq_true_of_not_eq_false (fun hinv => by simp [hy hinv] at hval)
    · simp [hy] at hval
    · rwa [hy] at hval
  · rw [Work.caches_l1, fill.peer, fill.evicted.l1_match, Work.emit_l1, start.peer]
  · rw [Work.caches_l1, fill.peer, fill.evicted.l1_lru, Work.emit_l1, start.peer]
  · rw [stateL1_eq, stateL1_eq, stateL2_eq]
    rcases hcases with ⟨hs, hx, hy, hz⟩ | ⟨-, -, hx, hy, hz⟩ | ⟨-, -, hx, hy, hz⟩ <;> rw [hz]
    · have hnone : (cs.stateL1 cfg (peer c) b).isValid = false := by
        refine Bool.eq_false_of_not_eq_true (fun hval => ?_)
        have hincl := h.inclusion (peer c) b hb hval
        have hsame : cs.stateL2 cfg b = cs.stateL2 cfg a := probe_congr _ ((sameLine_l1_iff_l2 hwf.1 b a).1 hs)
        rw [hsame, missL2] at hincl
        cases hincl
      rw [hx]
      exact hT.fromMemory _ (hy hnone)
    · exact lineDefault_absent hx hy
    · rw [hy]
      exact lineDefault_kept_or_dropped hwf hgeo hok hd invalid hline hx

end

/-! ## An access keeps the facts of R36, and so does a step -/

/-- A hit in the default geometry touches the way that is its set's most recent already. -/
theorem defaultFacts_hit {cfg : Config} {c : CoreId} {a : Addr} {cs : Caches} {k' : Work} {T : AccessTable}
    (hob : cfg.l1Ob = cfg.l2Ob) (hok : CachesOk cfg cs) (hd : DefaultFacts cfg cs) (ha : inRange cfg a)
    (hT : T.KeepsDefault) (valid : (cs.stateL1 cfg c a).isValid = true)
    (toLocal : Restated cfg.l1 a (T.hitLocal (cs.stateL1 cfg c a)) (lookup cfg.l1 (cs.l1.get c) a).2 (k'.l1 c))
    (toPeer : Restated cfg.l1 a (T.hitPeer (cs.stateL1 cfg c a) (cs.stateL1 cfg (peer c) a)) (cs.l1.get (peer c))
      (k'.l1 (peer c)))
    (l2 : k'.l2 = cs.l2) : DefaultFacts cfg k'.caches := by
  have hL1 := ((cachesOk_iff _ _).1 hok).1
  have hbefore := (defaultFacts_iff _ _ c).1 hd
  have hlast := last_lookup_of_recent (hL1 c) (hbefore a ha).1 valid
  rw [defaultFacts_iff _ _ c]
  intro b hb
  obtain ⟨hrecent, hrecentPeer, hline⟩ := hbefore b hb
  have hstLocal := toLocal.state b
  have hstPeer := toPeer.state b
  rw [probe_lookup (hL1 c)] at hstLocal
  refine ⟨hrecent.of_before ?_ ?_ ?_, hrecentPeer.of_before ?_ (toPeer.matchWay b _) (congrArg _ (toPeer.lru b)), ?_⟩
  · intro hval
    rw [Work.caches_l1, hstLocal] at hval
    split at hval
    · rename_i hs
      rwa [probe_congr _ hs]
    · exact hval
  · rw [Work.caches_l1, toLocal.matchWay, matchWay_lookup (hL1 c)]
  · rw [Work.caches_l1, toLocal.lru, hlast]
  · intro hval
    rw [Work.caches_l1, hstPeer] at hval
    split at hval
    · rename_i hs
      rw [probe_congr _ hs]
      exact hT.hitPeer_valid _ _ hval
    · exact hval
  · rw [stateL1_eq, stateL1_eq, stateL2_eq, hstLocal, hstPeer, l2]
    by_cases hs : SameLine cfg.l1 b a
    · rw [if_pos hs, if_pos hs, probe_congr _ ((sameLine_l1_iff_l2 hob b a).1 hs)]
      exact hT.hit _ _ _ (hbefore a ha).2.2 valid
    · rw [if_neg hs, if_neg hs]
      exact hline

/-- An access by a table that keeps the facts of its line keeps those of every line. -/
theorem Accessed.defaultFacts {T : AccessTable} {cfg : Config} {c : CoreId} {a : Addr} {cs : Caches} {k' : Work}
    (hacc : Accessed T cfg c a cs k') (hT : T.KeepsDefault) (hwf : cfg.Wf) (hgeo : DefaultGeometry cfg)
    (hok : CachesOk cfg cs) (h : Coherent cfg cs) (hd : DefaultFacts cfg cs) (ha : inRange cfg a) :
    DefaultFacts cfg k'.caches := by
  cases hacc with
  | hit valid toLocal toPeer l2 => exact defaultFacts_hit hwf.1 hok hd ha hT valid toLocal toPeer l2
  | fromL2 invalid hitL2 start read fill =>
    exact defaultFacts_fromL2 hwf hgeo hok h hd ha invalid hT hitL2
      (quietStart_of_default hwf hgeo hok hd invalid start) read fill
  | fromMemory invalid missL2 start fill =>
    exact defaultFacts_fromMemory hwf hgeo hok h hd invalid hT missL2
      (quietStart_of_default hwf hgeo hok hd invalid start) fill

/-- Settles O48: a step leaves the caches or accesses one line by the table of LOAD or of STORE, which keep its facts. -/
theorem stepKeepsDefaultFacts : Obligations.StepKeepsDefaultFacts := by
  unfold Obligations.StepKeepsDefaultFacts
  rintro s t ⟨⟨hwf, hcaches, -⟩, hcoh⟩ hgeo hd h
  obtain ⟨hcfg, he | ⟨T, c, a, k', hT, ha, hacc, he⟩⟩ := step_caches hcaches h <;> rw [hcfg, he]
  · exact hd
  · have hkeeps : T.KeepsDefault := by
      rcases hT with rfl | rfl
      · exact loadTable_keepsDefault
      · exact storeTable_keepsDefault
    exact hacc.defaultFacts hkeeps hwf hgeo hcaches hcoh hd ha

/-! ## No victim is written back in the default geometry (R36) -/

/-- A back-invalidation writes back no L2 line. -/
theorem l2Writeback_not_mem_backEvents (cfg : Config) (c : CoreId) (cs : Caches) (va : Addr) (d : CoreId) (vb : Addr) :
    Event.writeback c vb .l2 .mem ∉ backEvents cfg c cs va d := by
  unfold backEvents
  split <;> simp

/-- Where the L2 victim is not Modified, the L2 writes nothing back (R115). -/
theorem l2Writeback_not_mem_l2VictimEvents {cfg : Config} {cs : Caches} {a : Addr}
    (h : ∀ va, victimAddress cfg.l2 cs.l2 a = some va → cs.stateL2 cfg va ≠ .found .M) (c : CoreId) (vb : Addr) :
    Event.writeback c vb .l2 .mem ∉ l2VictimEvents cfg c cs a := by
  unfold l2VictimEvents
  split
  · simp
  · rename_i va hva
    rw [if_neg (h va hva)]
    simp [l2Writeback_not_mem_backEvents]

/-- Settles O49: the local victim is Invalid, so it is not written back and makes no L2 line Modified. -/
theorem defaultGeometryNoVictimWriteback : Obligations.DefaultGeometryNoVictimWriteback := by
  unfold Obligations.DefaultGeometryNoVictimWriteback
  rintro s a ⟨⟨hwf, hok, -⟩, -⟩ hgeo hd - invalid
  have hvic := fun va => localVictim_state hwf hgeo hok hd invalid (va := va)
  constructor
  · unfold l1VictimEvents
    split
    · rfl
    · rename_i va hva
      rw [hvic va hva, if_neg (by decide)]
  · have hevicted := evictL1Victim_spec hwf s.issuing a (k := ⟨s.caches, []⟩) hok
    refine l2Writeback_not_mem_l2VictimEvents (fun va hva hM => ?_) s.issuing
    have hrange : inRange s.cfg va := by
      have := victimAddress_lt hevicted.ok.l2 (ways_l2 hwf) hva
      rwa [← config_l2_widths hwf] at this
    have hstate := hevicted.stateL2 va
    rw [if_neg (fun ⟨vb, hvb, hmod, _⟩ => absurd ((hvic vb hvb).symm.trans hmod) (by decide))] at hstate
    exact hd.noL2Modified va hrange (hstate.symm.trans hM)

/-! ## Reset, the end of a run, and the read port -/

/-- The reset state is in order, in every allowed configuration (R240). -/
theorem structOk_resetWith {cfg : Config} (h : cfg.Wf) (t1 t2 : Option (List Item)) : StructOk (resetWith cfg t1 t2) := by
  have hpow : 0 < 2 ^ cfg.cntW := Nat.two_pow_pos _
  obtain ⟨-, -, -, -, -, hratio1, -⟩ := id h
  have hslot : 0 < roundSlots cfg := Nat.add_pos_left hratio1 _
  exact ⟨h, ⟨cacheOk_reset _, cacheOk_reset _, cacheOk_reset _⟩, ⟨hpow, hpow, hpow, hpow, hpow⟩, Nat.zero_le _,
    Nat.zero_le _, hslot⟩

theorem stateL1_reset (cfg : Config) (c : CoreId) (a : Addr) : Caches.reset.stateL1 cfg c a = .notPresent := by
  cases c <;> exact probe_reset _ a

theorem stateL2_reset (cfg : Config) (a : Addr) : Caches.reset.stateL2 cfg a = .notPresent := probe_reset _ a

/-- Caches that hold no line are coherent. -/
theorem coherent_reset (cfg : Config) : Coherent cfg Caches.reset := by
  rw [coherent_iff _ _ .core1]
  intro b _
  rw [stateL1_reset, stateL1_reset, stateL2_reset]
  exact lineCoherent_absent rfl rfl

/-- Caches that hold no line meet the facts of R36. -/
theorem defaultFacts_reset (cfg : Config) : DefaultFacts cfg Caches.reset := by
  have hrecent (c : CoreId) (b : Addr) : RecentIfValid cfg.l1 (Caches.reset.l1.get c) b := by
    intro hval
    rw [show probe cfg.l1 (Caches.reset.l1.get c) b = .notPresent from stateL1_reset cfg c b] at hval
    cases hval
  rw [defaultFacts_iff _ _ .core1]
  intro b _
  refine ⟨hrecent _ b, hrecent _ b, ?_⟩
  rw [stateL1_reset, stateL1_reset, stateL2_reset]
  exact lineDefault_absent rfl rfl

/-- Settles O46: the reset caches hold no line, and the reset counters and cursors are 0. -/
theorem resetMeetsInvariants : Obligations.ResetMeetsInvariants := by
  unfold Obligations.ResetMeetsInvariants
  have hinv {cfg : Config} (h : cfg.Wf) (t1 t2 : Option (List Item)) : Inv (resetWith cfg t1 t2) :=
    ⟨structOk_resetWith h t1 t2, coherent_reset cfg⟩
  have hdefault : State.reset = resetWith Config.default (some []) (some []) := rfl
  refine ⟨fun cfg t1 t2 h => ⟨hinv h t1 t2, defaultFacts_reset cfg⟩, ?_, hdefault⟩
  rw [hdefault]
  exact hinv (by decide) _ _

theorem step_of_done {s : State} (h : s.cfg.Wf) (hrun : s.run = .done) : step s = .fault .runDone := by
  rw [step, if_pos h, hrun]

theorem step_of_faulted {s : State} {info : FaultInfo} (h : s.cfg.Wf) (hrun : s.run = .faulted info) :
    step s = .fault (.runFaulted info) := by
  rw [step, if_pos h, hrun]

/-- Settles O14: a step asks for the run state before it looks for an item. -/
theorem noStepAfterTheEnd : Obligations.NoStepAfterTheEnd := by
  unfold Obligations.NoStepAfterTheEnd
  exact fun s h => ⟨step_of_done h, fun _ => step_of_faulted h⟩

/-- Settles O52: each index is its own equation of the read port. -/
theorem readPortNamesCounters : Obligations.ReadPortNamesCounters := by
  unfold Obligations.ReadPortNamesCounters
  exact fun _ => ⟨rfl, rfl, rfl, rfl, rfl, rfl⟩

end Sys2Proof.Machine

/-! ## The address codec and the line of an address (R52 to R56) -/

namespace Sys2Proof.Machine

/-- `encode` undoes `decode` (the other half of R54). -/
theorem encodeAddr_decodeAddr (g : Geometry) (a : Addr) :
    encodeAddr g (decodeAddr g a).index (decodeAddr g a).tag (decodeAddr g a).offset = a := by
  have hoff : (decodeAddr g a).offset < 2 ^ g.ob := Nat.mod_lt _ (Nat.two_pow_pos _)
  rw [encodeAddr_eq _ (decodeAddr_index_lt g a) hoff, decodeAddr_index, decodeAddr_tag]
  calc a / 2 ^ g.ob / 2 ^ g.ib * 2 ^ (g.ob + g.ib) + a / 2 ^ g.ob % 2 ^ g.ib * 2 ^ g.ob + a % 2 ^ g.ob
      = 2 ^ g.ob * (2 ^ g.ib * (a / 2 ^ g.ob / 2 ^ g.ib) + a / 2 ^ g.ob % 2 ^ g.ib) + a % 2 ^ g.ob := by
        rw [Nat.pow_add]; ring
    _ = a := by rw [Nat.div_add_mod, Nat.div_add_mod]

/-- Settles O3: the two codecs undo each other, and an address whose fields fit its geometry is of the geometry's width. -/
theorem addressCodecRoundTrip : Obligations.AddressCodecRoundTrip := by
  unfold Obligations.AddressCodecRoundTrip
  rintro g n rfl
  exact ⟨fun a _ => encodeAddr_decodeAddr g a,
    fun i t o hi ho ht => ⟨encodeAddr_lt hi ht ho, decodeAddr_encodeAddr t hi ho⟩⟩

/-- Settles O4: a field is a shift and a remainder of the address; the tag needs no remainder, since the address has 32 bits. -/
theorem defaultAddressFields : Obligations.DefaultAddressFields := by
  unfold Obligations.DefaultAddressFields
  intro a
  have htag (n : Nat) (hn : n ≤ 32) : a.toNat >>> n % 2 ^ (31 - n + 1) = a.toNat >>> n := by
    refine Nat.mod_eq_of_lt ?_
    rw [Nat.shiftRight_eq_div_pow, Nat.div_lt_iff_lt_mul (Nat.two_pow_pos _), ← Nat.pow_add]
    exact a.isLt.trans_le (Nat.pow_le_pow_right (by decide) (by omega))
  simp only [BitVec.extractLsb_toNat, htag 21 (by decide), htag 17 (by decide)]
  exact ⟨rfl, rfl⟩

/-- Settles O5: `lineAddr` is the offset taken off, so it and the address agree above the offset, which is all that the index
and the tag of either cache read. -/
theorem lineAddressSelectsLine : Obligations.LineAddressSelectsLine := by
  unfold Obligations.LineAddressSelectsLine
  rintro cfg a ⟨hob, -⟩
  have hmod : lineAddr cfg a % 2 ^ cfg.l1Ob = 0 := by rw [lineAddr_eq, Nat.mul_mod_left]
  have hlt : a < lineAddr cfg a + 2 ^ cfg.l1Ob := by
    rw [lineAddr_eq]
    exact Nat.lt_div_mul_add (Nat.two_pow_pos _)
  obtain ⟨hindex1, htag1⟩ := sameLine_lineAddr cfg a
  obtain ⟨hindex2, htag2⟩ := (sameLine_l1_iff_l2 hob _ _).1 (sameLine_lineAddr cfg a)
  exact ⟨hmod, Nat.sub_le _ _, hlt, hindex1, htag1, hindex2, htag2⟩

end Sys2Proof.Machine

/-! ## What two addresses of one line share (R56, R58) -/

namespace Sys2Proof.Machine

/-- Addresses of one line are in range together (R50, R55). -/
theorem inRange_of_lineAddr_eq {cfg : Config} (h : cfg.Wf) {a b : Addr} (ha : inRange cfg a)
    (hab : lineAddr cfg a = lineAddr cfg b) : inRange cfg b := by
  obtain ⟨-, hwidth, -⟩ := h
  have hpow : 2 ^ cfg.addrW = 2 ^ (cfg.addrW - cfg.l1Ob) * 2 ^ cfg.l1Ob := by
    rw [← Nat.pow_add, Nat.sub_add_cancel (by omega)]
  have hiff (x : Addr) : inRange cfg x ↔ x / 2 ^ cfg.l1Ob < 2 ^ (cfg.addrW - cfg.l1Ob) := by
    rw [inRange, hpow, Nat.div_lt_iff_lt_mul (Nat.two_pow_pos _)]
  rwa [hiff, ← (lineAddr_eq_iff_div cfg a b).1 hab, ← hiff]

/-! ### The primitives of one cache read the index and the tag alone -/

section
variable {g : Geometry} {a b : Addr}

theorem lookup_congr (K : Cache) (h : SameLine g a b) : lookup g K a = lookup g K b := by
  unfold lookup putAt
  rw [setAt_congr K h.1, h.1, h.2]

theorem setState_congr (st : Mesi) (K : Cache) (h : SameLine g a b) : setState g st a K = setState g st b K := by
  unfold setState putAt
  rw [setAt_congr K h.1, h.1, h.2]

theorem fillWay_congr (K : Cache) (h : SameLine g a b) : fillWay g K a = fillWay g K b := by
  unfold fillWay
  rw [setAt_congr K h.1, h.2]

theorem install_congr (st : Mesi) (w : Nat) (K : Cache) (h : SameLine g a b) :
    install g st w a K = install g st w b K := by
  unfold install putAt
  rw [setAt_congr K h.1, h.1, h.2]

theorem selectVictim_congr (K : Cache) (h : SameLine g a b) : selectVictim g K a = selectVictim g K b := by
  unfold selectVictim
  rw [setAt_congr K h.1, fillWay_congr K h]

theorem invalidateWay_congr (w : Nat) (K : Cache) (h : SameLine g a b) : invalidateWay g w a K = invalidateWay g w b K := by
  unfold invalidateWay putAt
  rw [setAt_congr K h.1, h.1]

end

/-! ### Work up to the offset of the addresses in its events -/

/-- The event with the requested address, where it reports one, replaced by its line address. -/
def Event.atLine (cfg : Config) : Event → Event
  | .hit c a m => .hit c (lineAddr cfg a) m
  | .missL1 c a m => .missL1 c (lineAddr cfg a) m
  | .missL2 c a m => .missL2 c (lineAddr cfg a) m
  | .writeback c a src dst => .writeback c a src dst
  | .invalidate c a target => .invalidate c a target
  | .invalidAction c a m => .invalidAction c (lineAddr cfg a) m

theorem Event.isMissL1Of_atLine (cfg : Config) (c : CoreId) (e : Event) :
    (e.atLine cfg).isMissL1Of c = e.isMissL1Of c := by cases e <;> rfl

theorem Event.isMissL2_atLine (cfg : Config) (e : Event) : (e.atLine cfg).isMissL2 = e.isMissL2 := by cases e <;> rfl

/-- The counters do not read the addresses of events (R190 to R192). -/
theorem countRecord_atLine (cfg : Config) (c : CoreId) (evs : List Event) (cnt : Counters) :
    countRecord cfg c (evs.map (Event.atLine cfg)) cnt = countRecord cfg c evs cnt := by
  simp [countRecord, List.countP_map, Function.comp_def, Event.isMissL1Of_atLine, Event.isMissL2_atLine]

/-- Two works with the same caches, whose events differ at most in the offsets of the requested addresses. -/
structure AlikeByLine (cfg : Config) (k k' : Work) : Prop where
  caches : k.caches = k'.caches
  events : k.events.map (Event.atLine cfg) = k'.events.map (Event.atLine cfg)

namespace AlikeByLine

variable {cfg : Config} {k k' : Work}

theorem refl (cfg : Config) (k : Work) : AlikeByLine cfg k k := ⟨rfl, rfl⟩

theorem l1 (h : AlikeByLine cfg k k') (c : CoreId) : k.l1 c = k'.l1 c := congrArg (fun cs : Caches => cs.l1.get c) h.caches

theorem l2 (h : AlikeByLine cfg k k') : k.l2 = k'.l2 := congrArg Caches.l2 h.caches

theorem emit (h : AlikeByLine cfg k k') {e e' : Event} (he : e.atLine cfg = e'.atLine cfg) :
    AlikeByLine cfg (k.emit e) (k'.emit e') := ⟨h.caches, by simp [h.events, he]⟩

theorem emit_same (h : AlikeByLine cfg k k') (e : Event) : AlikeByLine cfg (k.emit e) (k'.emit e) := h.emit rfl

theorem withL1 (h : AlikeByLine cfg k k') (c : CoreId) {K K' : Cache} (hK : K = K') :
    AlikeByLine cfg (k.withL1 c K) (k'.withL1 c K') := ⟨by simp [Work.withL1, h.caches, hK], h.events⟩

theorem withL2 (h : AlikeByLine cfg k k') {K K' : Cache} (hK : K = K') :
    AlikeByLine cfg (k.withL2 K) (k'.withL2 K') := ⟨by simp [Work.withL2, h.caches, hK], h.events⟩

theorem ite {p : Prop} [Decidable p] {m m' : Work} (h : AlikeByLine cfg k k') (h' : AlikeByLine cfg m m') :
    AlikeByLine cfg (if p then k else m) (if p then k' else m') := by
  split
  · exact h
  · exact h'

/-! ### The evictions -/

theorem backInvalidate (h : AlikeByLine cfg k k') (c : CoreId) (va : Addr) (target : CoreId) :
    AlikeByLine cfg (backInvalidate cfg c va target k) (backInvalidate cfg c va target k') := by
  rw [backInvalidate_eq, backInvalidate_eq, h.caches, h.l1]
  exact ⟨(ite (h.withL1 target rfl) h).caches, by simp [h.events]⟩

variable {a b : Addr} (hob : cfg.l1Ob = cfg.l2Ob) (hab : lineAddr cfg a = lineAddr cfg b)

include hab in
theorem evictL1Victim (h : AlikeByLine cfg k k') (c : CoreId) :
    AlikeByLine cfg (evictL1Victim cfg c a k).2 (evictL1Victim cfg c b k').2 := by
  have hl1 := (sameLine_l1_iff cfg a b).2 hab
  unfold Machine.evictL1Victim
  simp only [h.l1, h.l2, fillWay_congr _ hl1, selectVictim_congr _ hl1, invalidateWay_congr _ _ hl1, hl1.1]
  cases (selectVictim cfg.l1 (k'.l1 c) b).tag with
  | none => exact h
  | some t =>
    cases (selectVictim cfg.l1 (k'.l1 c) b).st with
    | M => exact ((h.emit_same _).withL2 rfl).withL1 c (by simp [h.l1])
    | E | S | I => exact h.withL1 c (by simp [h.l1])

include hob hab in
theorem evictL2Victim (h : AlikeByLine cfg k k') (c : CoreId) :
    AlikeByLine cfg (evictL2Victim cfg c a k).2 (evictL2Victim cfg c b k').2 := by
  have hl2 := (sameLine_l2_iff hob a b).2 hab
  unfold Machine.evictL2Victim
  simp only [h.l2, fillWay_congr _ hl2, selectVictim_congr _ hl2, invalidateWay_congr _ _ hl2, hl2.1]
  cases (selectVictim cfg.l2 k'.l2 b).tag with
  | none => exact h
  | some t =>
    dsimp only
    generalize encodeAddr cfg.l2 (decodeAddr cfg.l2 b).index t 0 = va
    have hown := ite (p := (selectVictim cfg.l2 k'.l2 b).st = .M) (h.emit_same (.writeback c va .l2 .mem)) h
    have hback := (hown.backInvalidate c va .core1).backInvalidate c va .core2
    exact hback.withL2 (by rw [hback.l2])

/-! ### The parts of a miss -/

include hob hab in
theorem startMiss (h : AlikeByLine cfg k k') (c : CoreId) (mode : ModeCode) :
    AlikeByLine cfg (startMiss cfg c a mode k).work (startMiss cfg c b mode k').work := by
  have hl2 := (sameLine_l2_iff hob a b).2 hab
  refine evictL1Victim hab (emit (h.withL2 ?_) ?_) c
  · rw [h.l2, lookup_congr _ hl2]
  · simp [Event.atLine, hab]

include hab in
theorem startMiss_way (h : AlikeByLine cfg k k') (c : CoreId) (mode : ModeCode) :
    (Machine.startMiss cfg c a mode k).way = (Machine.startMiss cfg c b mode k').way := by
  rw [Machine.startMiss_way, Machine.startMiss_way, h.l1, fillWay_congr _ ((sameLine_l1_iff cfg a b).2 hab)]

include hob hab in
theorem fillFromMemory (h : AlikeByLine cfg k k') (c : CoreId) (mode : ModeCode) (st : Mesi) (w : Nat) :
    AlikeByLine cfg (fillFromMemory cfg c a mode st w k) (fillFromMemory cfg c b mode st w k') := by
  have hl1 := (sameLine_l1_iff cfg a b).2 hab
  have hl2 := (sameLine_l2_iff hob a b).2 hab
  have he :=
    (h.emit (e := .missL2 c a mode) (e' := .missL2 c b mode) (by simp [Event.atLine, hab])).evictL2Victim hob hab c
  unfold Machine.fillFromMemory
  simp only [evictL2Victim_way, Work.emit_l2, h.l2, fillWay_congr _ hl2, install_congr _ _ _ hl1, install_congr _ _ _ hl2]
  refine (he.withL1 c ?_).withL2 ?_ <;> simp [he.l1, he.l2]

include hob hab in
theorem fillFromL2 (h : AlikeByLine cfg k k') (c : CoreId) (st : Mesi) (w : Nat) :
    AlikeByLine cfg (fillFromL2 cfg c a st w k) (fillFromL2 cfg c b st w k') := by
  have hl1 := (sameLine_l1_iff cfg a b).2 hab
  have hl2 := (sameLine_l2_iff hob a b).2 hab
  refine (h.withL1 c ?_).withL2 ?_
  · rw [h.l1, install_congr _ _ _ hl1]
  · rw [Work.withL1_l2, Work.withL1_l2, h.l2, setState_congr _ _ hl2]

include hab in
theorem invalidatePeer (h : AlikeByLine cfg k k') (c : CoreId) :
    AlikeByLine cfg (invalidatePeer cfg c a k) (invalidatePeer cfg c b k') := by
  have hl1 := (sameLine_l1_iff cfg a b).2 hab
  refine emit (h.withL1 _ ?_) ?_
  · rw [h.l1, setState_congr _ _ hl1]
  · rw [hab]

include hab in
/-- The peer's L1 after the lookup of a miss that hits the L2. -/
theorem lookupPeer (h : AlikeByLine cfg k k') (c : CoreId) :
    AlikeByLine cfg (k.withL1 (peer c) (lookup cfg.l1 (k.l1 (peer c)) a).2)
      (k'.withL1 (peer c) (lookup cfg.l1 (k'.l1 (peer c)) b).2) := by
  refine h.withL1 _ ?_
  rw [h.l1, lookup_congr _ ((sameLine_l1_iff cfg a b).2 hab)]

include hob hab in
theorem loadFromPeer (h : AlikeByLine cfg k k') (c : CoreId) (w : Nat) :
    AlikeByLine cfg (loadFromPeer cfg c a w k) (loadFromPeer cfg c b w k') := by
  have hl1 := (sameLine_l1_iff cfg a b).2 hab
  have hread := h.lookupPeer hab c
  unfold Machine.loadFromPeer
  simp only [h.l1, lookup_congr _ hl1, hab] at hread ⊢
  cases (lookup cfg.l1 (k'.l1 (peer c)) b).1 with
  | notPresent => exact hread.fillFromL2 hob hab c _ w
  | found st =>
    cases st with
    | M => exact ((hread.emit_same _).invalidatePeer hab c).fillFromL2 hob hab c _ w
    | E => exact (hread.withL1 _ (by rw [hread.l1, setState_congr _ _ hl1])).fillFromL2 hob hab c _ w
    | S | I => exact hread.fillFromL2 hob hab c _ w

include hob hab in
theorem storeFromPeer (h : AlikeByLine cfg k k') (c : CoreId) (w : Nat) :
    AlikeByLine cfg (storeFromPeer cfg c a w k) (storeFromPeer cfg c b w k') := by
  have hl1 := (sameLine_l1_iff cfg a b).2 hab
  have hread := h.lookupPeer hab c
  unfold Machine.storeFromPeer
  simp only [h.l1, lookup_congr _ hl1] at hread ⊢
  exact (ite (hread.invalidatePeer hab c) hread).fillFromL2 hob hab c _ w

include hab in
theorem storeUpgrade (h : AlikeByLine cfg k k') (c : CoreId) :
    AlikeByLine cfg (storeUpgrade cfg c a k) (storeUpgrade cfg c b k') := by
  have hl1 := (sameLine_l1_iff cfg a b).2 hab
  have hpeer := ite (p := (probe cfg.l1 (k'.l1 (peer c)) b).isValid) (h.invalidatePeer hab c) h
  unfold Machine.storeUpgrade
  rw [h.l1 (peer c), probe_congr _ hl1]
  refine hpeer.withL1 c ?_
  rw [hpeer.l1, setState_congr _ _ hl1]

/-! ### LOAD and STORE -/

include hab in
theorem afterLocalLookup (c : CoreId) (cs : Caches) :
    AlikeByLine cfg (afterLocalLookup cfg c a cs) (afterLocalLookup cfg c b cs) := by
  refine (refl cfg _).withL1 c ?_
  rw [lookup_congr _ ((sameLine_l1_iff cfg a b).2 hab)]

include hob hab in
/-- Two Loads of one line take the same path and stay alike. -/
theorem loadOp (c : CoreId) (cs : Caches) : AlikeByLine cfg (loadOp cfg c a cs) (loadOp cfg c b cs) := by
  have hlookup := afterLocalLookup hab c cs
  have hstateL1 : cs.stateL1 cfg c a = cs.stateL1 cfg c b := probe_congr _ ((sameLine_l1_iff cfg a b).2 hab)
  have hstateL2 : cs.stateL2 cfg a = cs.stateL2 cfg b := probe_congr _ ((sameLine_l2_iff hob a b).2 hab)
  by_cases hhit : (cs.stateL1 cfg c b).isValid = true
  · rw [loadOp_hit (hstateL1 ▸ hhit), loadOp_hit hhit]
    exact hlookup.emit (by simp [Event.atLine, hab])
  · rw [Bool.not_eq_true] at hhit
    have hmiss := hlookup.startMiss hob hab c modeLoad
    have hway := hlookup.startMiss_way hab c modeLoad
    by_cases hhit2 : (cs.stateL2 cfg b).isValid = true
    · rw [loadOp_missL2Hit (hstateL1 ▸ hhit) (hstateL2 ▸ hhit2), loadOp_missL2Hit hhit hhit2, hway]
      exact hmiss.loadFromPeer hob hab c _
    · rw [Bool.not_eq_true] at hhit2
      rw [loadOp_missL2Miss (hstateL1 ▸ hhit) (hstateL2 ▸ hhit2), loadOp_missL2Miss hhit hhit2, hway]
      exact hmiss.fillFromMemory hob hab c _ _ _

include hob hab in
theorem storeMiss (h : AlikeByLine cfg k k') (c : CoreId) :
    AlikeByLine cfg (storeMiss cfg c a k) (storeMiss cfg c b k') := by
  have hmiss := h.startMiss hob hab c modeStore
  have hway := h.startMiss_way hab c modeStore
  have hstateL2 : probe cfg.l2 k.l2 a = probe cfg.l2 k'.l2 b := by
    rw [h.l2, probe_congr _ ((sameLine_l2_iff hob a b).2 hab)]
  by_cases hhit2 : (probe cfg.l2 k'.l2 b).isValid = true
  · rw [storeMiss_l2Hit (hstateL2 ▸ hhit2), storeMiss_l2Hit hhit2, hway]
    exact hmiss.storeFromPeer hob hab c _
  · rw [Bool.not_eq_true] at hhit2
    rw [storeMiss_l2Miss (hstateL2 ▸ hhit2), storeMiss_l2Miss hhit2, hway]
    exact hmiss.fillFromMemory hob hab c _ _ _

include hob hab in
/-- Two Stores to one line take the same path and stay alike. -/
theorem storeOp (c : CoreId) (cs : Caches) : AlikeByLine cfg (storeOp cfg c a cs) (storeOp cfg c b cs) := by
  have hl1 := (sameLine_l1_iff cfg a b).2 hab
  have hlookup := afterLocalLookup hab c cs
  have hhit := hlookup.emit (e := .hit c a modeStore) (e' := .hit c b modeStore) (by simp [Event.atLine, hab])
  have hstate : cs.stateL1 cfg c a = cs.stateL1 cfg c b := probe_congr _ hl1
  rcases (cs.stateL1 cfg c b).owner_or_shared_or_invalid with howner | hshared | hinvalid
  · rw [storeOp_hitOwner (hstate ▸ howner), storeOp_hitOwner howner]
    refine hhit.withL1 c ?_
    rw [hlookup.l1, setState_congr _ _ hl1]
  · rw [storeOp_hitShared (hstate ▸ hshared), storeOp_hitShared hshared]
    exact hhit.storeUpgrade hab c
  · rw [storeOp_miss (hstate ▸ hinvalid), storeOp_miss hinvalid]
    exact hlookup.storeMiss hob hab c

end AlikeByLine

/-- Two operations that leave alike works complete, with the same caches and counters. -/
theorem exec_alikeByLine {s : State} {i j : Instr} (hi : inRange s.cfg i.addr) (hj : inRange s.cfg j.addr)
    (h : AlikeByLine s.cfg (opOf i s.cfg s.issuing i.addr s.caches) (opOf j s.cfg s.issuing j.addr s.caches)) :
    ∃ t u, exec i s = .next t ∧ exec j s = .next u ∧ t.caches = u.caches ∧ t.counters = u.counters := by
  refine ⟨_, _, exec_inRange hi, exec_inRange hj, h.caches, ?_⟩
  rw [completeRecord_counters, completeRecord_counters, ← countRecord_atLine, h.events, countRecord_atLine]

/-- Settles O6: the caches are read and written at the index and the tag alone, and the offset reaches only the addresses that
the events report, which the counters do not read. -/
theorem offsetDoesNotMatter : Obligations.OffsetDoesNotMatter := by
  unfold Obligations.OffsetDoesNotMatter
  intro s a b hcfg ha hab
  have hb := inRange_of_lineAddr_eq hcfg ha hab
  exact ⟨exec_alikeByLine (i := .load a) (j := .load b) ha hb (AlikeByLine.loadOp hcfg.1 hab _ _),
    exec_alikeByLine (i := .store a) (j := .store b) ha hb (AlikeByLine.storeOp hcfg.1 hab _ _)⟩

end Sys2Proof.Machine

/-! ## Request words: the decoder and the encoder (R72 to R76) -/

namespace Sys2Proof

@[simp] theorem selectInstr_mode (mode : ModeCode) (addr : Addr) : (selectInstr mode addr).mode = mode := by
  unfold selectInstr
  split_ifs with hload hstore
  · exact hload.symm
  · exact hstore.symm
  · rfl

@[simp] theorem selectInstr_addr (mode : ModeCode) (addr : Addr) : (selectInstr mode addr).addr = addr := by
  unfold selectInstr
  split_ifs <;> rfl

theorem selectInstr_of_invalidMode {mode : ModeCode} (h : isInvalidMode mode) (addr : Addr) :
    selectInstr mode addr = .invalidAction mode addr := by
  obtain ⟨hload, hstore⟩ := h
  rw [selectInstr, if_neg hload, if_neg hstore]

/-- The mode and the address of a well-formed operation select it (R73). -/
theorem selectInstr_mode_addr {addrW : Nat} {i : Instr} (h : i.WellFormed addrW) : selectInstr i.mode i.addr = i := by
  cases i with
  | load addr => rfl
  | store addr => rfl
  | invalidAction mode addr => exact selectInstr_of_invalidMode (of_decide_eq_true h.2) addr

/-- An operation that a mode selects is well-formed where its address fits: an Invalid-Action has neither valid mode. -/
theorem selectInstr_wellFormed {addrW : Nat} (mode : ModeCode) {addr : Addr} (h : addrFits addrW addr) :
    (selectInstr mode addr).WellFormed addrW := by
  by_cases hload : mode = modeLoad
  · subst hload
    exact ⟨h, rfl⟩
  by_cases hstore : mode = modeStore
  · subst hstore
    exact ⟨h, rfl⟩
  · have hinvalid : isInvalidMode mode := ⟨hload, hstore⟩
    rw [selectInstr_of_invalidMode hinvalid]
    exact ⟨h, decide_eq_true hinvalid⟩

theorem decodeWord_of_fits {addrW : Nat} {w : ReqWord} (h : w < 2 ^ (addrW + 8)) :
    decodeWord addrW w = .instr (selectInstr (wordMode addrW w) (wordAddr addrW w)) := if_pos h

/-- A mode above an address that fits decodes to the operation the mode selects (R72, R73). -/
theorem decodeWord_modeOverAddr {addrW : Nat} (mode : ModeCode) {addr : Addr} (h : addrFits addrW addr) :
    decodeWord addrW ((mode.toNat <<< addrW) ||| addr) = .instr (selectInstr mode addr) := by
  obtain ⟨hfits, hmode, haddr⟩ := Laws.modeOverAddr mode h
  rw [decodeWord_of_fits hfits, hmode, haddr]

/-- The two fields of a word of `ADDR_W + 8` bits are all of it (R72). -/
theorem wordMode_over_wordAddr {addrW : Nat} {w : ReqWord} (h : w < 2 ^ (addrW + 8)) :
    ((wordMode addrW w).toNat <<< addrW) ||| wordAddr addrW w = w := by
  have haddr : wordAddr addrW w < 2 ^ addrW := Nat.mod_lt _ (Nat.two_pow_pos _)
  have hhigh : w / 2 ^ addrW < 2 ^ 8 := by
    refine Nat.div_lt_of_lt_mul ?_
    rwa [← Nat.pow_add]
  have hmode : (wordMode addrW w).toNat = w / 2 ^ addrW := by
    rw [wordMode, BitVec.toNat_ofNat, Nat.shiftRight_eq_div_pow, Nat.mod_eq_of_lt hhigh]
  rw [← Nat.shiftLeft_add_eq_or_of_lt haddr, Nat.shiftLeft_eq, hmode, wordAddr, Nat.div_add_mod']

/-- Settles O7: the word's two fields read back, and they select the operation. -/
theorem decodeEncodeRoundTrip : Obligations.DecodeEncodeRoundTrip := by
  unfold Obligations.DecodeEncodeRoundTrip
  intro addrW i hi
  rw [encode, decodeWord_modeOverAddr i.mode hi.1, selectInstr_mode_addr hi]

/-- Settles O8: the operation is the one its mode field selects on its address field. -/
theorem everyWordDecodes : Obligations.EveryWordDecodes := by
  unfold Obligations.EveryWordDecodes
  intro addrW w hw
  refine ⟨_, decodeWord_of_fits hw, selectInstr_wellFormed _ (Nat.mod_lt _ (Nat.two_pow_pos _)), ?_⟩
  rw [encode, selectInstr_mode, selectInstr_addr, wordMode_over_wordAddr hw]

/-- A word of the opcode table decodes to what its top 8 bits select on its low 32 bits (R72, R73). -/
theorem decodeTableWord_toNat (w : BitVec 40) :
    decodeTableWord 40 w.toNat = some (selectInstr (w.extractLsb 39 32) (w.extractLsb 31 0).toNat) := by
  have hfits : w.toNat % 2 ^ 40 < 2 ^ (Config.default.addrW + 8) := Nat.mod_lt _ (Nat.two_pow_pos _)
  have haddr : wordAddr Config.default.addrW w.toNat = (w.extractLsb 31 0).toNat := by
    rw [BitVec.extractLsb_toNat, Nat.shiftRight_zero]
    rfl
  rw [decodeTableWord, decodeWord_of_fits hfits, Nat.mod_eq_of_lt w.isLt, haddr]
  rfl

/-- Settles O9: the fields of both forms of the word are its mode and its address, and `selectInstr` matches the mode exactly. -/
theorem modeSelectsOperation : Obligations.ModeSelectsOperation := by
  unfold Obligations.ModeSelectsOperation
  constructor
  · intro addrW mode addr haddr
    rw [← Nat.shiftLeft_eq, Nat.shiftLeft_add_eq_or_of_lt haddr, decodeWord_modeOverAddr mode haddr]
    rfl
  · intro w
    rw [decodeTableWord_toNat]
    refine ⟨fun hload => ?_, fun hstore => ?_, fun hload hstore => ?_⟩
    · rw [hload]
      rfl
    · rw [hstore]
      rfl
    · rw [selectInstr_of_invalidMode ⟨hload, hstore⟩]

/-- Settles O10: each word is closed, and the decoder computes its operation. -/
theorem sampleWordsDecode : Obligations.SampleWordsDecode := by
  unfold Obligations.SampleWordsDecode
  decide

end Sys2Proof

/-! ## The per-operation outcome (R84) -/

namespace Sys2Proof.Machine

/-- Is this an event of a line's transfer, a Writeback or an Invalidate, which the per-operation outcome does not read? -/
def Event.isTransfer : Event → Bool
  | .writeback _ _ _ _ => true
  | .invalidate _ _ _ => true
  | _ => false

/-- The events of the work so far that the per-operation outcome reads. -/
def Work.accesses (k : Work) : List Event := k.events.filter (fun e => !e.isTransfer)

@[simp] theorem Work.accesses_withL1 (k : Work) (c : CoreId) (K : Cache) : (k.withL1 c K).accesses = k.accesses := rfl
@[simp] theorem Work.accesses_withL2 (k : Work) (K : Cache) : (k.withL2 K).accesses = k.accesses := rfl

theorem Work.accesses_emit (k : Work) (e : Event) :
    (k.emit e).accesses = k.accesses ++ if e.isTransfer then [] else [e] := by
  unfold Work.accesses
  cases he : e.isTransfer <;> simp [he]

@[simp] theorem Work.accesses_emit_writeback (k : Work) (c : CoreId) (a : Addr) (src : CacheId) (dst : WbDest) :
    (k.emit (.writeback c a src dst)).accesses = k.accesses := by simp [accesses_emit, Event.isTransfer]
@[simp] theorem Work.accesses_emit_invalidate (k : Work) (c : CoreId) (a : Addr) (target : CoreId) :
    (k.emit (.invalidate c a target)).accesses = k.accesses := by simp [accesses_emit, Event.isTransfer]
@[simp] theorem Work.accesses_emit_hit (k : Work) (c : CoreId) (a : Addr) (mode : ModeCode) :
    (k.emit (.hit c a mode)).accesses = k.accesses ++ [.hit c a mode] := k.accesses_emit _
@[simp] theorem Work.accesses_emit_missL1 (k : Work) (c : CoreId) (a : Addr) (mode : ModeCode) :
    (k.emit (.missL1 c a mode)).accesses = k.accesses ++ [.missL1 c a mode] := k.accesses_emit _
@[simp] theorem Work.accesses_emit_missL2 (k : Work) (c : CoreId) (a : Addr) (mode : ModeCode) :
    (k.emit (.missL2 c a mode)).accesses = k.accesses ++ [.missL2 c a mode] := k.accesses_emit _

/-- No transfer event has a kind that the outcome asks for (R81, R84). -/
theorem any_kind_accesses {n : Nat} (hn : n = 5 ∨ n = 0 ∨ n = 1 ∨ n = 2) (k : Work) :
    k.accesses.any (fun e => e.kind == n) = k.events.any (fun e => e.kind == n) := by
  have htransfer : ∀ e : Event, (!e.isTransfer && e.kind == n) = (e.kind == n) := by
    intro e
    rcases hn with rfl | rfl | rfl | rfl <;> cases e <;> rfl
  unfold Work.accesses
  rw [List.any_filter]
  simp only [htransfer]

/-- The outcome reads nothing but the events of the accesses (R84). -/
theorem opOutcome_accesses (k : Work) : opOutcome k.accesses = opOutcome k.events := by
  simp [opOutcome, any_kind_accesses]

/-! ### Transfers: the parts of an access that report neither a hit nor a miss -/

@[simp] theorem evictL1Victim_accesses (cfg : Config) (c : CoreId) (a : Addr) (k : Work) :
    (evictL1Victim cfg c a k).2.accesses = k.accesses := by
  unfold evictL1Victim
  cases htag : (selectVictim cfg.l1 (k.l1 c) a).tag with
  | none => simp only [htag]
  | some t =>
    simp only [htag, Work.accesses_withL1]
    cases (selectVictim cfg.l1 (k.l1 c) a).st <;> simp

@[simp] theorem backInvalidate_accesses (cfg : Config) (c : CoreId) (va : Addr) (target : CoreId) (k : Work) :
    (backInvalidate cfg c va target k).accesses = k.accesses := by
  simp only [backInvalidate]
  split_ifs <;> simp

@[simp] theorem evictL2Victim_accesses (cfg : Config) (c : CoreId) (a : Addr) (k : Work) :
    (evictL2Victim cfg c a k).2.accesses = k.accesses := by
  unfold evictL2Victim
  cases htag : (selectVictim cfg.l2 k.l2 a).tag with
  | none => simp only [htag]
  | some t =>
    simp only [htag, Work.accesses_withL2, backInvalidate_accesses]
    split_ifs <;> simp

@[simp] theorem invalidatePeer_accesses (cfg : Config) (c : CoreId) (a : Addr) (k : Work) :
    (invalidatePeer cfg c a k).accesses = k.accesses := by simp [invalidatePeer]

@[simp] theorem fillFromL2_accesses (cfg : Config) (c : CoreId) (a : Addr) (st : Mesi) (w : Nat) (k : Work) :
    (fillFromL2 cfg c a st w k).accesses = k.accesses := rfl

@[simp] theorem loadFromPeer_accesses (cfg : Config) (c : CoreId) (a : Addr) (w : Nat) (k : Work) :
    (loadFromPeer cfg c a w k).accesses = k.accesses := by
  unfold loadFromPeer
  rcases hy : (lookup cfg.l1 (k.l1 (peer c)) a).1 with _ | st
  · simp [hy]
  · cases st <;> simp [hy]

@[simp] theorem storeFromPeer_accesses (cfg : Config) (c : CoreId) (a : Addr) (w : Nat) (k : Work) :
    (storeFromPeer cfg c a w k).accesses = k.accesses := by
  unfold storeFromPeer
  rw [fillFromL2_accesses]
  split <;> simp

@[simp] theorem storeUpgrade_accesses (cfg : Config) (c : CoreId) (a : Addr) (k : Work) :
    (storeUpgrade cfg c a k).accesses = k.accesses := by
  unfold storeUpgrade
  split <;> simp

/-! ### The paths of LOAD and STORE -/

@[simp] theorem afterLocalLookup_accesses (cfg : Config) (c : CoreId) (a : Addr) (cs : Caches) :
    (afterLocalLookup cfg c a cs).accesses = [] := rfl

@[simp] theorem startMiss_accesses (cfg : Config) (c : CoreId) (a : Addr) (mode : ModeCode) (k : Work) :
    (startMiss cfg c a mode k).work.accesses = k.accesses ++ [.missL1 c a mode] := by simp [startMiss]

@[simp] theorem fillFromMemory_accesses (cfg : Config) (c : CoreId) (a : Addr) (mode : ModeCode) (st : Mesi) (w : Nat)
    (k : Work) : (fillFromMemory cfg c a mode st w k).accesses = k.accesses ++ [.missL2 c a mode] := by
  simp [fillFromMemory]

/-- What an access of core `c` to `a` reports of its path: a hit, a miss that hits the L2, or a miss of both (R84). -/
def pathEvents (cfg : Config) (c : CoreId) (a : Addr) (mode : ModeCode) (cs : Caches) : List Event :=
  if (cs.stateL1 cfg c a).isValid then [.hit c a mode]
  else if (cs.stateL2 cfg a).isValid then [.missL1 c a mode]
  else [.missL1 c a mode, .missL2 c a mode]

/-- LOAD reports its path and nothing else but transfers, whatever state the caches are in (R140). -/
theorem loadOp_accesses (cfg : Config) (c : CoreId) (a : Addr) (cs : Caches) :
    (loadOp cfg c a cs).accesses = pathEvents cfg c a modeLoad cs := by
  unfold pathEvents
  cases hx : (cs.stateL1 cfg c a).isValid with
  | true => simp [loadOp_hit hx]
  | false =>
    cases hz : (cs.stateL2 cfg a).isValid with
    | true => simp [loadOp_missL2Hit hx hz]
    | false => simp [loadOp_missL2Miss hx hz]

/-- A Store that hits reports the hit (R161, R162). -/
theorem storeOp_hit_accesses {cfg : Config} {c : CoreId} {a : Addr} {cs : Caches}
    (h : (cs.stateL1 cfg c a).isValid = true) : (storeOp cfg c a cs).accesses = [.hit c a modeStore] := by
  rcases (cs.stateL1 cfg c a).owner_or_shared_or_invalid with howner | hshared | hinvalid
  · simp [storeOp_hitOwner howner]
  · simp [storeOp_hitShared hshared]
  · rw [hinvalid] at h
    contradiction

/-- STORE reports its path and nothing else but transfers, whatever state the caches are in (R160). -/
theorem storeOp_accesses (cfg : Config) (c : CoreId) (a : Addr) (cs : Caches) :
    (storeOp cfg c a cs).accesses = pathEvents cfg c a modeStore cs := by
  unfold pathEvents
  cases hx : (cs.stateL1 cfg c a).isValid with
  | true => simp [storeOp_hit_accesses hx]
  | false =>
    rw [storeOp_miss hx]
    cases hz : (cs.stateL2 cfg a).isValid with
    | true => simp [storeMiss_l2Hit (k := afterLocalLookup cfg c a cs) hz]
    | false => simp [storeMiss_l2Miss (k := afterLocalLookup cfg c a cs) hz]

/-- The outcome that an access's path selects (R84). -/
theorem opOutcome_pathEvents (cfg : Config) (c : CoreId) (a : Addr) (mode : ModeCode) (cs : Caches) :
    opOutcome (pathEvents cfg c a mode cs) =
      some (if (cs.stateL1 cfg c a).isValid then .l1Hit
        else if (cs.stateL2 cfg a).isValid then .l1MissL2Hit else .l1MissL2Miss) := by
  unfold pathEvents
  split
  · rfl
  · split <;> rfl

/-- Settles O34: an operation's events are those of its path and transfers, and the outcome does not read the transfers. -/
theorem outcomeMatchesOperation : Obligations.OutcomeMatchesOperation := by
  unfold Obligations.OutcomeMatchesOperation
  intro i s hi
  refine ⟨_, (opOf i s.cfg s.issuing i.addr s.caches).events, exec_inRange hi, rfl, ?_⟩
  cases i with
  | load a =>
    rw [← opOutcome_accesses, opOf, loadOp_accesses]
    exact opOutcome_pathEvents ..
  | store a =>
    rw [← opOutcome_accesses, opOf, storeOp_accesses]
    exact opOutcome_pathEvents ..
  | invalidAction mode a => rfl

end Sys2Proof.Machine

/-! ## The stored encodings and the codes the host reads (R78 to R82, R90) -/

namespace Sys2Proof.Machine

@[simp] theorem Mesi.ofCode_code (st : Mesi) : Mesi.ofCode st.code = st := by cases st <;> rfl

@[simp] theorem Mesi.code_ofCode (b : BitVec 2) : (Mesi.ofCode b).code = b := by
  revert b
  decide

/-- The upper fields `{tv, tag}` of a stored line (R79). -/
def tagBits (tw : Nat) : Option Nat → Nat
  | none => 0
  | some t => 2 ^ tw + t

section
variable {tw : Nat} {tag : Option Nat} (hfits : ∀ t ∈ tag, t < 2 ^ tw)
include hfits

theorem tagBits_lt : tagBits tw tag < 2 ^ (1 + tw) := by
  rw [Nat.pow_add]
  cases tag with
  | none => exact Nat.mul_pos (by decide) (Nat.two_pow_pos _)
  | some t =>
    have ht : t < 2 ^ tw := hfits t rfl
    show 2 ^ tw + t < _
    omega

theorem testBit_tagBits : (tagBits tw tag).testBit tw = tag.isSome := by
  cases tag with
  | none => exact Nat.zero_testBit tw
  | some t =>
    show (2 ^ tw + t).testBit tw = true
    rw [Nat.testBit_two_pow_add_eq, Nat.testBit_lt_two_pow (hfits t rfl)]
    rfl

/-- The tag is what the upper fields say (R79). -/
theorem tag_of_tagBits : (if (tagBits tw tag).testBit tw then some (tagBits tw tag % 2 ^ tw) else none) = tag := by
  rw [testBit_tagBits hfits]
  cases tag with
  | none => rfl
  | some t =>
    show some ((2 ^ tw + t) % 2 ^ tw) = some t
    rw [Nat.add_mod_left, Nat.mod_eq_of_lt (hfits t rfl)]

/-- The state stands below the upper fields, which do not overlap it (R79). -/
theorem Line.stored_eq (st : Mesi) : Line.stored tw ⟨tag, st⟩ = tagBits tw tag * 2 ^ 2 + st.code.toNat := by
  cases tag with
  | none => exact (Nat.zero_add _).symm
  | some t =>
    have ht : t < 2 ^ tw := hfits t rfl
    show 1 <<< (tw + 2) ||| t <<< 2 ||| st.code.toNat = (2 ^ tw + t) * 2 ^ 2 + st.code.toNat
    rw [Nat.shiftLeft_add 1 tw 2, ← Nat.shiftLeft_or_distrib, ← Nat.shiftLeft_add_eq_or_of_lt ht, Nat.one_shiftLeft,
      ← Nat.shiftLeft_add_eq_or_of_lt st.code.isLt, Nat.shiftLeft_eq]

end

section
variable (q : Nat) (st : Mesi)

theorem shiftRight_two_of_fields : (q * 2 ^ 2 + st.code.toNat) >>> 2 = q := by
  have hst : st.code.toNat < 2 ^ 2 := st.code.isLt
  rw [Nat.shiftRight_eq_div_pow]
  omega

theorem testBit_of_fields (tw : Nat) : (q * 2 ^ 2 + st.code.toNat).testBit (tw + 2) = q.testBit tw := by
  rw [Nat.add_comm tw 2, ← Nat.testBit_shiftRight, shiftRight_two_of_fields]

/-- A line is read from its upper fields and its state (R79). -/
theorem Line.ofStored_of_fields (tw : Nat) :
    Line.ofStored tw (q * 2 ^ 2 + st.code.toNat) = ⟨if q.testBit tw then some (q % 2 ^ tw) else none, st⟩ := by
  have hst : BitVec.ofNat 2 (q * 2 ^ 2 + st.code.toNat) = st.code := by
    apply BitVec.eq_of_toNat_eq
    rw [BitVec.toNat_ofNat, Nat.mul_add_mod_self_right, Nat.mod_eq_of_lt st.code.isLt]
  rw [Line.ofStored, testBit_of_fields, shiftRight_two_of_fields, hst, Mesi.ofCode_code]

end

/-- Settles O50: the stored bits are the upper fields above the state, and both are read back. -/
theorem storedLineRoundTrip : Obligations.StoredLineRoundTrip := by
  unfold Obligations.StoredLineRoundTrip
  rintro g ⟨tag, st⟩ hfits
  rw [Line.stored_eq hfits]
  refine ⟨?_, ?_, ?_⟩
  · rw [Line.ofStored_of_fields, tag_of_tagBits hfits]
  · have hst : st.code.toNat < 2 ^ 2 := st.code.isLt
    have htag := tagBits_lt hfits
    rw [Nat.pow_add]
    omega
  · rw [testBit_of_fields, testBit_tagBits hfits]

theorem State.readFault_of_faulted {s : State} {info : FaultInfo} (h : s.run = .faulted info) :
    s.readFault = some (info.code, info.fields) := by
  rw [State.readFault, h]

/-- Settles O51: each code is its own equation, and a fault reads as its code and fields. -/
theorem codesAreAsTabled : Obligations.CodesAreAsTabled := by
  unfold Obligations.CodesAreAsTabled
  refine ⟨by decide, fun b => ⟨Mesi.ofCode b, Mesi.code_ofCode b, rfl⟩, ⟨rfl, ?_⟩, by decide, ⟨rfl, rfl, fun _ => rfl⟩,
    fun _ _ _ _ _ _ _ => ⟨rfl, rfl, rfl, rfl⟩, ?_⟩
  · intro st
    cases st <;> rfl
  · intro s c n a
    exact ⟨State.readFault_of_faulted, State.readFault_of_faulted, fun _ _ _ _ => State.readFault_of_faulted,
      State.readFault_of_faulted⟩

/-- Settles O55: each kind of event has its own equation of `Event.record`. -/
theorem eventRecordsAreAsTabled : Obligations.EventRecordsAreAsTabled := by
  unfold Obligations.EventRecordsAreAsTabled
  exact ⟨⟨rfl, rfl⟩, fun _ _ _ _ => ⟨rfl, rfl, rfl, rfl, rfl, rfl, rfl, rfl, fun _ => rfl⟩⟩

end Sys2Proof.Machine

/-! ## The transcriber (R71, R77) -/

namespace Sys2Proof.Machine

theorem transcribeLine_of_length_ne_two (radix : Radix) {line : List Char} (h : (splitFields line).length ≠ 2) :
    transcribeLine radix line = .malformed := by
  unfold transcribeLine
  split
  · rename_i hfields
    rw [hfields] at h
    contradiction
  · rfl

theorem transcribeLine_of_no_numeral {radix : Radix} {line f m : List Char} (hfields : splitFields line = [f, m])
    (hnum : readNumeral radix f = none) : transcribeLine radix line = .malformed := by
  simp only [transcribeLine, hfields, hnum]

theorem transcribeLine_of_numeral {radix : Radix} {line f m : List Char} {v : Nat} (hfields : splitFields line = [f, m])
    (hnum : readNumeral radix f = some v) : transcribeLine radix line = .record v (modeOfField m) := by
  simp only [transcribeLine, hfields, hnum]

/-- Any mode field but one character below 256 stands for the mode `0x00` (R71). -/
theorem modeOfField_eq_zero {m : List Char} (h : ∀ ch, m = [ch] → 256 ≤ ch.toNat) : modeOfField m = 0x00 := by
  unfold modeOfField
  split
  · rename_i ch
    exact if_neg (Nat.not_lt.2 (h ch rfl))
  · rfl

/-- Settles O53: the fields and the numeral decide between a record and Malformed, the mode field alone gives the mode. -/
theorem transcriberMapsLines : Obligations.TranscriberMapsLines := by
  unfold Obligations.TranscriberMapsLines
  intro radix line
  refine ⟨transcribeLine_of_length_ne_two radix, fun f m => transcribeLine_of_no_numeral, fun f m v hfields hnum => ?_⟩
  rw [transcribeLine_of_numeral hfields hnum]
  constructor
  · rintro ch rfl hch
    rw [modeOfField, if_pos hch]
  · intro hmode
    rw [modeOfField_eq_zero hmode]

/-! ### Numerals -/

/-- The character of a digit, its letter in upper case where `upper` says so. -/
def digitChar (d : Nat × Bool) : Char := if d.2 then (Nat.digitChar d.1).toUpper else Nat.digitChar d.1

theorem radixBase_le (radix : Radix) : radixBase radix ≤ 16 := by cases radix <;> decide

/-- A digit character has its digit's value, in either case. -/
theorem digitValue_digitChar {d : Nat × Bool} (h : d.1 < 16) : digitValue (digitChar d) = some d.1 := by
  have hall : ∀ n < 16, ∀ upper : Bool, digitValue (digitChar (n, upper)) = some n := by decide
  exact hall d.1 h d.2

/-- A character that has a value is the digit of that value, in one of the two cases. -/
theorem eq_digitChar_of_digitValue {ch : Char} {d : Nat} (h : digitValue ch = some d) :
    ch = Nat.digitChar d ∨ ch = (Nat.digitChar d).toUpper := by
  have hdecimal : ∀ n < 10, Char.ofNat (0x30 + n) = Nat.digitChar n := by decide
  have hupper : ∀ n < 6, Char.ofNat (0x41 + n) = (Nat.digitChar (n + 10)).toUpper := by decide
  have hlower : ∀ n < 6, Char.ofNat (0x61 + n) = Nat.digitChar (n + 10) := by decide
  have hcode : ∀ base, base ≤ ch.toNat → ch = Char.ofNat (base + (ch.toNat - base)) := by
    intro base hbase
    rw [Nat.add_sub_cancel' hbase, Char.ofNat_toNat]
  simp only [digitValue] at h
  split_ifs at h with hn hn hn <;> cases h
  · exact .inl ((hcode 0x30 hn.1).trans (hdecimal _ (by omega)))
  · exact .inr ((hcode 0x41 hn.1).trans (hupper _ (by omega)))
  · exact .inl ((hcode 0x61 hn.1).trans (hlower _ (by omega)))

/-- Digits are read most significant first: each multiplies the value before it by the base (R71). -/
theorem readDigits_digitChars (radix : Radix) : ∀ (ds : List (Nat × Bool)) (acc : Nat),
    (∀ d ∈ ds, d.1 < radixBase radix) →
    readDigits radix acc (ds.map digitChar) = some ((ds.map Prod.fst).foldl (fun v d => d + radixBase radix * v) acc)
  | [], _, _ => rfl
  | d :: ds, acc, h => by
    have hd : d.1 < radixBase radix := h d List.mem_cons_self
    have hvalue := digitValue_digitChar (hd.trans_le (radixBase_le radix))
    rw [List.map_cons, readDigits, hvalue]
    simp only [hd, if_true]
    rw [readDigits_digitChars radix ds _ (fun e he => h e (List.mem_cons_of_mem _ he)), Nat.mul_comm acc, Nat.add_comm]
    rfl

/-- A character whose value is no digit of the radix ends the reading without a value. -/
theorem readDigits_of_no_digit {radix : Radix} {ch : Char}
    (hch : ∀ d, digitValue ch = some d → ¬ d < radixBase radix) :
    ∀ (field : List Char) (acc : Nat), ch ∈ field → readDigits radix acc field = none
  | first :: rest, acc, hmem => by
    unfold readDigits
    split
    · rfl
    · rename_i d hd
      split_ifs with hlt
      · rcases List.mem_cons.1 hmem with rfl | hrest
        · exact absurd hlt (hch d hd)
        · exact readDigits_of_no_digit hch rest _ hrest
      · rfl

theorem readNumeral_of_ne_nil (radix : Radix) {field : List Char} (h : field ≠ []) :
    readNumeral radix field = readDigits radix 0 field := if_neg h

/-- Settles O54: the value read is Horner's form of the numeral, and any character but the radix's digits stops the reading. -/
theorem numeralHasItsValue : Obligations.NumeralHasItsValue := by
  unfold Obligations.NumeralHasItsValue
  intro radix
  refine ⟨fun ds hne hds => ?_, rfl, fun field ch hmem hch => ?_⟩
  · rw [Nat.ofDigits_eq_foldr, List.foldr_reverse]
    exact (readNumeral_of_ne_nil radix (by simpa using hne)).trans (readDigits_digitChars radix ds 0 hds)
  · rw [readNumeral_of_ne_nil radix (List.ne_nil_of_mem hmem)]
    refine readDigits_of_no_digit (fun d hd hlt => ?_) field 0 hmem
    obtain ⟨hlower, hupper⟩ := hch d hlt
    rcases eq_digitChar_of_digitValue hd with he | he
    · exact hlower he
    · exact hupper he

end Sys2Proof.Machine

/-! ## Cache primitives: the recency order of a set (R101, R105, R119) -/

namespace Sys2Proof.Machine

theorem SetOk.lru_nodup {g : Geometry} {set : CacheSet} (h : SetOk g set) : set.lru.Nodup :=
  h.2.1.nodup_iff.2 List.nodup_range

/-- A touch changes no order but that of the way touched: without it, the list is the same (R101). -/
theorem touch_lru_filter (set : CacheSet) (w : Nat) :
    (set.touch w).lru.filter (fun x => x != w) = set.lru.filter (fun x => x != w) := by
  simp [CacheSet.touch, List.filter_append]

/-- Two ways other than `w` stand in the order they have in the list without `w`. -/
theorem pair_sublist_filter_iff {l : List Nat} {u v w : Nat} (hu : u ≠ w) (hv : v ≠ w) :
    [u, v].Sublist (l.filter (fun x => x != w)) ↔ [u, v].Sublist l := by
  constructor
  · exact fun h => h.trans List.filter_sublist
  · intro h
    simpa [hu, hv] using h.filter (fun x => x != w)

/-- Touching the most recently used way changes nothing (R101). -/
theorem touch_of_last {g : Geometry} {set : CacheSet} {w : Nat} (h : SetOk g set) (hl : set.lru.getLast? = some w) :
    set.touch w = set := by
  obtain ⟨ways, lru⟩ := set
  obtain ⟨xs, rfl⟩ := List.getLast?_eq_some_iff.1 hl
  have hw : ∀ x ∈ xs, x ≠ w := fun x hx => (List.nodup_append.1 h.lru_nodup).2.2 x hx w (by simp)
  have hxs : xs.filter (fun x => x != w) = xs := List.filter_eq_self.2 (by simpa using hw)
  simp [CacheSet.touch, List.filter_append, hxs]

/-- Settles O56: a touch filters the way out of the order and puts it last, and each way stands in the order once (R25). -/
theorem touchKeepsOtherOrder : Obligations.TouchKeepsOtherOrder := by
  unfold Obligations.TouchKeepsOtherOrder
  intro g set w h hw
  refine ⟨?_, rfl, fun u v hu hv => ?_, touch_of_last h, fun hg => ?_⟩
  · rw [h.lru_nodup.erase_eq_filter w]
    rfl
  · rw [← pair_sublist_filter_iff hu hv, touch_lru_filter, pair_sublist_filter_iff hu hv]
  · have hperm : set.lru.Perm (List.range g.ways) := h.2.1
    rw [hg] at hperm
    exact List.perm_singleton.1 hperm

/-- A miss on an absent line fills the least recently used way (R105). -/
theorem fillWay_of_notPresent {g : Geometry} {K : Cache} {a : Addr} {x : Nat} {xs : List Nat}
    (hp : probe g K a = .notPresent) (hlru : (setAt g K a).lru = x :: xs) : fillWay g K a = x := by
  simp [fillWay, CacheSet.fillWay, CacheSet.oldest, probe_eq_notPresent_iff.1 hp, hlru]

/-- The order of a 2-way set names its two ways. -/
theorem lru_of_two_ways {g : Geometry} {set : CacheSet} (h : SetOk g set) (hg : g.ways = 2) :
    ∃ x y, x ≠ y ∧ set.lru = [x, y] := by
  have hlen : set.lru.length = 2 := by rw [h.2.1.length_eq, List.length_range, hg]
  obtain ⟨x, y, hxy⟩ := List.length_eq_two.1 hlen
  have hnd := h.lru_nodup
  rw [hxy] at hnd
  exact ⟨x, y, by simpa using hnd, hxy⟩

/-- A fill with one line brings no line of another tag into the cache (R106). -/
theorem probe_install_notPresent {g : Geometry} {K : Cache} (h : CacheOk g K) (hg : 1 ≤ g.ways) {a b : Addr}
    (ha : (decodeAddr g a).tag < 2 ^ g.tw) (st : Mesi) (htag : (decodeAddr g a).tag ≠ (decodeAddr g b).tag)
    (hb : probe g K b = .notPresent) : probe g (install g st (fillWay g K a) a K) b = .notPresent := by
  rw [probe_install h hg ha, if_neg (fun hs => htag hs.2.symm), hb, ite_self]

/-- A fill of a 2-way set with an absent line swaps the order of the set (R101, R105). -/
theorem lru_install_of_two_ways {g : Geometry} {K : Cache} (h : CacheOk g K) (hg : 1 ≤ g.ways) {a : Addr} {x y : Nat}
    (hxy : x ≠ y) (hp : probe g K a = .notPresent) (hlru : (setAt g K a).lru = [x, y]) (st : Mesi) :
    (setAt g (install g st (fillWay g K a) a K) a).lru = [y, x] := by
  rw [(installed_install h hg st a).lru, fillWay_of_notPresent hp hlru, CacheSet.touch, hlru]
  simp [hxy.symm]

/-- Settles O42: each fill swaps the order of the set, so the third one finds the order, and the way, of the first. -/
theorem lruVictimOrder : Obligations.LruVictimOrder := by
  unfold Obligations.LruVictimOrder
  intro g K a1 a2 a3 st1 st2 hways h hall h12 h13 h23 K1 K2 hK1 hK2
  simp only [List.forall_mem_cons] at hall
  obtain ⟨⟨-, ht1, hp1⟩, ⟨hi2, ht2, hp2⟩, ⟨hi3, -, hp3⟩, -⟩ := hall
  have hg : 1 ≤ g.ways := by omega
  obtain ⟨x, y, hxy, hlru⟩ := lru_of_two_ways (setAt_ok h a1) hways
  have hw1 : fillWay g K a1 = x := fillWay_of_notPresent hp1 hlru
  have hok1 : CacheOk g K1 := hK1 ▸ cacheOk_install h hg ht1 st1
  have hlru1 : (setAt g K1 a2).lru = [y, x] := by
    rw [setAt_congr K1 hi2, hK1, lru_install_of_two_ways h hg hxy hp1 hlru]
  have hp12 : probe g K1 a2 = .notPresent := hK1 ▸ probe_install_notPresent h hg ht1 st1 h12 hp2
  have hp13 : probe g K1 a3 = .notPresent := hK1 ▸ probe_install_notPresent h hg ht1 st1 h13 hp3
  have hw2 : fillWay g K1 a2 = y := fillWay_of_notPresent hp12 hlru1
  have hset : setAt g K2 a3 = setAt g K2 a2 := setAt_congr K2 (hi3.trans hi2.symm)
  have hlru2 : (setAt g K2 a3).lru = [x, y] := by
    rw [hset, hK2, lru_install_of_two_ways hok1 hg hxy.symm hp12 hlru1]
  have hp23 : probe g K2 a3 = .notPresent := hK2 ▸ probe_install_notPresent hok1 hg ht2 st2 h23 hp13
  have hw3 : fillWay g K2 a3 = x := fillWay_of_notPresent hp23 hlru2
  have hline : (setAt g K2 a3).line x = ⟨some (decodeAddr g a1).tag, st1⟩ := by
    rw [hset, hK2, hw2, install_otherLine hok1 st2 a2 hxy, setAt_congr K1 hi2, hK1, ← hw1, install_line h hg]
  rw [hw1, hw2, hw3]
  refine ⟨rfl, ?_, hxy.symm, fun hK => ?_⟩
  · rw [selectVictim, hw3, hline]
  · subst hK
    have hreset : [0, 1] = [x, y] := by simpa [setAt, findSet, resetSet, hways, List.range_succ] using hlru
    obtain ⟨rfl, hy⟩ := List.cons.inj hreset
    obtain ⟨rfl, -⟩ := List.cons.inj hy
    exact ⟨rfl, rfl, rfl⟩

end Sys2Proof.Machine

/-! ## The frame of a Load or Store miss (R100, R109 to R117) -/

namespace Sys2Proof.Machine

/-! ### A set is known by its tags, its order and its states -/

/-- Beyond the last way of a set there is no tag. -/
theorem line_of_ways_le {g : Geometry} {set : CacheSet} (h : SetOk g set) {w : Nat} (hw : g.ways ≤ w) :
    set.line w = emptyLine := by
  have hlen : set.ways.length ≤ w := h.1 ▸ hw
  simp [CacheSet.line, List.getD_eq_getElem?_getD, hlen]

/-- A way that holds no tag is Invalid, beyond the last way too (R24). -/
theorem line_st_of_no_tag {g : Geometry} {set : CacheSet} (h : SetOk g set) {w : Nat} (ht : (set.line w).tag = none) :
    (set.line w).st = .I := by
  rcases Nat.lt_or_ge w g.ways with hw | hw
  · exact (line_ok h hw).1 ht
  · rw [line_of_ways_le h hw]
    rfl

/-- A way that holds a tag is what a probe of its line reads (R103). -/
theorem probe_of_line {g : Geometry} {K : Cache} (h : CacheOk g K) {a b : Addr} {w : Nat}
    (hidx : (decodeAddr g b).index = (decodeAddr g a).index)
    (ht : ((setAt g K a).line w).tag = some (decodeAddr g b).tag) :
    (setAt g K b).matchWay (decodeAddr g b).tag = some w ∧ probe g K b = .found ((setAt g K a).line w).st := by
  have hw : w < g.ways := by
    refine Nat.lt_of_not_le (fun hw => ?_)
    rw [line_of_ways_le (setAt_ok h a) hw] at ht
    cases ht
  have hm := (matchWay_eq_some_iff (setAt_ok h a) _ w).2 ⟨hw, ht⟩
  rw [← setAt_congr K hidx] at hm ⊢
  exact ⟨hm, probe_of_match hm⟩

/-- Two caches hold the same line in a way if they hold the same tag there and read its state alike. -/
theorem line_eq_of_probe {g : Geometry} {K K' : Cache} (h : CacheOk g K) (h' : CacheOk g K') {a : Addr} {w : Nat}
    (htag : ((setAt g K' a).line w).tag = ((setAt g K a).line w).tag)
    (hst : ∀ b, (decodeAddr g b).index = (decodeAddr g a).index →
      (setAt g K b).matchWay (decodeAddr g b).tag = some w → probe g K' b = probe g K b) :
    (setAt g K' a).line w = (setAt g K a).line w := by
  suffices hs : ((setAt g K' a).line w).st = ((setAt g K a).line w).st by
    cases hl : (setAt g K' a).line w
    cases hl' : (setAt g K a).line w
    simp_all
  cases ht : ((setAt g K a).line w).tag with
  | none => rw [line_st_of_no_tag (setAt_ok h' a) (htag.trans ht), line_st_of_no_tag (setAt_ok h a) ht]
  | some t =>
    obtain ⟨hidx, hdec⟩ := decodeAddr_lineOf (g := g) t (decodeAddr_index_lt g a)
    rw [← hdec] at ht
    obtain ⟨hm, hp⟩ := probe_of_line h hidx ht
    obtain ⟨-, hp'⟩ := probe_of_line h' hidx (htag.trans ht)
    exact Lookup.found.inj (hp'.symm.trans ((hst _ hidx hm).trans hp))

/-- Sets of one geometry with the same lines and the same order are equal. -/
theorem CacheSet.ext_line {g : Geometry} {set set' : CacheSet} (h : SetOk g set) (h' : SetOk g set')
    (hline : ∀ w, set'.line w = set.line w) (hlru : set'.lru = set.lru) : set' = set := by
  have hways : set'.ways = set.ways := by
    refine List.ext_getElem (h'.1.trans h.1.symm) (fun w hw' hw => ?_)
    rw [← line_eq_getElem hw', ← line_eq_getElem hw, hline]
  cases set
  cases set'
  simp_all

theorem CachesOk.get_l1 {cfg : Config} {cs : Caches} (h : CachesOk cfg cs) (c : CoreId) : CacheOk cfg.l1 (cs.l1.get c) :=
  ((cachesOk_iff cfg cs).1 h).1 c

theorem CachesOk.get_l2 {cfg : Config} {cs : Caches} (h : CachesOk cfg cs) : CacheOk cfg.l2 cs.l2 :=
  ((cachesOk_iff cfg cs).1 h).2

/-! ### The start of a miss, from the caches before the operation (R113, R142, R163) -/

section
variable {cfg : Config} {c : CoreId} {a : Addr} {cs : Caches} {mode : ModeCode} {k : Work} (hok : CachesOk cfg cs)
  (start : L1Evicted cfg c a (beforeL1Eviction cfg c a mode (afterLocalLookup cfg c a cs)) k)
include start

theorem missStart_peer : k.l1 (peer c) = cs.l1.get (peer c) := by
  rw [start.peer, beforeL1Eviction_l1, afterLocalLookup_peer]

include hok

theorem missStart_localVictim : victimAddress cfg.l1 (k.l1 c) a = victimAddress cfg.l1 (cs.l1.get c) a := by
  rw [start.local_victim, beforeL1Eviction_l1, afterLocalLookup_local, victimAddress_lookup (hok.get_l1 c)]

theorem missStart_l2Victim : victimAddress cfg.l2 k.l2 a = victimAddress cfg.l2 cs.l2 a := by
  rw [start.l2_victim, beforeL1Eviction_l2, afterLocalLookup_l2, victimAddress_lookup hok.get_l2]

theorem missStart_matchWay (b : Addr) (t : Nat) :
    (setAt cfg.l1 (k.l1 c) b).matchWay t = (setAt cfg.l1 (cs.l1.get c) b).matchWay t := by
  rw [start.local_match, beforeL1Eviction_l1, afterLocalLookup_local, matchWay_lookup (hok.get_l1 c)]

theorem missStart_fillWay : fillWay cfg.l1 (k.l1 c) a = fillWay cfg.l1 (cs.l1.get c) a := by
  rw [start.local_fillWay, beforeL1Eviction_l1, afterLocalLookup_local, fillWay_lookup (hok.get_l1 c)]

theorem missStart_lru_otherSet {b : Addr} (hb : (decodeAddr cfg.l1 b).index ≠ (decodeAddr cfg.l1 a).index) :
    (setAt cfg.l1 (k.l1 c) b).lru = (setAt cfg.l1 (cs.l1.get c) b).lru := by
  rw [start.local_lru, beforeL1Eviction_l1, afterLocalLookup_local,
    setAt_lookup_otherSet (hok.get_l1 c) hb]

theorem missStart_l2_lru_otherSet {b : Addr} (hb : (decodeAddr cfg.l2 b).index ≠ (decodeAddr cfg.l2 a).index) :
    (setAt cfg.l2 k.l2 b).lru = (setAt cfg.l2 cs.l2 b).lru := by
  rw [start.l2_lru, beforeL1Eviction_l2, afterLocalLookup_l2, setAt_lookup_otherSet hok.get_l2 hb]

/-- The L2's lookup touches its matching way, and the local eviction moves no order of the L2 (R102). -/
theorem missStart_l2_lru_match {w : Nat} (hm : (setAt cfg.l2 cs.l2 a).matchWay (decodeAddr cfg.l2 a).tag = some w) :
    (setAt cfg.l2 k.l2 a).lru = ((setAt cfg.l2 cs.l2 a).touch w).lru := by
  rw [start.l2_lru, beforeL1Eviction_l2, afterLocalLookup_l2, setAt_lookup_match hok.get_l2 hm]

/-- The start of a miss leaves every line but the local victim's. -/
theorem missStart_stateLocal_of_not_victim {b : Addr} (hb : ¬ LocalVictim cfg (cs.l1.get c) a b) :
    probe cfg.l1 (k.l1 c) b = cs.stateL1 cfg c b := by
  have hL := hok.get_l1 c
  rw [start.stateL1, beforeL1Eviction_l1, afterLocalLookup_local, victimAddress_lookup hL, if_neg hb, probe_lookup hL]
  rfl

/-- The L2 states after the start of a miss: `M` where a Modified local victim was written back, otherwise as before (R111). -/
theorem missStart_stateL2_eq (b : Addr) : probe cfg.l2 k.l2 b =
    if ∃ va, victimAddress cfg.l1 (cs.l1.get c) a = some va ∧ cs.stateL1 cfg c va = .found .M ∧ SameLine cfg.l2 b va ∧
      cs.stateL2 cfg va ≠ .notPresent then .found .M else cs.stateL2 cfg b := by
  have hL := hok.get_l1 c
  rw [start.stateL2, beforeL1Eviction_l1, beforeL1Eviction_l2, afterLocalLookup_local, afterLocalLookup_l2]
  simp only [victimAddress_lookup hL, probe_lookup hL, probe_lookup hok.get_l2]
  rfl

theorem missStart_stateL2_of_not_victim (hob : cfg.l1Ob = cfg.l2Ob) {b : Addr}
    (hb : ¬ LocalVictim cfg (cs.l1.get c) a b) : probe cfg.l2 k.l2 b = cs.stateL2 cfg b := by
  rw [missStart_stateL2_eq hok start, if_neg]
  rintro ⟨va, hva, -, hs, -⟩
  exact hb ⟨va, hva, (sameLine_l1_iff_l2 hob b va).2 hs⟩

theorem missStart_stateL2_victim {va : Addr} (hva : victimAddress cfg.l1 (cs.l1.get c) a = some va) :
    probe cfg.l2 k.l2 va =
      if cs.stateL1 cfg c va = .found .M ∧ cs.stateL2 cfg va ≠ .notPresent then .found .M else cs.stateL2 cfg va := by
  rw [missStart_stateL2_eq hok start]
  simp [hva, SameLine]

end

/-! ### The paths of an executed miss -/

/-- A Load or Store on an address in range takes one of the paths of an access. -/
theorem exec_accessed {s t : State} {a : Addr} {i : Instr} (hi : i = .load a ∨ i = .store a) (hs : StructOk s)
    (ha : inRange s.cfg a) (h : exec i s = .next t) :
    ∃ T k', Accessed T s.cfg s.issuing a s.caches k' ∧ t = completeRecord s.issuing k' s := by
  obtain ⟨hcfg, hcaches, -⟩ := hs
  rcases hi with rfl | rfl <;> rw [exec_inRange ha] at h <;> cases h
  · exact ⟨_, _, loadOp_accessed hcfg hcaches _ ha, rfl⟩
  · exact ⟨_, _, storeOp_accessed hcfg hcaches _ ha, rfl⟩

/-- A line whose address is that of no victim is no victim's line (R56). -/
theorem not_victim_line {cfg : Config} {victim : Option Addr} {b : Addr}
    (h : ∀ va, victim = some va → lineAddr cfg b ≠ lineAddr cfg va) :
    ¬ ∃ va, victim = some va ∧ SameLine cfg.l1 b va :=
  fun ⟨va, hva, hs⟩ => h va hva ((sameLine_l1_iff cfg b va).1 hs)

/-! ### A miss that hits the L2 (R143, R165) -/

section
variable {cfg : Config} {c : CoreId} {a b : Addr} {cs : Caches} {mode : ModeCode} {k k2 k' : Work} {y : Lookup} {st : Mesi}
  (hok : CachesOk cfg cs) (start : L1Evicted cfg c a (beforeL1Eviction cfg c a mode (afterLocalLookup cfg c a cs)) k)
  (read : PeerRead cfg c a y k k2) (fill : FilledFromL2 cfg c a st k2 k')
include read fill

theorem fromL2_stateL2_otherLine (hob : cfg.l1Ob = cfg.l2Ob) (hb : ¬ SameLine cfg.l1 b a) :
    probe cfg.l2 k'.l2 b = probe cfg.l2 k.l2 b := by
  rw [fill.stateL2, read.l2, if_neg (fun hc => hb ((sameLine_l1_iff_l2 hob b a).2 hc.1))]

theorem fromL2_l2_lru (b : Addr) : (setAt cfg.l2 k'.l2 b).lru = (setAt cfg.l2 k.l2 b).lru := by
  rw [fill.l2_lru, read.l2]

include start

theorem fromL2_statePeer_otherLine (hb : ¬ SameLine cfg.l1 b a) :
    probe cfg.l1 (k'.l1 (peer c)) b = cs.stateL1 cfg (peer c) b := by
  rw [fill.peer, read.peer.state, if_neg hb, probe_lookup (start.ok.l1 (peer c)), missStart_peer start]
  rfl

include hok

theorem fromL2_stateLocal_otherLine (hb : ¬ SameLine cfg.l1 b a) (hv : ¬ LocalVictim cfg (cs.l1.get c) a b) :
    probe cfg.l1 (k'.l1 c) b = cs.stateL1 cfg c b := by
  rw [fill.stateL1, read.local_l1, missStart_localVictim hok start, if_neg hb, if_neg hv,
    missStart_stateLocal_of_not_victim hok start hv]

/-- The local victim's line leaves the local L1 (R106). -/
theorem fromL2_stateLocal_victim (hb : ¬ SameLine cfg.l1 b a) (hv : LocalVictim cfg (cs.l1.get c) a b) :
    probe cfg.l1 (k'.l1 c) b = .notPresent := by
  rw [fill.stateL1, read.local_l1, missStart_localVictim hok start, if_neg hb, if_pos hv]

/-- A way other than the fill way holds the line it held: neither `a` nor the victim is there (R105). -/
theorem fromL2_local_otherWay (hg : 1 ≤ cfg.l1.ways) {w : Nat} (hw : w ≠ fillWay cfg.l1 (cs.l1.get c) a) :
    (setAt cfg.l1 (k'.l1 c) a).line w = (setAt cfg.l1 (cs.l1.get c) a).line w := by
  have hL := hok.get_l1 c
  refine line_eq_of_probe hL (fill.ok.l1 c) ?_ (fun x _ hx => fromL2_stateLocal_otherLine hok start read fill ?_ ?_)
  · rw [fill.installed.otherTags w (by rwa [read.local_l1, missStart_fillWay hok start]), read.local_l1]
    exact tags_of_match (setAt_ok hL a) (setAt_ok (start.ok.l1 c) a) (missStart_matchWay hok start a) w
  · intro hs
    rw [setAt_congr _ hs.1, hs.2] at hx
    exact hw (by simp [fillWay, CacheSet.fillWay, hx])
  · rintro ⟨va, hva, hs⟩
    obtain ⟨-, hm, -⟩ := match_victim hL hg hva
    rw [setAt_congr _ hs.1, hs.2, hm] at hx
    exact hw (Option.some.inj hx).symm

/-- A miss writes one set of the local L1 (R100). -/
theorem fromL2_local_otherSet (hg : 1 ≤ cfg.l1.ways) (hb : (decodeAddr cfg.l1 b).index ≠ (decodeAddr cfg.l1 a).index) :
    setAt cfg.l1 (k'.l1 c) b = setAt cfg.l1 (cs.l1.get c) b := by
  have hL := hok.get_l1 c
  have hset : setAt cfg.l1 (k'.l1 c) b = setAt cfg.l1 (k.l1 c) b := by rw [fill.otherSets b hb, read.local_l1]
  refine CacheSet.ext_line (setAt_ok hL b) (setAt_ok (fill.ok.l1 c) b) (fun w => ?_) ?_
  · refine line_eq_of_probe hL (fill.ok.l1 c) ?_ (fun x hx _ => fromL2_stateLocal_otherLine hok start read fill ?_ ?_)
    · rw [hset]
      exact tags_of_match (setAt_ok hL b) (setAt_ok (start.ok.l1 c) b) (missStart_matchWay hok start b) w
    · exact fun hs => hb (hx.symm.trans hs.1)
    · rintro ⟨va, hva, hs⟩
      exact hb (hx.symm.trans (hs.1.trans (match_victim hL hg hva).1))
  · rw [hset, missStart_lru_otherSet hok start hb]

end

/-- Settles O36: the two L1s and the L2 are followed through the start of the miss, the peer's reading and the fill. -/
theorem missFrameOnL2Hit : Obligations.MissFrameOnL2Hit := by
  unfold Obligations.MissFrameOnL2Hit
  intro s t a i hi hs ha hx hz h
  obtain ⟨T, k', hacc, rfl⟩ := exec_accessed hi hs ha h
  obtain ⟨hcfg, hok, -⟩ := hs
  have hob : s.cfg.l1Ob = s.cfg.l2Ob := hcfg.1
  have hline {b : Addr} (hb : lineAddr s.cfg b ≠ lineAddr s.cfg a) : ¬ SameLine s.cfg.l1 b a :=
    mt (sameLine_l1_iff s.cfg b a).1 hb
  cases hacc with
  | hit valid => exact absurd valid (by simp [hx])
  | fromMemory _ missL2 => exact absurd missL2 (by simp [hz])
  | fromL2 _ _ start read fill =>
    refine ⟨fun b hb => ?_, fun b hb hv => ⟨?_, ?_⟩, fun va hva hne => ⟨?_, ?_⟩, fun b hb => ?_, fun w hw => ?_,
      fun w hm => ?_, fun b hb => ?_⟩
    · exact fromL2_statePeer_otherLine start read fill (hline hb)
    · exact fromL2_stateLocal_otherLine hok start read fill (hline hb) (not_victim_line hv)
    · exact (fromL2_stateL2_otherLine read fill hob (hline hb)).trans
        (missStart_stateL2_of_not_victim hok start hob (not_victim_line hv))
    · exact fromL2_stateLocal_victim hok start read fill (hline hne) ⟨va, hva, rfl, rfl⟩
    · exact (fromL2_stateL2_otherLine read fill hob (hline hne)).trans (missStart_stateL2_victim hok start hva)
    · exact fromL2_local_otherSet hok start read fill (ways_l1 hcfg) hb
    · exact fromL2_local_otherWay hok start read fill (ways_l1 hcfg) hw
    · exact (fromL2_l2_lru read fill a).trans (missStart_l2_lru_match hok start hm)
    · exact (fromL2_l2_lru read fill b).trans (missStart_l2_lru_otherSet hok start hb)

/-! ### A miss of both levels (R148, R166) -/

section
variable {cfg : Config} {c : CoreId} {a b : Addr} {cs : Caches} {mode : ModeCode} {k e k' : Work} {st : Mesi}
  (hob : cfg.l1Ob = cfg.l2Ob) (hok : CachesOk cfg cs)
  (start : L1Evicted cfg c a (beforeL1Eviction cfg c a mode (afterLocalLookup cfg c a cs)) k)
  (fill : FilledFromMemory cfg c a mode st k e k')
include start fill

/-- The peer is not read: none of its orders changes (R148). -/
theorem fromMemory_peer_lru (b : Addr) :
    (setAt cfg.l1 (k'.l1 (peer c)) b).lru = (setAt cfg.l1 (cs.l1.get (peer c)) b).lru := by
  rw [fill.peer, fill.evicted.l1_lru, Work.emit_l1, missStart_peer start]

include hok

theorem fromMemory_local_lru_otherSet (hb : (decodeAddr cfg.l1 b).index ≠ (decodeAddr cfg.l1 a).index) :
    (setAt cfg.l1 (k'.l1 c) b).lru = (setAt cfg.l1 (cs.l1.get c) b).lru := by
  rw [fill.otherSets b hb, fill.evicted.l1_lru, Work.emit_l1, missStart_lru_otherSet hok start hb]

theorem fromMemory_l2_lru_otherSet (hb : (decodeAddr cfg.l2 b).index ≠ (decodeAddr cfg.l2 a).index) :
    (setAt cfg.l2 k'.l2 b).lru = (setAt cfg.l2 cs.l2 b).lru := by
  rw [fill.otherSetsL2 b hb, fill.evicted.l2_lru, Work.emit_l2, missStart_l2_lru_otherSet hok start hb]

/-- The local victim's line leaves the local L1 (R106). -/
theorem fromMemory_stateLocal_victim (hb : ¬ SameLine cfg.l1 b a) (hv : LocalVictim cfg (cs.l1.get c) a b) :
    probe cfg.l1 (k'.l1 c) b = .notPresent := by
  rw [fill.stateL1, fill.evicted.l1_victim, Work.emit_l1, missStart_localVictim hok start, if_neg hb, if_pos hv]

/-- Back-invalidation is all that happens to the peer's copy of the L2 victim (R116). -/
theorem fromMemory_statePeer_l2Victim {va : Addr} (hva : victimAddress cfg.l2 cs.l2 a = some va) :
    probe cfg.l1 (k'.l1 (peer c)) va =
      if (cs.stateL1 cfg (peer c) va).isValid then .found .I else cs.stateL1 cfg (peer c) va := by
  rw [fill.peer, fill.evicted.stateL1, Work.emit_l1, Work.emit_l2, missStart_l2Victim hok start, missStart_peer start]
  exact if_congr (by simp [hva, SameLine, Caches.stateL1]) rfl rfl

include hob

/-- The L2 victim's line leaves the L2, and no L1 has a valid copy of it (R116, R117). -/
theorem fromMemory_l2Victim (hb : ¬ SameLine cfg.l1 b a) (hv : L2Victim cfg cs.l2 a b) :
    probe cfg.l2 k'.l2 b = .notPresent ∧ ∀ d, (probe cfg.l1 (k'.l1 d) b).isValid = false := by
  rw [L2Victim, ← missStart_l2Victim hok start] at hv
  rcases fromMemory_line_cases hob fill b with ⟨hs, -⟩ | ⟨-, -, hx, hy, hz⟩ | ⟨-, hno, -⟩
  · exact absurd hs hb
  · refine ⟨hz, fun d => ?_⟩
    rcases eq_or_eq_peer c d with rfl | rfl
    · exact hx
    · exact hy
  · exact absurd hv hno

/-- A line that is neither of `a` nor of the L2 victim: the peer's copy is as before, the L2's as the start of the miss left it,
and the local one as before if it is not the local victim's either. -/
theorem fromMemory_otherLine (hb : ¬ SameLine cfg.l1 b a) (hv : ¬ L2Victim cfg cs.l2 a b) :
    (¬ LocalVictim cfg (cs.l1.get c) a b → probe cfg.l1 (k'.l1 c) b = cs.stateL1 cfg c b) ∧
      probe cfg.l1 (k'.l1 (peer c)) b = cs.stateL1 cfg (peer c) b ∧ probe cfg.l2 k'.l2 b = probe cfg.l2 k.l2 b := by
  rw [L2Victim, ← missStart_l2Victim hok start] at hv
  rcases fromMemory_line_cases hob fill b with ⟨hs, -⟩ | ⟨-, hyes, -⟩ | ⟨-, -, hx, hy, hz⟩
  · exact absurd hs hb
  · exact absurd hyes hv
  · refine ⟨fun hlocal => ?_, ?_, hz⟩
    · rw [← missStart_stateLocal_of_not_victim hok start hlocal]
      rw [LocalVictim, missStart_localVictim hok start] at hx
      exact hx.resolve_right (fun hc => hlocal hc.2)
    · rw [hy, missStart_peer start]
      rfl

end

/-- Settles O37: every line is followed through the start of the miss, the L2 victim's eviction and the two installs. -/
theorem missFrameOnL2Miss : Obligations.MissFrameOnL2Miss := by
  unfold Obligations.MissFrameOnL2Miss
  intro s t a i hi hs ha hx hz h
  obtain ⟨T, k', hacc, rfl⟩ := exec_accessed hi hs ha h
  obtain ⟨⟨hob, -⟩, hok, -⟩ := hs
  have hline {b : Addr} (hb : lineAddr s.cfg b ≠ lineAddr s.cfg a) : ¬ SameLine s.cfg.l1 b a :=
    mt (sameLine_l1_iff s.cfg b a).1 hb
  cases hacc with
  | hit valid => exact absurd valid (by simp [hx])
  | fromL2 _ hitL2 => exact absurd hitL2 (by simp [hz])
  | fromMemory _ _ start fill =>
    refine ⟨fun b hb hv1 hv2 => ?_, fun va hva hne => ?_, fun va hva hne => ⟨?_, fun hv2 => ?_⟩, ?_, ?_, ?_⟩
    · obtain ⟨hlocal, hpeer, hl2⟩ := fromMemory_otherLine hob hok start fill (hline hb) (not_victim_line hv2)
      refine ⟨fun c => ?_, hl2.trans (missStart_stateL2_of_not_victim hok start hob (not_victim_line hv1))⟩
      rcases eq_or_eq_peer s.issuing c with rfl | rfl
      · exact hlocal (not_victim_line hv1)
      · exact hpeer
    · obtain ⟨hl2, hinv⟩ := fromMemory_l2Victim hob hok start fill (hline hne) ⟨va, hva, rfl, rfl⟩
      exact ⟨hl2, hinv, fromMemory_statePeer_l2Victim hok start fill hva⟩
    · exact fromMemory_stateLocal_victim hok start fill (hline hne) ⟨va, hva, rfl, rfl⟩
    · obtain ⟨-, hpeer, hl2⟩ := fromMemory_otherLine hob hok start fill (hline hne) (not_victim_line hv2)
      exact ⟨hl2.trans (missStart_stateL2_victim hok start hva), hpeer⟩
    · exact fromMemory_peer_lru start fill
    · exact fun b hb => fromMemory_local_lru_otherSet hok start fill hb
    · exact fun b hb => fromMemory_l2_lru_otherSet hok start fill hb

end Sys2Proof.Machine

/-! ## What an executed Load or Store does around its operation (R181, R190 to R194) -/

namespace Sys2Proof.Machine

/-- Transfers are neither hits nor misses, so a count of misses reads the events of the accesses alone. -/
theorem countP_accesses {p : Event → Bool} (hp : ∀ e : Event, e.isTransfer = true → p e = false) (k : Work) :
    k.accesses.countP p = k.events.countP p := by
  unfold Work.accesses
  rw [List.countP_filter]
  refine List.countP_congr (fun e _ => ?_)
  cases he : e.isTransfer with
  | true => simp [hp e he]
  | false => simp

theorem Event.isMissL1Of_of_isTransfer (c : CoreId) (e : Event) (h : e.isTransfer = true) : e.isMissL1Of c = false := by
  cases e with
  | writeback | invalidate => rfl
  | hit | missL1 | missL2 | invalidAction => cases h

theorem Event.isMissL2_of_isTransfer (e : Event) (h : e.isTransfer = true) : e.isMissL2 = false := by
  cases e with
  | writeback | invalidate => rfl
  | hit | missL1 | missL2 | invalidAction => cases h

/-- A counter that follows at most one event moves on by it, modulo its width (R194). -/
theorem bumpBy_toNat (cfg : Config) (m : Bool) (x : Nat) :
    bumpBy cfg m.toNat x = if m then (x + 1) % 2 ^ cfg.cntW else x := by cases m <;> rfl

/-- The misses counted by core. -/
theorem countRecord_missL1 (cfg : Config) (c d : CoreId) (evs : List Event) (cnt : Counters) :
    (countRecord cfg c evs cnt).missL1.get d = bumpBy cfg (evs.countP (Event.isMissL1Of d)) (cnt.missL1.get d) := by
  cases d <;> rfl

/-- A completed record of the issuing core whose events hold at most one miss of each kind, all of that core. -/
theorem executed_completeRecord {s : State} {k : Work} {m1 m2 : Bool}
    (h1 : k.events.countP (Event.isMissL1Of s.issuing) = m1.toNat)
    (hp : k.events.countP (Event.isMissL1Of (peer s.issuing)) = 0) (h2 : k.events.countP Event.isMissL2 = m2.toNat) :
    Executed s (completeRecord s.issuing k s) k.events m1 m2 where
  cfg := rfl
  streams := rfl
  slot := rfl
  issuing := rfl
  run := rfl
  cur := PerCore.get_set_same _ _ _
  curPeer := PerCore.get_set_peer _ _ _
  cyc := PerCore.get_set_same _ _ _
  cycPeer := PerCore.get_set_peer _ _ _
  missL1 := by rw [completeRecord_counters, countRecord_missL1, h1, bumpBy_toNat]
  missL1Peer := by rw [completeRecord_counters, countRecord_missL1, hp, bumpBy]
  missL2 := (congrArg (fun n => bumpBy s.cfg n s.counters.missL2) h2).trans (bumpBy_toNat _ _ _)
  out := rfl

/-- The misses of core `d` on the path of an access of core `c`. -/
theorem countP_isMissL1Of_pathEvents (cfg : Config) (c d : CoreId) (a : Addr) (mode : ModeCode) (cs : Caches) :
    (pathEvents cfg c a mode cs).countP (Event.isMissL1Of d) = (c == d && !(cs.stateL1 cfg c a).isValid).toNat := by
  unfold pathEvents
  split_ifs with hx hz <;> simp [hx, Event.isMissL1Of, List.countP_cons, Bool.toNat, Bool.cond_eq_ite]

theorem countP_isMissL2_pathEvents (cfg : Config) (c : CoreId) (a : Addr) (mode : ModeCode) (cs : Caches) :
    (pathEvents cfg c a mode cs).countP Event.isMissL2 =
      (!(cs.stateL1 cfg c a).isValid && !(cs.stateL2 cfg a).isValid).toNat := by
  unfold pathEvents
  split_ifs with hx hz
  · simp [hx, Event.isMissL2]
  · simp [hz, Event.isMissL2]
  · simp [hx, hz, Event.isMissL2]

/-- A completed access that reports its path and transfers counts the misses of that path (R190 to R194). -/
theorem executed_of_path {s : State} {k : Work} {a : Addr} {mode : ModeCode}
    (h : k.accesses = pathEvents s.cfg s.issuing a mode s.caches) :
    Executed s (completeRecord s.issuing k s) k.events (!(s.stateL1 s.issuing a).isValid)
      (!(s.stateL1 s.issuing a).isValid && !(s.stateL2 a).isValid) := by
  have hcore (d : CoreId) : k.events.countP (Event.isMissL1Of d) =
      (s.issuing == d && !(s.stateL1 s.issuing a).isValid).toNat := by
    rw [← countP_accesses (Event.isMissL1Of_of_isTransfer d), h, countP_isMissL1Of_pathEvents]
  refine executed_completeRecord ?_ ?_ ?_
  · simp [hcore]
  · simp [hcore]
  · rw [← countP_accesses Event.isMissL2_of_isTransfer, h, countP_isMissL2_pathEvents]

end Sys2Proof.Machine

/-! ## The events of a miss, from the caches before it (R109 to R117, R142 to R148) -/

namespace Sys2Proof.Machine

/-- The local victim's event depends on the victim's address and state alone. -/
theorem l1VictimEvents_congr {cfg : Config} {c : CoreId} {a : Addr} {cs cs' : Caches}
    (hv : victimAddress cfg.l1 (cs'.l1.get c) a = victimAddress cfg.l1 (cs.l1.get c) a)
    (h : ∀ b, cs'.stateL1 cfg c b = cs.stateL1 cfg c b) : l1VictimEvents cfg c cs' a = l1VictimEvents cfg c cs a := by
  unfold l1VictimEvents
  rw [hv]
  simp only [h]

/-- The L2 victim's events depend on the victim's address and on its state in each cache alone. -/
theorem l2VictimEvents_congr {cfg : Config} {c : CoreId} {a : Addr} {cs cs' : Caches}
    (hv : victimAddress cfg.l2 cs'.l2 a = victimAddress cfg.l2 cs.l2 a)
    (h1 : ∀ d b, cs'.stateL1 cfg d b = cs.stateL1 cfg d b) (h2 : ∀ b, cs'.stateL2 cfg b = cs.stateL2 cfg b) :
    l2VictimEvents cfg c cs' a = l2VictimEvents cfg c cs a := by
  unfold l2VictimEvents backEvents
  rw [hv]
  simp only [h1, h2]

section
variable {cfg : Config} {c : CoreId} {a : Addr} {cs : Caches} {mode : ModeCode} {k : Work} (hok : CachesOk cfg cs)
  (start : L1Evicted cfg c a (beforeL1Eviction cfg c a mode (afterLocalLookup cfg c a cs)) k)
include hok start

/-- The events of the start of a miss: its lookups move no victim and change no state (R142, R163). -/
theorem missStart_events : k.events = .missL1 c a mode :: l1VictimEvents cfg c cs a := by
  have hL := hok.get_l1 c
  rw [start.events, l1VictimEvents_congr (cs := cs)]
  · rfl
  · rw [Work.caches_l1, beforeL1Eviction_l1, afterLocalLookup_local, victimAddress_lookup hL]
  · intro b
    rw [stateL1_eq, beforeL1Eviction_l1, afterLocalLookup_local, probe_lookup hL]
    rfl

/-- The local L1 after the start of a miss: the victim's line is Invalid, every other as before (R110). -/
theorem missStart_stateLocal_eq (b : Addr) : probe cfg.l1 (k.l1 c) b =
    if LocalVictim cfg (cs.l1.get c) a b then .found .I else cs.stateL1 cfg c b := by
  have hL := hok.get_l1 c
  rw [start.stateL1, beforeL1Eviction_l1, afterLocalLookup_local, victimAddress_lookup hL, probe_lookup hL]
  rfl

/-- The L2 victim's eviction reads, after the start of a miss, what it would read on the caches that the local eviction alone
leaves: a lookup changes no state and moves no victim (R113). -/
theorem missStart_l2VictimEvents (hcfg : cfg.Wf) :
    l2VictimEvents cfg c k.caches a = l2VictimEvents cfg c (afterL1Eviction cfg c cs a) a := by
  have hev := evictL1Victim_spec hcfg c a (k := ⟨cs, []⟩) hok
  refine l2VictimEvents_congr ?_ (fun d b => ?_) (fun b => ?_)
  · exact (missStart_l2Victim hok start).trans (hev.l2_victim a).symm
  · rcases eq_or_eq_peer c d with rfl | rfl
    · exact (missStart_stateLocal_eq hok start b).trans (hev.stateL1 b).symm
    · exact congrArg (probe cfg.l1 · b) ((missStart_peer start).trans hev.peer.symm)
  · exact (missStart_stateL2_eq hok start b).trans (hev.stateL2 b).symm

/-! ### What the start of a miss leaves to an install (R105, R118) -/

theorem missStart_lru : (setAt cfg.l1 (k.l1 c) a).lru = (setAt cfg.l1 (cs.l1.get c) a).lru ∨
    (setAt cfg.l1 (k.l1 c) a).lru =
      ((setAt cfg.l1 (cs.l1.get c) a).touch (fillWay cfg.l1 (cs.l1.get c) a)).lru := by
  rw [start.local_lru, beforeL1Eviction_l1, afterLocalLookup_local]
  exact lru_lookup (hok.get_l1 c) a

/-- An install into the local L1 after the start of a miss is one into the L1 before it. -/
theorem missStart_installed {K : Cache} {st : Mesi} (h : Installed cfg.l1 (k.l1 c) K a st) :
    Installed cfg.l1 (cs.l1.get c) K a st :=
  h.of_before (hok.get_l1 c) (start.ok.l1 c) (missStart_matchWay hok start a) (missStart_fillWay hok start)
    (missStart_lru hok start)

/-- An install into the L2 after the start of a miss is one into the L2 before it. -/
theorem missStart_installedL2 {K : Cache} {st : Mesi} (h : Installed cfg.l2 k.l2 K a st) :
    Installed cfg.l2 cs.l2 K a st := by
  have hL2 := hok.get_l2
  refine h.of_before hL2 start.ok.l2 (fun t => ?_) ?_ ?_
  · rw [start.l2_match, beforeL1Eviction_l2, afterLocalLookup_l2, matchWay_lookup hL2]
  · rw [start.l2_fillWay, beforeL1Eviction_l2, afterLocalLookup_l2, fillWay_lookup hL2]
  · rw [start.l2_lru, beforeL1Eviction_l2, afterLocalLookup_l2]
    exact lru_lookup hL2 a

end

/-! ### What a miss installs (R143 to R148, R165, R166) -/

section
variable {T : AccessTable} {cfg : Config} {c : CoreId} {a : Addr} {cs : Caches} {k' : Work} (hob : cfg.l1Ob = cfg.l2Ob)
  (hok : CachesOk cfg cs) (invalid : (cs.stateL1 cfg c a).isValid = false) (hacc : Accessed T cfg c a cs k')
include hob hok invalid hacc

/-- A miss that hits the L2 installs its line in the local fill way, with the three states its table says. -/
theorem Accessed.of_missL2Hit (hitL2 : (cs.stateL2 cfg a).isValid = true) :
    Installed cfg.l1 (cs.l1.get c) (k'.l1 c) a (T.fillState (cs.stateL1 cfg (peer c) a)) ∧
      k'.caches.stateL1 cfg c a = .found (T.fillState (cs.stateL1 cfg (peer c) a)) ∧
      k'.caches.stateL1 cfg (peer c) a = T.missPeer (cs.stateL1 cfg (peer c) a) ∧
      k'.caches.stateL2 cfg a = .found .S := by
  cases hacc with
  | hit valid => exact absurd valid (by simp [invalid])
  | fromMemory _ missL2 => exact absurd missL2 (by simp [hitL2])
  | fromL2 _ _ start read fill =>
    have hz := missStart_stateL2 hob hok invalid start ▸ ne_notPresent_of_isValid hitL2
    rcases fromL2_line_cases hob start.ok hz read fill a with ⟨-, hstates⟩ | ⟨hne, -⟩
    · exact ⟨missStart_installed hok start (read.local_l1 ▸ fill.installed), hstates⟩
    · exact absurd ⟨rfl, rfl⟩ hne

/-- A miss of both levels installs its line in both fill ways; the L2 victim leaves the L2 and has no valid L1 copy, and the
peer's recency orders stay. -/
theorem Accessed.of_missBoth (missL2 : (cs.stateL2 cfg a).isValid = false) :
    Installed cfg.l1 (cs.l1.get c) (k'.l1 c) a T.memoryState ∧ Installed cfg.l2 cs.l2 k'.l2 a .S ∧
      k'.caches.stateL1 cfg c a = .found T.memoryState ∧ k'.caches.stateL2 cfg a = .found .S ∧
      (∀ va, victimAddress cfg.l2 cs.l2 a = some va → lineAddr cfg va ≠ lineAddr cfg a →
        k'.caches.stateL2 cfg va = .notPresent ∧ ∀ d, (k'.caches.stateL1 cfg d va).isValid = false) ∧
      (∀ b, (setAt cfg.l1 (k'.l1 (peer c)) b).lru = (setAt cfg.l1 (cs.l1.get (peer c)) b).lru) := by
  cases hacc with
  | hit valid => exact absurd valid (by simp [invalid])
  | fromL2 _ hitL2 => exact absurd hitL2 (by simp [missL2])
  | fromMemory _ _ start fill =>
    have hev := fill.evicted
    refine ⟨missStart_installed hok start ?_, missStart_installedL2 hok start ?_, ?_, ?_, fun va hva hne => ?_,
      fromMemory_peer_lru start fill⟩
    · exact fill.installed.of_before (start.ok.l1 c) (hev.ok.l1 c) (hev.l1_match c a) (hev.l1_fillWay c a)
        (.inl (hev.l1_lru c a))
    · exact fill.installedL2.of_before start.ok.l2 hev.ok.l2 (hev.l2_match a) hev.l2_fillWay (.inl (hev.l2_lru a))
    · exact (fill.stateL1 a).trans (if_pos ⟨rfl, rfl⟩)
    · exact (fill.stateL2 a).trans (if_pos ⟨rfl, rfl⟩)
    · exact fromMemory_l2Victim hob hok start fill (mt (sameLine_l1_iff cfg va a).1 hne) ⟨va, hva, rfl, rfl⟩

end

end Sys2Proof.Machine

/-! ## LOAD (R140 to R151) -/

namespace Sys2Proof.Machine

/-! ### A Load that hits (R141) -/

section
variable {cfg : Config} {c : CoreId} {a : Addr} {cs : Caches} (hok : CachesOk cfg cs)
  (valid : (cs.stateL1 cfg c a).isValid = true)
include valid

theorem loadOp_hit_local : (loadOp cfg c a cs).caches.l1.get c = (lookup cfg.l1 (cs.l1.get c) a).2 := by
  rw [loadOp_hit valid]
  exact afterLocalLookup_local cfg c a cs

theorem loadOp_hit_peer : (loadOp cfg c a cs).caches.l1.get (peer c) = cs.l1.get (peer c) := by
  rw [loadOp_hit valid]
  exact afterLocalLookup_peer cfg c a cs

theorem loadOp_hit_l2 : (loadOp cfg c a cs).caches.l2 = cs.l2 := by
  rw [loadOp_hit valid]
  rfl

theorem loadOp_hit_events : (loadOp cfg c a cs).events = [.hit c a modeLoad] := by
  rw [loadOp_hit valid]
  rfl

include hok in
/-- A Load that hits changes no MESI state of an L1. -/
theorem loadOp_hit_stateL1 (d : CoreId) (b : Addr) :
    (loadOp cfg c a cs).caches.stateL1 cfg d b = cs.stateL1 cfg d b := by
  unfold Caches.stateL1
  rcases eq_or_eq_peer c d with rfl | rfl
  · rw [loadOp_hit_local valid, probe_lookup (hok.get_l1 _)]
  · rw [loadOp_hit_peer valid]

end

/-- What a completed Load counts is what its events say (R190 to R194). -/
theorem executed_load (s : State) (a : Addr) :
    Executed s (completeRecord s.issuing (loadOp s.cfg s.issuing a s.caches) s)
      (loadOp s.cfg s.issuing a s.caches).events (!(s.stateL1 s.issuing a).isValid)
      (!(s.stateL1 s.issuing a).isValid && !(s.stateL2 a).isValid) := executed_of_path (loadOp_accesses _ _ _ _)

theorem executed_load_hit {s : State} {a : Addr} (valid : (s.stateL1 s.issuing a).isValid = true) :
    Executed s (completeRecord s.issuing (loadOp s.cfg s.issuing a s.caches) s) [.hit s.issuing a modeLoad] false false := by
  simpa [valid, loadOp_hit_events valid] using executed_load s a

/-- A valid line matches a way of its set. -/
theorem exists_matchWay_of_isValid {g : Geometry} {K : Cache} {a : Addr} (h : (probe g K a).isValid = true) :
    ∃ w, (setAt g K a).matchWay (decodeAddr g a).tag = some w :=
  Option.ne_none_iff_exists'.1 (mt probe_of_no_match (ne_notPresent_of_isValid h))

/-- Settles O22: the work of a Load that hits is its first lookup and one event. -/
theorem loadHit : Obligations.LoadHit := by
  unfold Obligations.LoadHit
  rintro s a ⟨-, hok, -⟩ ha valid
  have hL := hok.get_l1 s.issuing
  obtain ⟨w, hm⟩ := exists_matchWay_of_isValid valid
  have hlocal := loadOp_hit_local valid
  have hset := setAt_lookup_match hL hm
  refine ⟨_, w, exec_inRange ha, executed_load_hit valid, loadOp_hit_l2 valid, loadOp_hit_peer valid, hm, ?_, ?_,
    fun b hb => ?_, loadOp_hit_stateL1 hok valid⟩
  · exact hlocal ▸ hset
  · exact hlocal ▸ hset ▸ touch_last _ w
  · exact hlocal ▸ setAt_lookup_otherSet hL hb

/-! ### A Load miss that hits the L2 (R143 to R147) -/

/-- What a Load emits on the peer's reading: a Modified copy is written back and invalidated (R144). -/
def loadPeerEvents (cfg : Config) (c : CoreId) (a : Addr) (y : Lookup) : List Event :=
  if y = .found .M then [.writeback c (lineAddr cfg a) (.l1 (peer c)) .l2, .invalidate c (lineAddr cfg a) (peer c)] else []

theorem loadFromPeer_events (cfg : Config) (c : CoreId) (a : Addr) (w : Nat) (k : Work) :
    (loadFromPeer cfg c a w k).events = k.events ++ loadPeerEvents cfg c a (probe cfg.l1 (k.l1 (peer c)) a) := by
  unfold loadFromPeer
  simp only [lookup_result]
  rcases probe cfg.l1 (k.l1 (peer c)) a with _ | st
  · simp [loadPeerEvents, fillFromL2]
  · cases st <;> simp [loadPeerEvents, fillFromL2, invalidatePeer]

/-- Where the peer has no valid copy, its reading leaves the touch of the lookup alone (R147). -/
theorem loadFromPeer_peer_of_invalid {cfg : Config} {c : CoreId} {a : Addr} {w : Nat} {k : Work}
    (h : (probe cfg.l1 (k.l1 (peer c)) a).isValid = false) :
    (loadFromPeer cfg c a w k).l1 (peer c) = (lookup cfg.l1 (k.l1 (peer c)) a).2 := by
  unfold loadFromPeer
  simp only [lookup_result]
  rcases hy : probe cfg.l1 (k.l1 (peer c)) a with _ | st
  · simp [fillFromL2]
  · obtain rfl := eq_I_of_invalid st (hy ▸ h)
    simp [fillFromL2]

theorem loadOp_missL2Hit_events {cfg : Config} (hcfg : cfg.Wf) {c : CoreId} {a : Addr} {cs : Caches}
    (hok : CachesOk cfg cs) (invalid : (cs.stateL1 cfg c a).isValid = false) (hitL2 : (cs.stateL2 cfg a).isValid = true) :
    (loadOp cfg c a cs).events =
      .missL1 c a modeLoad :: l1VictimEvents cfg c cs a ++ loadPeerEvents cfg c a (cs.stateL1 cfg (peer c) a) := by
  have start := startMiss_work hcfg c a modeLoad (afterLocalLookup_ok hok c a)
  rw [loadOp_missL2Hit invalid hitL2, loadFromPeer_events, missStart_events hok start, startMiss_peer hcfg hok]
  rfl

/-- A Load that finds no valid copy at the peer leaves it as the lookup does (R147). -/
theorem loadOp_peer_of_invalid {cfg : Config} (hcfg : cfg.Wf) {c : CoreId} {a : Addr} {cs : Caches}
    (hok : CachesOk cfg cs) (invalid : (cs.stateL1 cfg c a).isValid = false) (hitL2 : (cs.stateL2 cfg a).isValid = true)
    (hpeer : (cs.stateL1 cfg (peer c) a).isValid = false) :
    (loadOp cfg c a cs).l1 (peer c) = (lookup cfg.l1 (cs.l1.get (peer c)) a).2 := by
  have hstart := startMiss_peer hcfg hok c a modeLoad
  rw [loadOp_missL2Hit invalid hitL2, loadFromPeer_peer_of_invalid (hstart ▸ hpeer), hstart]

section
variable {s : State} {a : Addr} (hs : StructOk s) (ha : inRange s.cfg a)
  (invalid : (s.stateL1 s.issuing a).isValid = false) (hitL2 : (s.stateL2 a).isValid = true) {y : Lookup}
  (hy : s.stateL1 (peer s.issuing) a = y)
include hs invalid hitL2 hy

theorem executed_load_missL2Hit :
    Executed s (completeRecord s.issuing (loadOp s.cfg s.issuing a s.caches) s)
      (.missL1 s.issuing a modeLoad :: l1VictimEvents s.cfg s.issuing s.caches a ++
        loadPeerEvents s.cfg s.issuing a y) true false := by
  obtain ⟨hcfg, hok, -⟩ := hs
  subst hy
  have hexecuted := executed_load s a
  rwa [invalid, hitL2, loadOp_missL2Hit_events hcfg hok invalid hitL2] at hexecuted

include ha

/-- A Load miss that hits the L2 completes with the events and the states that the peer's state `y` selects (R143). -/
theorem exec_load_missL2Hit :
    ∃ t, exec (.load a) s = .next t ∧
      Executed s t (.missL1 s.issuing a modeLoad :: l1VictimEvents s.cfg s.issuing s.caches a ++
        loadPeerEvents s.cfg s.issuing a y) true false ∧
      Installed s.cfg.l1 (s.caches.l1.get s.issuing) (t.caches.l1.get s.issuing) a (loadTable.fillState y) ∧
      t.stateL1 s.issuing a = .found (loadTable.fillState y) ∧
      t.stateL1 (peer s.issuing) a = loadTable.missPeer y ∧ t.stateL2 a = .found .S := by
  have hexecuted := executed_load_missL2Hit hs invalid hitL2 hy
  obtain ⟨hcfg, hok, -⟩ := hs
  subst hy
  exact ⟨_, exec_inRange ha, hexecuted, (loadOp_accessed hcfg hok _ ha).of_missL2Hit hcfg.1 hok invalid hitL2⟩

/-- Where the peer is not Modified, no event follows the local victim's (R145 to R147). -/
theorem exec_load_missL2Hit_of_not_modified (hne : y ≠ .found .M) :
    ∃ t, exec (.load a) s = .next t ∧
      Executed s t (.missL1 s.issuing a modeLoad :: l1VictimEvents s.cfg s.issuing s.caches a) true false ∧
      Installed s.cfg.l1 (s.caches.l1.get s.issuing) (t.caches.l1.get s.issuing) a (loadTable.fillState y) ∧
      t.stateL1 s.issuing a = .found (loadTable.fillState y) ∧
      t.stateL1 (peer s.issuing) a = loadTable.missPeer y ∧ t.stateL2 a = .found .S := by
  have h := exec_load_missL2Hit hs ha invalid hitL2 hy
  rwa [loadPeerEvents, if_neg hne, List.append_nil] at h

end

/-- Settles O23: the row of LOAD's table for a Modified peer, the one with events at the peer's reading. -/
theorem loadMissPeerModified : Obligations.LoadMissPeerModified := by
  unfold Obligations.LoadMissPeerModified
  exact fun _ _ hs ha invalid hitL2 hM => exec_load_missL2Hit hs ha invalid hitL2 hM

/-- Settles O24: the row of LOAD's table for a Shared peer. -/
theorem loadMissPeerShared : Obligations.LoadMissPeerShared := by
  unfold Obligations.LoadMissPeerShared
  exact fun _ _ hs ha invalid hitL2 hS => exec_load_missL2Hit_of_not_modified hs ha invalid hitL2 hS (by decide)

/-- Settles O25: the row of LOAD's table for an Exclusive peer. -/
theorem loadMissPeerExclusive : Obligations.LoadMissPeerExclusive := by
  unfold Obligations.LoadMissPeerExclusive
  exact fun _ _ hs ha invalid hitL2 hE => exec_load_missL2Hit_of_not_modified hs ha invalid hitL2 hE (by decide)

/-- The row of LOAD's table for a peer with no valid copy (R147). -/
theorem loadTable_fillState_of_invalid {y : Lookup} (h : y.isValid = false) : loadTable.fillState y = .E := by
  refine if_neg ?_
  rintro (rfl | rfl) <;> cases h

/-- Settles O26: the peer's L1 is what its lookup leaves, and a lookup changes no state. -/
theorem loadMissPeerWithoutCopy : Obligations.LoadMissPeerWithoutCopy := by
  unfold Obligations.LoadMissPeerWithoutCopy
  intro s a hs ha invalid hitL2 hpeer
  have hexecuted := executed_load_missL2Hit hs invalid hitL2 rfl
  obtain ⟨hcfg, hok, -⟩ := hs
  have hcache := loadOp_peer_of_invalid hcfg hok invalid hitL2 hpeer
  obtain ⟨hinst, hlocal, -, hl2⟩ := (loadOp_accessed hcfg hok _ ha).of_missL2Hit hcfg.1 hok invalid hitL2
  rw [loadTable_fillState_of_invalid hpeer] at hinst hlocal
  rw [loadPeerEvents, if_neg (fun hM => Lookup.not_owner_of_invalid hpeer (.inl hM)), List.append_nil] at hexecuted
  refine ⟨_, exec_inRange ha, hexecuted, hinst, hlocal, hl2, hcache, fun b => ?_⟩
  exact (congrArg (probe s.cfg.l1 · b) hcache).trans (probe_lookup (hok.get_l1 _) a b)

/-! ### A Load that misses both levels (R148) -/

theorem loadOp_missBoth_events {cfg : Config} (hcfg : cfg.Wf) {c : CoreId} {a : Addr} {cs : Caches}
    (hok : CachesOk cfg cs) (ha : inRange cfg a) (invalid : (cs.stateL1 cfg c a).isValid = false)
    (missL2 : (cs.stateL2 cfg a).isValid = false) :
    (loadOp cfg c a cs).events = .missL1 c a modeLoad :: l1VictimEvents cfg c cs a ++
      (.missL2 c a modeLoad :: l2VictimEvents cfg c (afterL1Eviction cfg c cs a) a) := by
  have start := startMiss_work hcfg c a modeLoad (afterLocalLookup_ok hok c a)
  have fill := fillFromMemory_spec hcfg c ha modeLoad .E start.ok (startMiss_fillWay hcfg hok c a modeLoad)
  rw [loadOp_missL2Miss invalid missL2, fill.events, missStart_events hok start, missStart_l2VictimEvents hok start hcfg]

/-- Settles O27: the two evictions and the two installs of the path through memory. -/
theorem loadMissBoth : Obligations.LoadMissBoth := by
  unfold Obligations.LoadMissBoth
  rintro s a ⟨hcfg, hok, -⟩ ha invalid missL2
  have hexecuted := executed_load s a
  rw [invalid, missL2, loadOp_missBoth_events hcfg hok ha invalid missL2] at hexecuted
  exact ⟨_, exec_inRange ha, hexecuted, (loadOp_accessed hcfg hok _ ha).of_missBoth hcfg.1 hok invalid missL2⟩

/-! ### A Load after a Store to its line (R151) -/

/-- Whatever path a Store takes, its core holds the line in `M` afterwards (R161, R162, R165, R166). -/
theorem storeOp_local_modified {cfg : Config} (hcfg : cfg.Wf) {cs : Caches} (hok : CachesOk cfg cs) (c : CoreId)
    {a b : Addr} (ha : inRange cfg a) (hb : SameLine cfg.l1 b a) :
    (storeOp cfg c a cs).caches.stateL1 cfg c b = .found .M := by
  rw [stateL1_eq]
  cases storeOp_accessed hcfg hok c ha with
  | hit _ toLocal => exact (toLocal.state b).trans (if_pos hb)
  | fromL2 _ _ _ _ fill => exact (fill.stateL1 b).trans (if_pos hb)
  | fromMemory _ _ _ fill => exact (fill.stateL1 b).trans (if_pos hb)

/-- Settles O39: the Store leaves the line in `M`, which is a hit for the Load. -/
theorem readYourWrite : Obligations.ReadYourWrite := by
  unfold Obligations.ReadYourWrite
  rintro s u a b ⟨hcfg, hok, -⟩ ha hab
  have hM := storeOp_local_modified hcfg hok s.issuing ha ((sameLine_l1_iff s.cfg b a).2 hab.symm)
  refine ⟨_, exec_inRange ha, hM, fun hucfg hucaches hcore => ?_⟩
  have hb : inRange u.cfg b := by
    rw [hucfg]
    exact inRange_of_lineAddr_eq hcfg ha hab
  have huok : CachesOk u.cfg u.caches := by
    rw [hucfg, hucaches]
    exact (storeOp_accessed hcfg hok s.issuing ha).ok hok
  have valid : (u.stateL1 u.issuing b).isValid = true := by
    rw [State.stateL1, hucfg, hucaches, hcore]
    exact congrArg Lookup.isValid hM
  refine ⟨_, exec_inRange hb, hcore ▸ executed_load_hit valid, loadOp_hit_stateL1 huok valid, fun x => ?_⟩
  exact congrArg (probe u.cfg.l2 · x) (loadOp_hit_l2 valid)

end Sys2Proof.Machine

/-! ## STORE (R160 to R169) -/

namespace Sys2Proof.Machine

/-- What a completed Store counts is what its events say (R190 to R194). -/
theorem executed_store (s : State) (a : Addr) :
    Executed s (completeRecord s.issuing (storeOp s.cfg s.issuing a s.caches) s)
      (storeOp s.cfg s.issuing a s.caches).events (!(s.stateL1 s.issuing a).isValid)
      (!(s.stateL1 s.issuing a).isValid && !(s.stateL2 a).isValid) := executed_of_path (storeOp_accesses _ _ _ _)

/-- What a Store emits on the peer's state `y`: a valid copy is invalidated, never written back (R162, R165). -/
def storePeerEvents (cfg : Config) (c : CoreId) (a : Addr) (y : Lookup) : List Event :=
  if y.isValid then [.invalidate c (lineAddr cfg a) (peer c)] else []

/-! ### A Store that hits (R161, R162) -/

theorem isValid_of_owner {x : Lookup} (h : x = .found .M ∨ x = .found .E) : x.isValid = true := by
  rcases h with rfl | rfl <;> rfl

theorem storeUpgrade_events (cfg : Config) (c : CoreId) (a : Addr) (k : Work) :
    (storeUpgrade cfg c a k).events = k.events ++ storePeerEvents cfg c a (probe cfg.l1 (k.l1 (peer c)) a) := by
  unfold storeUpgrade storePeerEvents
  split
  · rfl
  · exact (List.append_nil _).symm

theorem storeUpgrade_local (cfg : Config) (c : CoreId) (a : Addr) (k : Work) :
    (storeUpgrade cfg c a k).l1 c = setState cfg.l1 .M a (k.l1 c) := by
  unfold storeUpgrade
  split <;> simp [invalidatePeer]

theorem storeOp_hitOwner_events {cfg : Config} {c : CoreId} {a : Addr} {cs : Caches}
    (owner : cs.stateL1 cfg c a = .found .M ∨ cs.stateL1 cfg c a = .found .E) :
    (storeOp cfg c a cs).events = [.hit c a modeStore] := by
  rw [storeOp_hitOwner owner]
  rfl

/-- An owner's Store does not access the peer (R161). -/
theorem storeOp_hitOwner_peer {cfg : Config} {c : CoreId} {a : Addr} {cs : Caches}
    (owner : cs.stateL1 cfg c a = .found .M ∨ cs.stateL1 cfg c a = .found .E) :
    (storeOp cfg c a cs).l1 (peer c) = cs.l1.get (peer c) := by
  rw [storeOp_hitOwner owner, Work.withL1_l1_peer, Work.emit_l1, afterLocalLookup_peer]

theorem storeOp_hitShared_events {cfg : Config} {c : CoreId} {a : Addr} {cs : Caches}
    (shared : cs.stateL1 cfg c a = .found .S) :
    (storeOp cfg c a cs).events = .hit c a modeStore :: storePeerEvents cfg c a (cs.stateL1 cfg (peer c) a) := by
  rw [storeOp_hitShared shared, storeUpgrade_events, Work.emit_l1, afterLocalLookup_peer]
  rfl

theorem executed_store_hitOwner {s : State} {a : Addr}
    (owner : s.stateL1 s.issuing a = .found .M ∨ s.stateL1 s.issuing a = .found .E) :
    Executed s (completeRecord s.issuing (storeOp s.cfg s.issuing a s.caches) s) [.hit s.issuing a modeStore]
      false false := by
  simpa [isValid_of_owner owner, storeOp_hitOwner_events owner] using executed_store s a

section
variable {cfg : Config} {c : CoreId} {a : Addr} {cs : Caches} (hok : CachesOk cfg cs)
  (valid : (cs.stateL1 cfg c a).isValid = true)
include valid

/-- A Store that hits looks its line up and leaves it in `M`. -/
theorem storeOp_hit_local :
    (storeOp cfg c a cs).l1 c = setState cfg.l1 .M a (lookup cfg.l1 (cs.l1.get c) a).2 := by
  rcases (cs.stateL1 cfg c a).owner_or_shared_or_invalid with owner | shared | invalid
  · rw [storeOp_hitOwner owner, Work.withL1_l1_same, afterLocalLookup_local]
  · rw [storeOp_hitShared shared, storeUpgrade_local, Work.emit_l1, afterLocalLookup_local]
  · simp [invalid] at valid

include hok

/-- The set of the hit line: its way is touched, and its line in `M` (R101, R104). -/
theorem storeOp_hit_set {w : Nat} (hm : (setAt cfg.l1 (cs.l1.get c) a).matchWay (decodeAddr cfg.l1 a).tag = some w) :
    setAt cfg.l1 ((storeOp cfg c a cs).l1 c) a = ((setAt cfg.l1 (cs.l1.get c) a).touch w).withState w .M := by
  have hL := hok.get_l1 c
  have htouch := setAt_lookup_match hL hm
  rw [storeOp_hit_local valid, setAt_setState_match (cacheOk_lookup hL a), htouch]
  rwa [htouch, touch_matchWay]

theorem storeOp_hit_otherSet {b : Addr} (hb : (decodeAddr cfg.l1 b).index ≠ (decodeAddr cfg.l1 a).index) :
    setAt cfg.l1 ((storeOp cfg c a cs).l1 c) b = setAt cfg.l1 (cs.l1.get c) b := by
  have hL := hok.get_l1 c
  rw [storeOp_hit_local valid, ← setAt_lookup_otherSet hL hb]
  rcases setAt_setState (cacheOk_lookup hL a) .M a b with ⟨he, -⟩ | ⟨_, hidx, -⟩
  · exact he
  · exact absurd hidx hb

end

/-- A hit gives the peer's copy the state its table says, moves none of the peer's orders, and leaves the L2 and every other
line. -/
theorem Accessed.of_hit {T : AccessTable} {cfg : Config} {c : CoreId} {a : Addr} {cs : Caches} {k' : Work}
    (hacc : Accessed T cfg c a cs k') (hok : CachesOk cfg cs) (valid : (cs.stateL1 cfg c a).isValid = true) :
    k'.l2 = cs.l2 ∧
      k'.caches.stateL1 cfg (peer c) a = T.hitPeer (cs.stateL1 cfg c a) (cs.stateL1 cfg (peer c) a) ∧
      (∀ d b, lineAddr cfg b ≠ lineAddr cfg a → k'.caches.stateL1 cfg d b = cs.stateL1 cfg d b) ∧
      (∀ b, (setAt cfg.l1 (k'.l1 (peer c)) b).lru = (setAt cfg.l1 (cs.l1.get (peer c)) b).lru) := by
  cases hacc with
  | fromL2 invalid => simp [invalid] at valid
  | fromMemory invalid => simp [invalid] at valid
  | hit _ toLocal toPeer l2 =>
    refine ⟨l2, (toPeer.state a).trans (if_pos ⟨rfl, rfl⟩), fun d b hb => ?_, toPeer.lru⟩
    have hline : ¬ SameLine cfg.l1 b a := mt (sameLine_l1_iff cfg b a).1 hb
    rcases eq_or_eq_peer c d with rfl | rfl
    · exact (toLocal.state b).trans ((if_neg hline).trans (probe_lookup (hok.get_l1 _) a b))
    · exact (toPeer.state b).trans (if_neg hline)

/-- Settles O28: the work of an owner's Store is its first lookup, one event and the line's state. -/
theorem storeHitOwner : Obligations.StoreHitOwner := by
  unfold Obligations.StoreHitOwner
  rintro s a ⟨hcfg, hok, -⟩ ha owner
  have valid := isValid_of_owner owner
  obtain ⟨w, hm⟩ := exists_matchWay_of_isValid valid
  have hset := storeOp_hit_set hok valid hm
  obtain ⟨hl2, -, hother, -⟩ := (storeOp_accessed hcfg hok s.issuing ha).of_hit hok valid
  refine ⟨_, w, exec_inRange ha, executed_store_hitOwner owner, hl2, storeOp_hitOwner_peer owner,
    storeOp_local_modified hcfg hok _ ha ⟨rfl, rfl⟩, hother _, hm, hset, ?_,
    fun b hb => storeOp_hit_otherSet hok valid hb⟩
  exact (congrArg (fun set => set.lru.getLast?) hset).trans (touch_last _ w)

/-- Settles O29: the row of STORE's table for a hit in `S`, the one that reads the peer. -/
theorem storeHitShared : Obligations.StoreHitShared := by
  unfold Obligations.StoreHitShared
  rintro s a ⟨hcfg, hok, -⟩ ha shared
  have valid : (s.stateL1 s.issuing a).isValid = true := congrArg Lookup.isValid shared
  obtain ⟨w, hm⟩ := exists_matchWay_of_isValid valid
  have hexecuted := executed_store s a
  rw [valid, storeOp_hitShared_events shared] at hexecuted
  obtain ⟨hl2, hpeer, hother, hlru⟩ := (storeOp_accessed hcfg hok s.issuing ha).of_hit hok valid
  refine ⟨_, w, exec_inRange ha, hexecuted, hl2, storeOp_local_modified hcfg hok _ ha ⟨rfl, rfl⟩,
    hpeer.trans (if_congr ?_ rfl rfl), hother, hm, storeOp_hit_set hok valid hm,
    fun b hb => storeOp_hit_otherSet hok valid hb, hlru⟩
  exact and_iff_right shared

/-! ### A Store miss that hits the L2 (R164, R165) -/

theorem storeFromPeer_events (cfg : Config) (c : CoreId) (a : Addr) (w : Nat) (k : Work) :
    (storeFromPeer cfg c a w k).events = k.events ++ storePeerEvents cfg c a (probe cfg.l1 (k.l1 (peer c)) a) := by
  unfold storeFromPeer storePeerEvents
  simp only [lookup_result]
  split
  · rfl
  · exact (List.append_nil _).symm

/-- Where the peer has no valid copy, its reading leaves the touch of the lookup alone (R164). -/
theorem storeFromPeer_peer_of_invalid {cfg : Config} {c : CoreId} {a : Addr} {w : Nat} {k : Work}
    (h : (probe cfg.l1 (k.l1 (peer c)) a).isValid = false) :
    (storeFromPeer cfg c a w k).l1 (peer c) = (lookup cfg.l1 (k.l1 (peer c)) a).2 := by
  unfold storeFromPeer
  simp [lookup_result, h, fillFromL2]

section
variable {cfg : Config} (hcfg : cfg.Wf) {c : CoreId} {a : Addr} {cs : Caches} (hok : CachesOk cfg cs)
  (invalid : (cs.stateL1 cfg c a).isValid = false)
include invalid

theorem storeOp_missL2Hit (hitL2 : (cs.stateL2 cfg a).isValid = true) :
    storeOp cfg c a cs = storeFromPeer cfg c a (startMiss cfg c a modeStore (afterLocalLookup cfg c a cs)).way
      (startMiss cfg c a modeStore (afterLocalLookup cfg c a cs)).work :=
  (storeOp_miss invalid).trans (storeMiss_l2Hit hitL2)

theorem storeOp_missL2Miss (missL2 : (cs.stateL2 cfg a).isValid = false) :
    storeOp cfg c a cs = fillFromMemory cfg c a modeStore .M (startMiss cfg c a modeStore (afterLocalLookup cfg c a cs)).way
      (startMiss cfg c a modeStore (afterLocalLookup cfg c a cs)).work :=
  (storeOp_miss invalid).trans (storeMiss_l2Miss missL2)

include hcfg hok

theorem storeOp_missL2Hit_events (hitL2 : (cs.stateL2 cfg a).isValid = true) :
    (storeOp cfg c a cs).events =
      .missL1 c a modeStore :: l1VictimEvents cfg c cs a ++ storePeerEvents cfg c a (cs.stateL1 cfg (peer c) a) := by
  have start := startMiss_work hcfg c a modeStore (afterLocalLookup_ok hok c a)
  rw [storeOp_missL2Hit invalid hitL2, storeFromPeer_events, missStart_events hok start, startMiss_peer hcfg hok]
  rfl

/-- A Store miss that finds no valid copy at the peer leaves it as the lookup does (R164). -/
theorem storeOp_peer_of_invalid (hitL2 : (cs.stateL2 cfg a).isValid = true)
    (hpeer : (cs.stateL1 cfg (peer c) a).isValid = false) :
    (storeOp cfg c a cs).l1 (peer c) = (lookup cfg.l1 (cs.l1.get (peer c)) a).2 := by
  have hstart := startMiss_peer hcfg hok c a modeStore
  rw [storeOp_missL2Hit invalid hitL2, storeFromPeer_peer_of_invalid (hstart ▸ hpeer), hstart]

theorem storeOp_missBoth_events (ha : inRange cfg a) (missL2 : (cs.stateL2 cfg a).isValid = false) :
    (storeOp cfg c a cs).events = .missL1 c a modeStore :: l1VictimEvents cfg c cs a ++
      (.missL2 c a modeStore :: l2VictimEvents cfg c (afterL1Eviction cfg c cs a) a) := by
  have start := startMiss_work hcfg c a modeStore (afterLocalLookup_ok hok c a)
  have fill := fillFromMemory_spec hcfg c ha modeStore .M start.ok (startMiss_fillWay hcfg hok c a modeStore)
  rw [storeOp_missL2Miss invalid missL2, fill.events, missStart_events hok start, missStart_l2VictimEvents hok start hcfg]

end

/-- Settles O30: a Store's table installs `M` and takes a valid copy from the peer, with an Invalidate and no Writeback. -/
theorem storeMissL2Hit : Obligations.StoreMissL2Hit := by
  unfold Obligations.StoreMissL2Hit
  rintro s a ⟨hcfg, hok, -⟩ ha invalid hitL2
  have hexecuted := executed_store s a
  rw [invalid, hitL2, storeOp_missL2Hit_events hcfg hok invalid hitL2] at hexecuted
  obtain ⟨hinst, hlocal, hpeer, hl2⟩ := (storeOp_accessed hcfg hok _ ha).of_missL2Hit hcfg.1 hok invalid hitL2
  exact ⟨_, exec_inRange ha, hexecuted, hinst, hlocal, hl2, hpeer⟩

/-! ### A Store that misses both levels (R166) -/

/-- Settles O31: the two evictions and the two installs of the path through memory. -/
theorem storeMissBoth : Obligations.StoreMissBoth := by
  unfold Obligations.StoreMissBoth
  rintro s a ⟨hcfg, hok, -⟩ ha invalid missL2
  have hexecuted := executed_store s a
  rw [invalid, missL2, storeOp_missBoth_events hcfg hok invalid ha missL2] at hexecuted
  exact ⟨_, exec_inRange ha, hexecuted, (storeOp_accessed hcfg hok _ ha).of_missBoth hcfg.1 hok invalid missL2⟩

/-! ### The peer's reading on an L2 hit (R143, R164) -/

/-- A change of one line's state leaves every other set as it was. -/
theorem Restated.otherSet {g : Geometry} {a b : Addr} {x : Lookup} {K K' : Cache} (h : Restated g a x K K')
    (hK : CacheOk g K) (hb : (decodeAddr g b).index ≠ (decodeAddr g a).index) : setAt g K' b = setAt g K b := by
  have hset := setAt_ok hK b
  have hset' := setAt_ok h.ok b
  refine CacheSet.ext_line hset hset' (fun w => ?_) (h.lru b)
  refine line_eq_of_probe hK h.ok (tags_of_match hset hset' (h.matchWay b) w) (fun x hx _ => ?_)
  rw [h.state, if_neg (fun hs => hb (hx.symm.trans hs.1))]

/-- A lookup that finds no line leaves the cache (R102). -/
theorem lookup_of_notPresent {g : Geometry} {K : Cache} {a : Addr} (h : probe g K a = .notPresent) :
    (lookup g K a).2 = K := by
  unfold lookup
  rw [probe_eq_notPresent_iff.1 h]

/-- On an L2 hit an access leaves the peer looked up, with the state of one line changed at most. -/
theorem Accessed.peer_restated_lookup {T : AccessTable} {cfg : Config} {c : CoreId} {a : Addr} {cs : Caches} {k' : Work}
    (hacc : Accessed T cfg c a cs k') (invalid : (cs.stateL1 cfg c a).isValid = false)
    (hitL2 : (cs.stateL2 cfg a).isValid = true) :
    Restated cfg.l1 a (T.missPeer (cs.stateL1 cfg (peer c) a)) (lookup cfg.l1 (cs.l1.get (peer c)) a).2
      (k'.l1 (peer c)) := by
  cases hacc with
  | hit valid => simp [invalid] at valid
  | fromMemory _ missL2 => simp [hitL2] at missL2
  | fromL2 _ _ start read fill =>
    rw [fill.peer, ← missStart_peer start]
    exact read.peer

/-- LOAD and STORE each access the line of their address by a table. -/
theorem opOf_accessed {cfg : Config} (hcfg : cfg.Wf) {a : Addr} {cs : Caches} {i : Instr} (hi : i = .load a ∨ i = .store a)
    (hok : CachesOk cfg cs) (c : CoreId) (ha : inRange cfg a) : ∃ T, Accessed T cfg c a cs (opOf i cfg c a cs) := by
  rcases hi with rfl | rfl
  · exact ⟨_, loadOp_accessed hcfg hok c ha⟩
  · exact ⟨_, storeOp_accessed hcfg hok c ha⟩

/-- A Load or Store miss that hits the L2 and finds the peer without the line leaves the peer's L1 (R164). -/
theorem opOf_peer_of_notPresent {cfg : Config} (hcfg : cfg.Wf) {c : CoreId} {a : Addr} {cs : Caches} {i : Instr}
    (hi : i = .load a ∨ i = .store a) (hok : CachesOk cfg cs) (invalid : (cs.stateL1 cfg c a).isValid = false)
    (hitL2 : (cs.stateL2 cfg a).isValid = true) (hpeer : cs.stateL1 cfg (peer c) a = .notPresent) :
    (opOf i cfg c a cs).l1 (peer c) = cs.l1.get (peer c) := by
  have hinv : (cs.stateL1 cfg (peer c) a).isValid = false := congrArg Lookup.isValid hpeer
  refine Eq.trans ?_ (lookup_of_notPresent hpeer)
  rcases hi with rfl | rfl
  · exact loadOp_peer_of_invalid hcfg hok invalid hitL2 hinv
  · exact storeOp_peer_of_invalid hcfg hok invalid hitL2 hinv

/-- Settles O35: the peer is looked up, and the state its line then takes moves no recency order. -/
theorem peerReadTouches : Obligations.PeerReadTouches := by
  unfold Obligations.PeerReadTouches
  rintro s a i hi ⟨hcfg, hok, -⟩ ha invalid hitL2
  have haddr : i.addr = a := by rcases hi with rfl | rfl <;> rfl
  have hP := hok.get_l1 (peer s.issuing)
  obtain ⟨T, hacc⟩ := opOf_accessed hcfg hi hok s.issuing ha
  have hread := hacc.peer_restated_lookup invalid hitL2
  subst haddr
  refine ⟨_, exec_inRange ha, fun w hm => ?_, opOf_peer_of_notPresent hcfg hi hok invalid hitL2, fun b hb => ?_⟩
  · exact (hread.lru _).trans (congrArg CacheSet.lru (setAt_lookup_match hP hm))
  · exact (hread.otherSet (cacheOk_lookup hP _) hb).trans (setAt_lookup_otherSet hP hb)

/-! ### After a Store (R168, R169) -/

/-- Settles O40: each of the two Stores leaves the line in `M`, so the second one hits as the owner. -/
theorem writeAfterWrite : Obligations.WriteAfterWrite := by
  unfold Obligations.WriteAfterWrite
  rintro s u a b ⟨hcfg, hok, -⟩ ha hab
  have hM := storeOp_local_modified hcfg hok s.issuing ha ((sameLine_l1_iff s.cfg b a).2 hab.symm)
  refine ⟨_, exec_inRange ha, fun hucfg hucaches hcore => ?_⟩
  rw [completeRecord_cfg] at hucfg
  rw [completeRecord_caches] at hucaches
  rw [← hucfg] at hcfg hok ha hab hucaches hM
  rw [← hcore] at hucaches hM ⊢
  have hb : inRange u.cfg b := inRange_of_lineAddr_eq hcfg ha hab
  have huok : CachesOk u.cfg u.caches := hucaches ▸ (storeOp_accessed hcfg hok u.issuing ha).ok hok
  have owner : u.stateL1 u.issuing b = .found .M :=
    (congrArg (fun cs => cs.stateL1 u.cfg u.issuing b) hucaches).trans hM
  exact ⟨_, exec_inRange hb, executed_store_hitOwner (.inl owner), storeOp_local_modified hcfg huok _ hb ⟨rfl, rfl⟩⟩

/-- Settles O41: the Store leaves the line in `M` and the caches coherent, and an owner is alone (R34). -/
theorem storeLeavesSoleOwner : Obligations.StoreLeavesSoleOwner := by
  unfold Obligations.StoreLeavesSoleOwner
  rintro s a ⟨⟨hcfg, hok, -⟩, hcoh⟩ ha
  have hM := storeOp_local_modified hcfg hok s.issuing ha ⟨rfl, rfl⟩
  have hcoh' := (storeOp_accessed hcfg hok s.issuing ha).coherent storeTable_keepsCoherence hcfg.1 hok hcoh ha
  exact ⟨_, exec_inRange ha, hM, hcoh'.ownerAlone _ a ha (.inl hM)⟩

end Sys2Proof.Machine

/-! ## The scheduler and the step around an operation (R180, R181, R195 to R199) -/

namespace Sys2Proof.Machine

/-! ### The slot the search takes (R196) -/

/-- The search takes the slot it starts from where that slot's core has an item left. -/
theorem searchSlot_of_open {s : State} {slot : Nat} (fuel : Nat) (h : ¬ s.exhausted (slotOwner s.cfg slot)) :
    searchSlot s (fuel + 1) slot = some (slotOwner s.cfg slot, slotAfter s.cfg slot) := if_neg h

/-- The search skips the slots of exhausted cores and takes the first other one, counted from `slot` around the round. -/
theorem searchSlot_of_first_open {s : State} : ∀ {d fuel slot : Nat}, d < fuel → slot < roundSlots s.cfg →
    (∀ e < d, s.exhausted (slotOwner s.cfg ((slot + e) % roundSlots s.cfg))) →
    ¬ s.exhausted (slotOwner s.cfg ((slot + d) % roundSlots s.cfg)) →
    searchSlot s fuel slot =
      some (slotOwner s.cfg ((slot + d) % roundSlots s.cfg), (slot + d + 1) % roundSlots s.cfg)
  | 0, fuel + 1, slot, _, hslot, _, hopen => by
    have hfirst : (slot + 0) % roundSlots s.cfg = slot := Nat.mod_eq_of_lt hslot
    rw [hfirst] at hopen ⊢
    exact searchSlot_of_open fuel hopen
  | d + 1, fuel + 1, slot, hd, hslot, hskip, hopen => by
    have hfirst : s.exhausted (slotOwner s.cfg slot) := by
      simpa [Nat.mod_eq_of_lt hslot] using hskip 0 (Nat.succ_pos d)
    have hnext (e : Nat) : (slotAfter s.cfg slot + e) % roundSlots s.cfg = (slot + (e + 1)) % roundSlots s.cfg := by
      rw [slotAfter, Nat.mod_add_mod, Nat.add_right_comm, Nat.add_assoc]
    have hlast : (slotAfter s.cfg slot + d + 1) % roundSlots s.cfg = (slot + (d + 1) + 1) % roundSlots s.cfg :=
      hnext (d + 1)
    rw [searchSlot, if_pos hfirst, ← hnext d, ← hlast]
    refine searchSlot_of_first_open (Nat.lt_of_succ_lt_succ hd) (Nat.mod_lt _ (by omega)) (fun e he => ?_) ?_
    · rw [hnext]
      exact hskip (e + 1) (Nat.succ_lt_succ he)
    · rwa [hnext]

/-- The scheduler's choice is the search's, recorded in the state. -/
theorem nextCore_of_searchSlot {s : State} {c : CoreId} {n : Nat}
    (h : searchSlot s (roundSlots s.cfg + 1) s.slot = some (c, n)) : nextCore s = some (c, chooseCore c n s) := by
  rw [nextCore, h]

theorem searchSlot_of_nextCore {s : State} {c : CoreId} {n : Nat} (h : nextCore s = some (c, chooseCore c n s)) :
    searchSlot s (roundSlots s.cfg + 1) s.slot = some (c, n) := by
  cases hs : searchSlot s (roundSlots s.cfg + 1) s.slot with
  | none => simp [nextCore, hs] at h
  | some p =>
    obtain ⟨rfl, hstate⟩ := Prod.mk.inj (Option.some.inj ((nextCore_of_searchSlot hs).symm.trans h))
    exact congrArg (fun k => some (p.1, k)) (congrArg State.slot hstate)

/-- Each core owns a slot of the round (R195, R8). -/
theorem exists_slot_of_core {cfg : Config} (h : cfg.Wf) (c : CoreId) :
    ∃ k < roundSlots cfg, slotOwner cfg k = c := by
  obtain ⟨-, -, -, -, -, hratio1, hratio2⟩ := h
  unfold slotOwner roundSlots
  cases c with
  | core1 => exact ⟨0, by omega, if_pos hratio1⟩
  | core2 => exact ⟨cfg.ratio1, by omega, if_neg (Nat.lt_irrefl _)⟩

/-- Every slot of the round is met within one round from any slot of it. -/
theorem exists_offset_to_slot {n slot k : Nat} (hslot : slot < n) (hk : k < n) : ∃ d < n, (slot + d) % n = k := by
  rcases Nat.le_total slot k with hle | hle
  · exact ⟨k - slot, by omega, by rw [Nat.add_sub_cancel' hle, Nat.mod_eq_of_lt hk]⟩
  · rcases Nat.eq_or_lt_of_le hle with rfl | hlt
    · exact ⟨0, by omega, Nat.mod_eq_of_lt hk⟩
    · refine ⟨n - slot + k, by omega, ?_⟩
      rw [← Nat.add_assoc, Nat.add_sub_cancel' hslot.le, Nat.add_mod_left, Nat.mod_eq_of_lt hk]

/-- A run that is not at its end has a core with an item left (R198). -/
theorem exists_open_core {s : State} (h : ¬ s.finished) : ∃ c, ¬ s.exhausted c := by
  by_contra hall
  push Not at hall
  exact h ⟨hall .core1, hall .core2⟩

/-- The first slot from `slot` on whose core has an item left, by its distance. -/
theorem exists_first_open_slot {s : State} (hcfg : s.cfg.Wf) (hslot : s.slot < roundSlots s.cfg) (h : ¬ s.finished) :
    ∃ d < roundSlots s.cfg, (∀ e < d, s.exhausted (slotOwner s.cfg ((s.slot + e) % roundSlots s.cfg))) ∧
      ¬ s.exhausted (slotOwner s.cfg ((s.slot + d) % roundSlots s.cfg)) := by
  obtain ⟨c, hc⟩ := exists_open_core h
  obtain ⟨k, hk, rfl⟩ := exists_slot_of_core hcfg c
  obtain ⟨d, hd, rfl⟩ := exists_offset_to_slot hslot hk
  have hex : ∃ d, ¬ s.exhausted (slotOwner s.cfg ((s.slot + d) % roundSlots s.cfg)) := ⟨d, hc⟩
  exact ⟨Nat.find hex, (Nat.find_min' hex hc).trans_lt hd, fun e he => not_not.1 (Nat.find_min hex he),
    Nat.find_spec hex⟩

/-- Settles O17: a core with an item left owns a slot of the round, and the search stops at the first such slot. -/
theorem schedulerTakesFirstOpenSlot : Obligations.SchedulerTakesFirstOpenSlot := by
  unfold Obligations.SchedulerTakesFirstOpenSlot
  intro s hcfg hslot hopen
  obtain ⟨d, hd, hskip, hfirst⟩ := exists_first_open_slot hcfg hslot hopen
  exact ⟨d, hd, hskip, hfirst,
    nextCore_of_searchSlot (searchSlot_of_first_open (Nat.lt_succ_of_lt hd) hslot hskip hfirst)⟩

/-! ### The order of items reads no contents (R199) -/

/-- Two machines agree on everything the scheduler reads: the ratios, the slot, the cursors and the streams' lengths. -/
structure SameOrder (s s' : State) : Prop where
  ratio1 : s.cfg.ratio1 = s'.cfg.ratio1
  ratio2 : s.cfg.ratio2 = s'.cfg.ratio2
  slot : s.slot = s'.slot
  cur : s.cur = s'.cur
  length : ∀ c, (s.stream c).length = (s'.stream c).length

section
variable {s s' : State} (h : SameOrder s s')
include h

theorem SameOrder.exhausted_iff (c : CoreId) : s.exhausted c ↔ s'.exhausted c := by
  rw [State.exhausted, h.length, h.cur]

theorem SameOrder.finished_iff : s.finished ↔ s'.finished :=
  and_congr (h.exhausted_iff .core1) (h.exhausted_iff .core2)

theorem SameOrder.slotOwner_eq (slot : Nat) : slotOwner s.cfg slot = slotOwner s'.cfg slot := by
  rw [slotOwner, h.ratio1, slotOwner]

theorem SameOrder.roundSlots_eq : roundSlots s.cfg = roundSlots s'.cfg := by
  rw [roundSlots, h.ratio1, h.ratio2, roundSlots]

theorem SameOrder.searchSlot_eq (fuel slot : Nat) : searchSlot s fuel slot = searchSlot s' fuel slot := by
  induction fuel generalizing slot with
  | zero => rfl
  | succ fuel ih =>
    rw [searchSlot, searchSlot, slotAfter, slotAfter, h.slotOwner_eq, h.roundSlots_eq, ih]
    exact if_congr (h.exhausted_iff _) rfl rfl

end

/-- What a step without a fault does to the order: it ends the run, or moves on one cursor and the slot as the search says. -/
theorem step_order {s t : State} (h : step s = .next t) (hok : ∀ info, t.run ≠ .faulted info) :
    (s.finished ∧ t.slot = s.slot ∧ t.cur = s.cur ∧ t.run = .done) ∨
      ¬ s.finished ∧ ∃ c n, searchSlot s (roundSlots s.cfg + 1) s.slot = some (c, n) ∧ t.slot = n ∧
        t.cur = s.cur.set c (s.cur.get c + 1) ∧ t.run = .running := by
  obtain ⟨-, hrun, ⟨hfin, rfl⟩ | ⟨c, n, hfin, hnext, -, -, ⟨-, rfl⟩ | ⟨a, m, -, hexec⟩⟩⟩ := step_cases h
  · exact .inl ⟨hfin, rfl, rfl, rfl⟩
  · exact absurd rfl (hok _)
  · rcases exec_cases hexec with ⟨-, rfl⟩ | ⟨-, rfl⟩
    · exact .inr ⟨hfin, c, n, searchSlot_of_nextCore hnext, rfl, rfl, hrun⟩
    · exact absurd rfl (hok _)

/-- Settles O19: a step without a fault moves the order by the search alone, which reads none of the contents. -/
theorem orderIgnoresContents : Obligations.OrderIgnoresContents := by
  unfold Obligations.OrderIgnoresContents
  intro s s' t t' hratio1 hratio2 hslot hcur hlength hstep hstep' hok hok'
  have horder : SameOrder s s' := ⟨hratio1, hratio2, hslot, hcur, hlength⟩
  rcases step_order hstep hok with ⟨hfin, hts, htc, htr⟩ | ⟨hfin, c, n, hsearch, hts, htc, htr⟩
  · obtain ⟨-, hts', htc', htr'⟩ :=
      (step_order hstep' hok').resolve_right (fun hopen => hopen.1 (horder.finished_iff.1 hfin))
    exact ⟨by rw [hts, hts', hslot], by rw [htc, htc', hcur], by rw [htr, htr']⟩
  · obtain ⟨-, c', n', hsearch', hts', htc', htr'⟩ :=
      (step_order hstep' hok').resolve_left (fun hend => hfin (horder.finished_iff.2 hend.1))
    rw [horder.roundSlots_eq, hslot, horder.searchSlot_eq, hsearch'] at hsearch
    obtain ⟨rfl, rfl⟩ := Prod.mk.inj (Option.some.inj hsearch)
    exact ⟨by rw [hts, hts'], by rw [htc, htc', hcur], by rw [htr, htr']⟩

/-! ### The end of a run (R198) -/

/-- The step that finds both streams exhausted ends the run. -/
theorem step_of_finished {s : State} (hcfg : s.cfg.Wf) (hrun : s.run = .running) (hfin : s.finished) :
    step s = .next (endRun s) := by
  simp only [step, hrun, if_pos hcfg, if_pos hfin]

/-- No other step ends it. -/
theorem finished_of_step_done {s t : State} (h : step s = .next t) (hdone : t.run = .done) : s.finished := by
  rcases step_order h (fun info => by simp [hdone]) with ⟨hfin, -⟩ | ⟨-, _, _, -, -, -, hrun⟩
  · exact hfin
  · simp [hrun] at hdone

/-- Settles O13: within the streams, exhausted means the cursors at the lengths, which is all that the end of a run asks for. -/
theorem runEndsExactlyWhenExhausted : Obligations.RunEndsExactlyWhenExhausted := by
  unfold Obligations.RunEndsExactlyWhenExhausted
  refine ⟨fun s hcfg hrun hle1 hle2 => ⟨fun heq1 heq2 => ?_, fun t hstep hdone => ?_⟩, fun cfg hcfg => ?_⟩
  · exact step_of_finished hcfg hrun ⟨heq1.ge, heq2.ge⟩
  · obtain ⟨hge1, hge2⟩ := finished_of_step_done hstep hdone
    exact ⟨hle1.antisymm hge1, hle2.antisymm hge2⟩
  · exact ⟨_, step_of_finished hcfg rfl ⟨le_rfl, le_rfl⟩, rfl, rfl⟩

/-! ### The item a step runs (R180, R181) -/

/-- A step executes the operation that the chosen core's record selects. -/
theorem step_of_record {s s1 : State} {c : CoreId} {a : Addr} {m : ModeCode} (hcfg : s.cfg.Wf) (hrun : s.run = .running)
    (hfin : ¬ s.finished) (hnext : nextCore s = some (c, s1)) (hitem : (s1.stream c)[s1.cur.get c]? = some (.record a m)) :
    step s = exec (selectInstr m a) s1 := by
  have hfetch : fetchItem s1 c = .instr (selectInstr m a) := by
    rw [fetchItem, List.getD_eq_getElem?_getD, hitem]
    rfl
  simp only [step, hrun, if_pos hcfg, if_neg hfin, hnext, hfetch]

/-- A decoded word is the operation that its two fields select (R72, R73). -/
theorem eq_selectInstr_of_decodeWord {addrW : Nat} {w : ReqWord} {i : Instr} (h : decodeWord addrW w = .instr i) :
    i = selectInstr (wordMode addrW w) (wordAddr addrW w) := by
  unfold decodeWord at h
  split at h
  · exact (Decoded.instr.inj h).symm
  · cases h

/-- Settles O11: the step fetches the chosen core's record, whose fields are those of any word it stands for. -/
theorem stepRunsDecodedItem : Obligations.StepRunsDecodedItem := by
  unfold Obligations.StepRunsDecodedItem
  intro s s1 c a m hcfg hrun hfin hnext hitem
  obtain ⟨-, n, rfl, -⟩ := nextCore_some hnext
  have hstep := step_of_record hcfg hrun hfin hnext hitem
  refine ⟨hstep, rfl, rfl, fun w i hword hdecode => ?_⟩
  obtain ⟨rfl, rfl⟩ := Item.record.inj hword
  rwa [eq_selectInstr_of_decodeWord hdecode]

/-! ### A word placed by the host (R196, log 12) -/

/-- A placed item stands at its position, whatever the stream holds. -/
theorem getElem?_placeItem (stream : List Item) (n : Nat) (item : Item) :
    (placeItem stream n item)[n]? = some item := by
  have hlength : (stream.take n ++ List.replicate (n - stream.length) Item.malformed).length = n := by
    simp
    omega
  rw [placeItem, List.getElem?_append_right hlength.le, hlength, Nat.sub_self]
  rfl

theorem getElem?_stream_placeNext (s : State) (item : Item) :
    ((placeNext s item).stream (slotOwner s.cfg s.slot))[s.cur.get (slotOwner s.cfg s.slot)]? = some item := by
  rw [State.stream, placeNext_streams, PerCore.get_set_same, getElem?_placeItem]

/-- The owner of the next slot has the placed item left. -/
theorem not_exhausted_placeNext (s : State) (item : Item) :
    ¬ (placeNext s item).exhausted (slotOwner s.cfg s.slot) := by
  obtain ⟨hlt, -⟩ := List.getElem?_eq_some_iff.1 (getElem?_stream_placeNext s item)
  exact Nat.not_le.2 hlt

/-- The scheduler chooses the owner of the next slot, for the item placed there. -/
theorem nextCore_placeNext (s : State) (item : Item) :
    nextCore (placeNext s item) =
      some (slotOwner s.cfg s.slot, chooseCore (slotOwner s.cfg s.slot) (slotAfter s.cfg s.slot) (placeNext s item)) :=
  nextCore_of_searchSlot (searchSlot_of_open _ (not_exhausted_placeNext s item))

theorem not_finished_placeNext (s : State) (item : Item) : ¬ (placeNext s item).finished := by
  rintro ⟨h1, h2⟩
  refine not_exhausted_placeNext s item ?_
  cases slotOwner s.cfg s.slot
  · exact h1
  · exact h2

/-- Settles O12: the record of the word stands where the scheduler takes the next item. -/
theorem placedWordRunsNext : Obligations.PlacedWordRunsNext := by
  unfold Obligations.PlacedWordRunsNext
  intro s nbits w i hcfg hdecode
  have hstep := step_of_record (s := s.withFetchWord nbits w) hcfg rfl (not_finished_placeNext s _)
    (nextCore_placeNext s _) (getElem?_stream_placeNext s _)
  rw [← eq_selectInstr_of_decodeWord hdecode] at hstep
  exact ⟨_, hstep, rfl, rfl, rfl, rfl, rfl, rfl, rfl, rfl⟩

end Sys2Proof.Machine

/-! ## Events and counters of an operation (R182, R189 to R193, R200) -/

namespace Sys2Proof.Machine

/-! ### An Invalid-Action (R182) -/

/-- Settles O32: the work of an Invalid-Action is its one event on the caches as they are. -/
theorem invalidActionOnlyReports : Obligations.InvalidActionOnlyReports := by
  unfold Obligations.InvalidActionOnlyReports
  intro s a m ha
  exact ⟨_, exec_inRange ha, executed_completeRecord rfl rfl rfl, rfl⟩

/-! ### Every event carries the issuing core (R80) -/

/-- All of the events are of core `c`. -/
def EventsOf (c : CoreId) (evs : List Event) : Prop := ∀ e ∈ evs, e.record.core = c.number

@[simp] theorem eventsOf_nil (c : CoreId) : EventsOf c [] := List.forall_mem_nil _

@[simp] theorem eventsOf_cons (c : CoreId) (e : Event) (evs : List Event) :
    EventsOf c (e :: evs) ↔ e.record.core = c.number ∧ EventsOf c evs := List.forall_mem_cons

@[simp] theorem eventsOf_append (c : CoreId) (evs evs' : List Event) :
    EventsOf c (evs ++ evs') ↔ EventsOf c evs ∧ EventsOf c evs' := List.forall_mem_append

@[simp] theorem eventsOf_l1VictimEvents (cfg : Config) (c : CoreId) (cs : Caches) (a : Addr) :
    EventsOf c (l1VictimEvents cfg c cs a) := by
  unfold l1VictimEvents
  rcases victimAddress cfg.l1 (cs.l1.get c) a with _ | va
  · simp
  · dsimp only
    split <;> simp [Event.record]

@[simp] theorem eventsOf_backEvents (cfg : Config) (c : CoreId) (cs : Caches) (va : Addr) (k : CoreId) :
    EventsOf c (backEvents cfg c cs va k) := by
  unfold backEvents
  rcases cs.stateL1 cfg k va with _ | st
  · simp
  · cases st <;> simp [Event.record]

@[simp] theorem eventsOf_l2VictimEvents (cfg : Config) (c : CoreId) (cs : Caches) (a : Addr) :
    EventsOf c (l2VictimEvents cfg c cs a) := by
  unfold l2VictimEvents
  rcases victimAddress cfg.l2 cs.l2 a with _ | va
  · simp
  · dsimp only
    split <;> simp [Event.record]

@[simp] theorem eventsOf_loadPeerEvents (cfg : Config) (c : CoreId) (a : Addr) (y : Lookup) :
    EventsOf c (loadPeerEvents cfg c a y) := by
  unfold loadPeerEvents
  split <;> simp [Event.record]

@[simp] theorem eventsOf_storePeerEvents (cfg : Config) (c : CoreId) (a : Addr) (y : Lookup) :
    EventsOf c (storePeerEvents cfg c a y) := by
  unfold storePeerEvents
  split <;> simp [Event.record]

section
variable {cfg : Config} (hcfg : cfg.Wf) {cs : Caches} (hok : CachesOk cfg cs) (c : CoreId) {a : Addr} (ha : inRange cfg a)
include hcfg hok ha

theorem eventsOf_loadOp : EventsOf c (loadOp cfg c a cs).events := by
  cases hx : (cs.stateL1 cfg c a).isValid with
  | true => simp [loadOp_hit_events hx, Event.record]
  | false =>
    cases hz : (cs.stateL2 cfg a).isValid with
    | true => simp [loadOp_missL2Hit_events hcfg hok hx hz, Event.record]
    | false => simp [loadOp_missBoth_events hcfg hok ha hx hz, Event.record]

theorem eventsOf_storeOp : EventsOf c (storeOp cfg c a cs).events := by
  rcases (cs.stateL1 cfg c a).owner_or_shared_or_invalid with owner | shared | hx
  · simp [storeOp_hitOwner_events owner, Event.record]
  · simp [storeOp_hitShared_events shared, Event.record]
  · cases hz : (cs.stateL2 cfg a).isValid with
    | true => simp [storeOp_missL2Hit_events hcfg hok hx hz, Event.record]
    | false => simp [storeOp_missBoth_events hcfg hok hx ha hz, Event.record]

end

/-! ### The misses among the events (R191, R192) -/

section
variable {cfg : Config} {c : CoreId} {a : Addr} {mode : ModeCode} {cs : Caches} {k : Work}
  (hpath : k.accesses = pathEvents cfg c a mode cs)
include hpath

theorem countP_isMissL1Of_of_path :
    k.events.countP (Event.isMissL1Of c) = (!(cs.stateL1 cfg c a).isValid).toNat := by
  rw [← countP_accesses (Event.isMissL1Of_of_isTransfer c), hpath, countP_isMissL1Of_pathEvents, beq_self_eq_true,
    Bool.true_and]

theorem countP_isMissL2_of_path :
    k.events.countP Event.isMissL2 = (!(cs.stateL1 cfg c a).isValid && !(cs.stateL2 cfg a).isValid).toNat := by
  rw [← countP_accesses Event.isMissL2_of_isTransfer, hpath, countP_isMissL2_pathEvents]

end

/-- A Load and a Store report their path, and events of their core alone. -/
theorem opOf_path {i : Instr} {a : Addr} (hi : i = .load a ∨ i = .store a) {cfg : Config} (hcfg : cfg.Wf) {cs : Caches}
    (hok : CachesOk cfg cs) (c : CoreId) (ha : inRange cfg a) :
    (∃ mode, (opOf i cfg c a cs).accesses = pathEvents cfg c a mode cs) ∧ EventsOf c (opOf i cfg c a cs).events := by
  rcases hi with rfl | rfl
  · exact ⟨⟨_, loadOp_accesses ..⟩, eventsOf_loadOp hcfg hok c ha⟩
  · exact ⟨⟨_, storeOp_accesses ..⟩, eventsOf_storeOp hcfg hok c ha⟩

/-- Settles O33: a Load or Store reports the misses of its path, an Invalid-Action none. -/
theorem countersFollowEvents : Obligations.CountersFollowEvents := by
  unfold Obligations.CountersFollowEvents
  rintro i s ⟨hcfg, hok, -⟩ hi
  by_cases haccess : ∃ a, i = .load a ∨ i = .store a
  · obtain ⟨a, ha⟩ := id haccess
    have haddr : i.addr = a := by rcases ha with rfl | rfl <;> rfl
    obtain ⟨⟨mode, hpath⟩, hcore⟩ := opOf_path ha hcfg hok s.issuing (haddr ▸ hi)
    subst haddr
    refine ⟨_, _, _, _, exec_inRange hi, executed_of_path hpath, countP_isMissL1Of_of_path hpath,
      countP_isMissL2_of_path hpath, hcore, ?_, ?_⟩
    · simp [haccess]
    · simp
  · obtain ⟨mode, a, rfl⟩ : ∃ mode a, i = .invalidAction mode a := by
      cases i with
      | load a => exact absurd ⟨a, .inl rfl⟩ haccess
      | store a => exact absurd ⟨a, .inr rfl⟩ haccess
      | invalidAction mode a => exact ⟨mode, a, rfl⟩
    obtain ⟨t, hexec, hexecuted, -⟩ := invalidActionOnlyReports s a mode hi
    exact ⟨t, _, false, false, hexec, hexecuted, rfl, rfl, (eventsOf_cons ..).2 ⟨rfl, eventsOf_nil _⟩, by simp, by simp⟩

/-! ### Loads of lines that no cache holds (R200) -/

/-- A victim is a line that the cache holds. -/
theorem not_victim_of_notPresent {g : Geometry} {K : Cache} (h : CacheOk g K) (hg : 1 ≤ g.ways) {a b : Addr}
    (hb : probe g K b = .notPresent) : ¬ ∃ va, victimAddress g K a = some va ∧ SameLine g b va := by
  rintro ⟨va, hva, hs⟩
  rw [probe_congr K hs, probe_victim h hg hva] at hb
  cases hb

/-- A miss of both levels brings no line but its own into a cache. -/
theorem fromMemory_notPresent {cfg : Config} (hcfg : cfg.Wf) {c : CoreId} {a b : Addr} {cs : Caches} (hok : CachesOk cfg cs)
    {mode : ModeCode} {st : Mesi} {k e k' : Work}
    (start : L1Evicted cfg c a (beforeL1Eviction cfg c a mode (afterLocalLookup cfg c a cs)) k)
    (fill : FilledFromMemory cfg c a mode st k e k') (hb : ¬ SameLine cfg.l1 b a)
    (h1 : ∀ d, cs.stateL1 cfg d b = .notPresent) (h2 : cs.stateL2 cfg b = .notPresent) :
    (∀ d, k'.caches.stateL1 cfg d b = .notPresent) ∧ k'.caches.stateL2 cfg b = .notPresent := by
  have hob := hcfg.1
  have hv1 := not_victim_of_notPresent (a := a) (hok.get_l1 c) (ways_l1 hcfg) (h1 c)
  have hv2 : ¬ L2Victim cfg cs.l2 a b := by
    rintro ⟨va, hva, hs⟩
    exact not_victim_of_notPresent hok.get_l2 (ways_l2 hcfg) h2 ⟨va, hva, (sameLine_l1_iff_l2 hob b va).1 hs⟩
  obtain ⟨hlocal, hpeer, hl2⟩ := fromMemory_otherLine hob hok start fill hb hv2
  refine ⟨fun d => ?_, (hl2.trans (missStart_stateL2_of_not_victim hok start hob hv1)).trans h2⟩
  rcases eq_or_eq_peer c d with rfl | rfl
  · exact (hlocal hv1).trans (h1 _)
  · exact hpeer.trans (h1 _)

theorem untouched_iff (s : State) (a : Addr) :
    Untouched s a ↔ (∀ d, s.stateL1 d a = .notPresent) ∧ s.stateL2 a = .notPresent := by
  constructor
  · rintro ⟨h1, h2, h3⟩
    exact ⟨fun d => by cases d <;> assumption, h3⟩
  · rintro ⟨h, h3⟩
    exact ⟨h .core1, h .core2, h3⟩

/-- A Load of an untouched line leaves every other untouched line so. -/
theorem untouched_after_load {s : State} (hcfg : s.cfg.Wf) (hok : CachesOk s.cfg s.caches) {a b : Addr}
    (ha : inRange s.cfg a) (hua : Untouched s a) (hub : Untouched s b) (hab : lineAddr s.cfg a ≠ lineAddr s.cfg b) :
    Untouched (completeRecord s.issuing (loadOp s.cfg s.issuing a s.caches) s) b := by
  rw [untouched_iff] at hua hub ⊢
  cases loadOp_accessed hcfg hok s.issuing ha with
  | hit valid => simp [hua, Lookup.isValid] at valid
  | fromL2 _ hitL2 => simp [hua, Lookup.isValid] at hitL2
  | fromMemory _ _ start fill =>
    exact fromMemory_notPresent hcfg hok start fill (mt (sameLine_l1_iff s.cfg b a).1 hab.symm) hub.1 hub.2

theorem outEvents_append (out out' : List Output) : outEvents (out ++ out') = outEvents out ++ outEvents out' :=
  List.filterMap_append

/-- A record's part of the output is its events and a snapshot (R31, R85). -/
theorem outEvents_record (evs : List Event) (cnt : Counters) :
    outEvents (evs.map Output.event ++ [.snapshot cnt]) = evs := by
  simp [outEvents, List.filterMap_map]

theorem Executed.outEvents_eq {s t : State} {evs : List Event} {m1 m2 : Bool} (h : Executed s t evs m1 m2) :
    outEvents t.out = outEvents s.out ++ evs := by
  rw [h.out, outEvents_append, outEvents_record]

/-- From `s` to `t` there were `n` misses of each level, all of the issuing core of `s` (R191, R192). -/
structure MissesCounted (s t : State) (n : Nat) : Prop where
  l1Events : (outEvents t.out).countP (Event.isMissL1Of s.issuing) =
    (outEvents s.out).countP (Event.isMissL1Of s.issuing) + n
  l2Events : (outEvents t.out).countP Event.isMissL2 = (outEvents s.out).countP Event.isMissL2 + n
  missL1 : t.counters.missL1.get s.issuing = (s.counters.missL1.get s.issuing + n) % 2 ^ s.cfg.cntW
  missL2 : t.counters.missL2 = (s.counters.missL2 + n) % 2 ^ s.cfg.cntW

theorem missesCounted_zero {s : State} (h : CountersOk s.cfg s.counters) : MissesCounted s s 0 := by
  obtain ⟨-, -, h1, h2, h3⟩ := h
  refine ⟨rfl, rfl, (Nat.mod_eq_of_lt ?_).symm, (Nat.mod_eq_of_lt h3).symm⟩
  cases s.issuing <;> assumption

theorem MissesCounted.trans {s t u : State} {m n : Nat} (h : MissesCounted s t m) (h' : MissesCounted t u n)
    (hcfg : t.cfg = s.cfg) (hcore : t.issuing = s.issuing) : MissesCounted s u (m + n) := by
  obtain ⟨h1, h2, h3, h4⟩ := h'
  rw [hcore] at h1 h3
  rw [hcfg] at h3 h4
  refine ⟨?_, ?_, ?_, ?_⟩
  · rw [h1, h.l1Events, Nat.add_assoc]
  · rw [h2, h.l2Events, Nat.add_assoc]
  · rw [h3, h.missL1, Nat.mod_add_mod, Nat.add_assoc]
  · rw [h4, h.missL2, Nat.mod_add_mod, Nat.add_assoc]

/-- A Load of an untouched line is one miss of each level. -/
theorem missesCounted_load {s : State} {a : Addr} (h : Untouched s a) :
    MissesCounted s (completeRecord s.issuing (loadOp s.cfg s.issuing a s.caches) s) 1 := by
  obtain ⟨hl1, hl2⟩ := (untouched_iff s a).1 h
  have hpath := loadOp_accesses s.cfg s.issuing a s.caches
  have h1 := countP_isMissL1Of_of_path hpath
  have h2 := countP_isMissL2_of_path hpath
  have hexecuted := executed_load s a
  simp only [hl1, hl2, Lookup.isValid, Bool.not_false, Bool.and_self, Bool.toNat_true] at h1 h2 hexecuted
  refine ⟨?_, ?_, hexecuted.missL1, hexecuted.missL2⟩ <;>
    rw [hexecuted.outEvents_eq, List.countP_append]
  · rw [h1]
  · rw [h2]

/-- Loads of different untouched lines, one after another: each leaves the lines of the later ones untouched. -/
theorem execAll_loads_untouched (as : List Addr) {s : State} (hcfg : s.cfg.Wf) (hok : CachesOk s.cfg s.caches)
    (hcnt : CountersOk s.cfg s.counters) (has : ∀ a ∈ as, inRange s.cfg a ∧ Untouched s a)
    (hlines : as.Pairwise (fun a b => lineAddr s.cfg a ≠ lineAddr s.cfg b)) :
    ∃ t, execAll (as.map Instr.load) s = .next t ∧ MissesCounted s t as.length := by
  induction as generalizing s with
  | nil => exact ⟨s, rfl, missesCounted_zero hcnt⟩
  | cons a rest ih =>
    obtain ⟨hne, hlines⟩ := List.pairwise_cons.1 hlines
    obtain ⟨⟨ha, hua⟩, hrest⟩ := List.forall_mem_cons.1 has
    obtain ⟨t, hexec, hcounted⟩ := ih (s := completeRecord s.issuing (loadOp s.cfg s.issuing a s.caches) s) hcfg
      ((loadOp_accessed hcfg hok _ ha).ok hok) (countersOk_countRecord hcnt _ _)
      (fun b hb => ⟨(hrest b hb).1, untouched_after_load hcfg hok ha hua (hrest b hb).2 (hne b hb)⟩) hlines
    refine ⟨t, ?_, ?_⟩
    · rw [List.map_cons, execAll, exec_inRange (i := .load a) ha]
      exact hexec
    · rw [List.length_cons, Nat.add_comm]
      exact (missesCounted_load hua).trans hcounted rfl rfl

/-- Whatever path a Load takes, its core holds the line afterwards (R141, R143, R148). -/
theorem loadOp_local_valid {cfg : Config} (hcfg : cfg.Wf) {cs : Caches} (hok : CachesOk cfg cs) (c : CoreId)
    {a b : Addr} (ha : inRange cfg a) (hb : SameLine cfg.l1 b a) :
    ((loadOp cfg c a cs).caches.stateL1 cfg c b).isValid = true := by
  rw [stateL1_eq]
  cases loadOp_accessed hcfg hok c ha with
  | hit valid toLocal => rwa [toLocal.state, if_pos hb]
  | fromL2 _ _ _ _ fill =>
    rw [fill.stateL1, if_pos hb, loadTable]
    dsimp only
    split <;> rfl
  | fromMemory _ _ _ fill =>
    rw [fill.stateL1, if_pos hb]
    rfl

/-- Settles O43: a Load makes its own line valid and no other present, so each first Load misses and the next one of its line
hits. -/
theorem missesOfUntouchedLines : Obligations.MissesOfUntouchedLines := by
  unfold Obligations.MissesOfUntouchedLines
  constructor
  · rintro s as ⟨hcfg, hok, hcnt, -⟩ has hlines
    obtain ⟨t, hexec, hl1, hl2, h1, h2⟩ := execAll_loads_untouched as hcfg hok hcnt has hlines
    exact ⟨t, hexec, hl1, hl2, h1, h2⟩
  · rintro s a b ⟨hcfg, hok, -⟩ ha hab
    have valid := loadOp_local_valid hcfg hok s.issuing ha ((sameLine_l1_iff s.cfg b a).2 hab.symm)
    exact ⟨_, _, exec_inRange ha, exec_inRange (i := .load b) (inRange_of_lineAddr_eq hcfg ha hab),
      executed_load_hit valid⟩

end Sys2Proof.Machine

/-! ## A malformed item and an address that does not fit (R210 to R213) -/

namespace Sys2Proof.Machine

/-- Raising a fault sets the run state alone (R210, R211). -/
theorem raised_raiseFault (info : FaultInfo) (s : State) : Raised s (raiseFault info s) info :=
  ⟨rfl, rfl, rfl, rfl, rfl, rfl, rfl, rfl, rfl⟩

/-- A step that finds a malformed item raises MalformedRecord (R181, R212). -/
theorem step_of_malformed {s s1 : State} {c : CoreId} (hcfg : s.cfg.Wf) (hrun : s.run = .running) (hfin : ¬ s.finished)
    (hnext : nextCore s = some (c, s1)) (hitem : (s1.stream c)[s1.cur.get c]? = some .malformed) :
    step s = .next (raiseFault (.malformedRecord c (s1.cur.get c)) s1) := by
  have hfetch : fetchItem s1 c = .malformed := by
    rw [fetchItem, List.getD_eq_getElem?_getD, hitem]
    rfl
  simp only [step, hrun, if_pos hcfg, if_neg hfin, hnext, hfetch]

/-- Settles O15: the step raises the fault on the state the scheduler left, and a faulted machine takes no step. -/
theorem malformedItemFaults : Obligations.MalformedItemFaults := by
  unfold Obligations.MalformedItemFaults
  intro s s1 c hcfg hrun hfin hnext hitem
  obtain ⟨-, n, rfl, -⟩ := nextCore_some hnext
  exact ⟨_, step_of_malformed hcfg hrun hfin hnext hitem, raised_raiseFault _ _, rfl, step_of_faulted hcfg rfl⟩

/-- An operation on an address that does not fit raises AddressOutOfRange and does nothing else (R55, R213). -/
theorem exec_raises_of_outOfRange {i : Instr} {s : State} (h : i.addr ≥ 2 ^ s.cfg.addrW) :
    ∃ t, exec i s = .next t ∧ Raised s t (.addressOutOfRange s.issuing (s.cur.get s.issuing) i.addr) :=
  ⟨_, exec_outOfRange (Nat.not_lt.2 h), raised_raiseFault _ _⟩

/-- Settles O16: the step executes the operation the record selects, on the record's address, and every operation asks first
whether its address fits. -/
theorem addressOutOfRangeFaults : Obligations.AddressOutOfRangeFaults := by
  unfold Obligations.AddressOutOfRangeFaults
  refine ⟨fun s s1 c a m hcfg hrun hfin hnext hitem ha => ?_, fun _ _ => exec_raises_of_outOfRange⟩
  obtain ⟨-, n, rfl, -⟩ := nextCore_some hnext
  obtain ⟨t, hexec, hraised⟩ :=
    exec_raises_of_outOfRange (i := selectInstr m a) (s := chooseCore c n s) (by rwa [selectInstr_addr])
  rw [selectInstr_addr] at hraised
  exact ⟨t, (step_of_record hcfg hrun hfin hnext hitem).trans hexec, hraised, rfl⟩

end Sys2Proof.Machine

/-! ## The two cores exchanged (R220) -/

namespace Sys2Proof.Machine

/-- The L1 `K` after a back-invalidation of the line at `va`: a valid copy has become Invalid (R116). -/
def dropCopy (cfg : Config) (va : Addr) (K : Cache) : Cache :=
  if (probe cfg.l1 K va).isValid then setState cfg.l1 .I va K else K

/-- A back-invalidation drops the target's copy and writes no other L1. -/
theorem backInvalidate_l1 (cfg : Config) (c : CoreId) (va : Addr) (target d : CoreId) (k : Work) :
    (backInvalidate cfg c va target k).l1 d = if d = target then dropCopy cfg va (k.l1 d) else k.l1 d := by
  rw [backInvalidate_eq, dropCopy, Work.mk_l1, Work.caches_l1]
  by_cases hd : d = target
  · subst hd
    split <;> simp
  · split <;> simp [Work.withL1_l1, hd]

theorem backInvalidate_l2 (cfg : Config) (c : CoreId) (va : Addr) (target : CoreId) (k : Work) :
    (backInvalidate cfg c va target k).l2 = k.l2 := by
  rw [backInvalidate_eq, Work.mk_l2, Work.caches_l2]
  split <;> simp

/-- Both L1s lose their copies to an L2 eviction: the order of the two back-invalidations does not show in the caches. -/
theorem backInvalidate_both_l1 (cfg : Config) (c : CoreId) (va : Addr) (d : CoreId) (k : Work) :
    (backInvalidate cfg c va .core2 (backInvalidate cfg c va .core1 k)).l1 d = dropCopy cfg va (k.l1 d) := by
  cases d <;> simp [backInvalidate_l1]

theorem Caches.swap_l1_get (cs : Caches) (c : CoreId) : cs.swap.l1.get (peer c) = cs.l1.get c := by cases c <;> rfl

theorem Caches.swap_stateL1 (cfg : Config) (cs : Caches) (c : CoreId) (a : Addr) :
    cs.swap.stateL1 cfg (peer c) a = cs.stateL1 cfg c a := by
  rw [Caches.stateL1, Caches.swap_l1_get, Caches.stateL1]

theorem Caches.swap_stateL2 (cfg : Config) (cs : Caches) (a : Addr) : cs.swap.stateL2 cfg a = cs.stateL2 cfg a := rfl

/-- The caches of `k'` are those of `k` with the two L1s exchanged; the events may be any. -/
structure Mirrored (k k' : Work) : Prop where
  l1 : ∀ c, k'.l1 (peer c) = k.l1 c
  l2 : k'.l2 = k.l2

/-- `Mirrored` is what `Caches.swap` says, whatever the events are. -/
theorem mirrored_iff (k k' : Work) : Mirrored k k' ↔ k'.caches = k.caches.swap := by
  obtain ⟨⟨⟨x1, x2⟩, x⟩, evs⟩ := k
  obtain ⟨⟨⟨y1, y2⟩, y⟩, evs'⟩ := k'
  constructor
  · rintro ⟨hl1, hl2⟩
    have h1 : y2 = x1 := hl1 .core1
    have h2 : y1 = x2 := hl1 .core2
    have h3 : y = x := hl2
    rw [h1, h2, h3]
    rfl
  · intro h
    cases h
    exact ⟨fun c => by cases c <;> rfl, rfl⟩

namespace Mirrored

variable {k k' : Work}

theorem emit (h : Mirrored k k') (e e' : Event) : Mirrored (k.emit e) (k'.emit e') := ⟨h.l1, h.l2⟩

/-- One function applied to the L1 of a core, and in the mirror to that of its peer. -/
theorem updateL1 (h : Mirrored k k') (c : CoreId) (f : Cache → Cache) :
    Mirrored (k.withL1 c (f (k.l1 c))) (k'.withL1 (peer c) (f (k'.l1 (peer c)))) where
  l1 d := by
    rcases eq_or_eq_peer c d with rfl | rfl
    · simp [h.l1]
    · have hother : k'.l1 c = k.l1 (peer c) := by simpa using h.l1 (peer c)
      simp [hother]
  l2 := h.l2

theorem updateL2 (h : Mirrored k k') (f : Cache → Cache) : Mirrored (k.withL2 (f k.l2)) (k'.withL2 (f k'.l2)) :=
  ⟨h.l1, congrArg f h.l2⟩

theorem ite {p : Prop} [Decidable p] {m m' : Work} (h : Mirrored k k') (h' : Mirrored m m') :
    Mirrored (if p then k else m) (if p then k' else m') := by
  split
  · exact h
  · exact h'

/-! ### The evictions -/

/-- The back-invalidations of an L2 victim, core 1's first on both sides (R116). -/
theorem backInvalidate_both (h : Mirrored k k') (cfg : Config) (c c' : CoreId) (va : Addr) :
    Mirrored (backInvalidate cfg c va .core2 (backInvalidate cfg c va .core1 k))
      (backInvalidate cfg c' va .core2 (backInvalidate cfg c' va .core1 k')) where
  l1 d := by rw [backInvalidate_both_l1, backInvalidate_both_l1, h.l1]
  l2 := by simp only [backInvalidate_l2, h.l2]

variable (cfg : Config) (c : CoreId) (a : Addr)

theorem evictL1Victim (h : Mirrored k k') :
    Mirrored (evictL1Victim cfg c a k).2 (evictL1Victim cfg (peer c) a k').2 := by
  have hway : fillWay cfg.l1 (k'.l1 (peer c)) a = fillWay cfg.l1 (k.l1 c) a := by rw [h.l1]
  have hvictim : selectVictim cfg.l1 (k'.l1 (peer c)) a = selectVictim cfg.l1 (k.l1 c) a := by rw [h.l1]
  unfold Machine.evictL1Victim
  simp only [hway, hvictim]
  cases (selectVictim cfg.l1 (k.l1 c) a).tag with
  | none => exact h
  | some t =>
    cases (selectVictim cfg.l1 (k.l1 c) a).st with
    | M => exact ((h.emit _ _).updateL2 (setState cfg.l2 .M _)).updateL1 c (invalidateWay cfg.l1 _ a)
    | E | S | I => exact h.updateL1 c (invalidateWay cfg.l1 _ a)

theorem evictL2Victim (h : Mirrored k k') :
    Mirrored (evictL2Victim cfg c a k).2 (evictL2Victim cfg (peer c) a k').2 := by
  unfold Machine.evictL2Victim
  simp only [h.l2]
  cases (selectVictim cfg.l2 k.l2 a).tag with
  | none => exact h
  | some t => exact ((ite (h.emit _ _) h).backInvalidate_both cfg _ _ _).updateL2 (invalidateWay cfg.l2 _ a)

/-! ### The parts of a miss -/

theorem startMiss (h : Mirrored k k') (mode : ModeCode) :
    Mirrored (startMiss cfg c a mode k).work (startMiss cfg (peer c) a mode k').work :=
  ((h.updateL2 (fun K => (lookup cfg.l2 K a).2)).emit _ _).evictL1Victim cfg c a

theorem startMiss_way (h : Mirrored k k') (mode : ModeCode) :
    (Machine.startMiss cfg (peer c) a mode k').way = (Machine.startMiss cfg c a mode k).way := by
  rw [Machine.startMiss_way, Machine.startMiss_way, h.l1]

theorem fillFromMemory (h : Mirrored k k') (mode : ModeCode) (st : Mesi) (w : Nat) :
    Mirrored (fillFromMemory cfg c a mode st w k) (fillFromMemory cfg (peer c) a mode st w k') := by
  unfold Machine.fillFromMemory
  simp only [evictL2Victim_way, Work.emit_l2, h.l2]
  exact (((h.emit _ _).evictL2Victim cfg c a).updateL1 c (install cfg.l1 st w a)).updateL2 (install cfg.l2 .S _ a)

theorem fillFromL2 (h : Mirrored k k') (st : Mesi) (w : Nat) :
    Mirrored (fillFromL2 cfg c a st w k) (fillFromL2 cfg (peer c) a st w k') :=
  (h.updateL1 c (install cfg.l1 st w a)).updateL2 (setState cfg.l2 .S a)

theorem invalidatePeer (h : Mirrored k k') : Mirrored (invalidatePeer cfg c a k) (invalidatePeer cfg (peer c) a k') :=
  (h.updateL1 (peer c) (setState cfg.l1 .I a)).emit _ _

theorem loadFromPeer (h : Mirrored k k') (w : Nat) :
    Mirrored (loadFromPeer cfg c a w k) (loadFromPeer cfg (peer c) a w k') := by
  have hread := h.updateL1 (peer c) (fun K => (lookup cfg.l1 K a).2)
  have hstate : (lookup cfg.l1 (k'.l1 (peer (peer c))) a).1 = (lookup cfg.l1 (k.l1 (peer c)) a).1 := by rw [h.l1]
  unfold Machine.loadFromPeer
  simp only [hstate]
  cases (lookup cfg.l1 (k.l1 (peer c)) a).1 with
  | notPresent => exact hread.fillFromL2 cfg c a _ w
  | found st =>
    cases st with
    | M => exact ((hread.emit _ _).invalidatePeer cfg c a).fillFromL2 cfg c a _ w
    | E => exact (hread.updateL1 (peer c) (setState cfg.l1 .S a)).fillFromL2 cfg c a _ w
    | S | I => exact hread.fillFromL2 cfg c a _ w

theorem storeFromPeer (h : Mirrored k k') (w : Nat) :
    Mirrored (storeFromPeer cfg c a w k) (storeFromPeer cfg (peer c) a w k') := by
  have hread := h.updateL1 (peer c) (fun K => (lookup cfg.l1 K a).2)
  have hstate : (lookup cfg.l1 (k'.l1 (peer (peer c))) a).1 = (lookup cfg.l1 (k.l1 (peer c)) a).1 := by rw [h.l1]
  unfold Machine.storeFromPeer
  simp only [hstate]
  exact (ite (hread.invalidatePeer cfg c a) hread).fillFromL2 cfg c a _ w

theorem storeUpgrade (h : Mirrored k k') : Mirrored (storeUpgrade cfg c a k) (storeUpgrade cfg (peer c) a k') := by
  unfold Machine.storeUpgrade
  rw [h.l1 (peer c)]
  exact (ite (h.invalidatePeer cfg c a) h).updateL1 c (setState cfg.l1 .M a)

theorem storeMiss (h : Mirrored k k') : Mirrored (storeMiss cfg c a k) (storeMiss cfg (peer c) a k') := by
  have hmiss := h.startMiss cfg c a modeStore
  unfold Machine.storeMiss
  simp only [startMiss_hitL2, h.l2, h.startMiss_way]
  exact ite (hmiss.storeFromPeer cfg c a _) (hmiss.fillFromMemory cfg c a _ _ _)

/-! ### LOAD and STORE -/

variable (cs : Caches)

theorem afterLocalLookup : Mirrored (afterLocalLookup cfg c a cs) (afterLocalLookup cfg (peer c) a cs.swap) :=
  ((mirrored_iff ⟨cs, []⟩ ⟨cs.swap, []⟩).2 rfl).updateL1 c (fun K => (lookup cfg.l1 K a).2)

/-- The two cores' Loads take the same path and stay mirrored. -/
theorem loadOp : Mirrored (loadOp cfg c a cs) (loadOp cfg (peer c) a cs.swap) := by
  have hlookup := afterLocalLookup cfg c a cs
  have hstate := cs.swap_stateL1 cfg c a
  cases hhit : (cs.stateL1 cfg c a).isValid with
  | true =>
    rw [loadOp_hit hhit, loadOp_hit (hstate ▸ hhit)]
    exact hlookup.emit _ _
  | false =>
    have hmiss := hlookup.startMiss cfg c a modeLoad
    have hway := hlookup.startMiss_way cfg c a modeLoad
    have hstate2 := cs.swap_stateL2 cfg a
    cases hhit2 : (cs.stateL2 cfg a).isValid with
    | true =>
      rw [loadOp_missL2Hit hhit hhit2, loadOp_missL2Hit (hstate ▸ hhit) (hstate2 ▸ hhit2), hway]
      exact hmiss.loadFromPeer cfg c a _
    | false =>
      rw [loadOp_missL2Miss hhit hhit2, loadOp_missL2Miss (hstate ▸ hhit) (hstate2 ▸ hhit2), hway]
      exact hmiss.fillFromMemory cfg c a _ _ _

/-- The two cores' Stores take the same path and stay mirrored. -/
theorem storeOp : Mirrored (storeOp cfg c a cs) (storeOp cfg (peer c) a cs.swap) := by
  have hlookup := afterLocalLookup cfg c a cs
  have hstate := cs.swap_stateL1 cfg c a
  rcases (cs.stateL1 cfg c a).owner_or_shared_or_invalid with howner | hshared | hinvalid
  · rw [storeOp_hitOwner howner, storeOp_hitOwner (hstate ▸ howner)]
    exact (hlookup.emit _ _).updateL1 c (setState cfg.l1 .M a)
  · rw [storeOp_hitShared hshared, storeOp_hitShared (hstate ▸ hshared)]
    exact (hlookup.emit _ _).storeUpgrade cfg c a
  · rw [storeOp_miss hinvalid, storeOp_miss (hstate ▸ hinvalid)]
    exact hlookup.storeMiss cfg c a

end Mirrored

/-- Settles O38: every update of an operation is one of the issuing core's L1, of its peer's or of the L2, and the
back-invalidations drop both L1s' copies, so the exchange of the L1s is kept from the start to the end. -/
theorem coresAreTreatedAlike : Obligations.CoresAreTreatedAlike := by
  unfold Obligations.CoresAreTreatedAlike
  intro cfg c a cs
  exact ⟨(mirrored_iff _ _).1 (Mirrored.loadOp cfg c a cs), (mirrored_iff _ _).1 (Mirrored.storeOp cfg c a cs)⟩

end Sys2Proof.Machine

/-! ## Reset, the first step and the end of every run (R240 to R246) -/

namespace Sys2Proof.Machine

/-! ### The item of the chosen core, whatever it is (R181) -/

/-- What a step does with the item `n` of core `c`, once the scheduler has left the state `u` (R181). -/
def runItem (c : CoreId) (n : Nat) (u : State) : Item → Host.Outcome State Fault Refusal
  | .record a m => exec (selectInstr m a) u
  | .malformed => .next (raiseFault (.malformedRecord c n) u)

theorem not_finished_of_open {s : State} {c : CoreId} (h : ¬ s.exhausted c) : ¬ s.finished := by
  rintro ⟨h1, h2⟩
  cases c
  · exact h h1
  · exact h h2

/-- A step runs the item at the chosen core's cursor. -/
theorem step_of_item {s s1 : State} {c : CoreId} {item : Item} (hcfg : s.cfg.Wf) (hrun : s.run = .running)
    (hnext : nextCore s = some (c, s1)) (hitem : (s1.stream c)[s1.cur.get c]? = some item) :
    step s = runItem c (s1.cur.get c) s1 item := by
  have hfin : ¬ s.finished := not_finished_of_open (nextCore_some hnext).1
  cases item with
  | record a m => exact step_of_record hcfg hrun hfin hnext hitem
  | malformed => exact step_of_malformed hcfg hrun hfin hnext hitem

/-- The scheduler chooses the owner of the next slot where it has an item left (R196). -/
theorem nextCore_of_open {s : State} {c : CoreId} (howner : slotOwner s.cfg s.slot = c) (h : ¬ s.exhausted c) :
    nextCore s = some (c, chooseCore c (slotAfter s.cfg s.slot) s) := by
  subst howner
  exact nextCore_of_searchSlot (searchSlot_of_open _ h)

/-- While a run is not at its end, the scheduler chooses a core with an item left (R196). -/
theorem exists_nextCore {s : State} (hcfg : s.cfg.Wf) (hslot : s.slot < roundSlots s.cfg) (h : ¬ s.finished) :
    ∃ c n, ¬ s.exhausted c ∧ nextCore s = some (c, chooseCore c n s) := by
  obtain ⟨d, -, -, hopen, hnext⟩ := schedulerTakesFirstOpenSlot s hcfg hslot h
  exact ⟨_, _, hopen, hnext⟩

/-! ### The first step after reset (R243) -/

/-- Slot 0 is core 1's, so after reset the scheduler chooses core 1 where its stream has an item. -/
theorem nextCore_resetWith_core1 {cfg : Config} (hcfg : cfg.Wf) (item : Item) (rest : List Item)
    (t2 : Option (List Item)) :
    ∃ n, nextCore (resetWith cfg (some (item :: rest)) t2) =
      some (.core1, chooseCore .core1 n (resetWith cfg (some (item :: rest)) t2)) := by
  obtain ⟨-, -, -, -, -, hratio1, -⟩ := hcfg
  have howner : slotOwner cfg 0 = .core1 := if_pos hratio1
  exact ⟨_, nextCore_of_open howner (Nat.not_succ_le_zero _)⟩

/-- After reset with an empty stream of core 1 the scheduler can only choose core 2. -/
theorem nextCore_resetWith_core2 {cfg : Config} (hcfg : cfg.Wf) (item : Item) (rest : List Item) :
    ∃ n, nextCore (resetWith cfg (some []) (some (item :: rest))) =
      some (.core2, chooseCore .core2 n (resetWith cfg (some []) (some (item :: rest)))) := by
  have hopen : ¬ (resetWith cfg (some []) (some (item :: rest))).exhausted .core2 := Nat.not_succ_le_zero _
  obtain ⟨-, -, -, -, -, hslot⟩ := structOk_resetWith hcfg (some []) (some (item :: rest))
  obtain ⟨c, n, hc, hnext⟩ := exists_nextCore hcfg hslot (not_finished_of_open hopen)
  cases c with
  | core1 => exact absurd le_rfl hc
  | core2 => exact ⟨n, hnext⟩

/-- Settles O18: the scheduler's first choice is core 1 or, without an item there, core 2, and every cursor is 0. -/
theorem firstStepTakesFirstItem : Obligations.FirstStepTakesFirstItem := by
  unfold Obligations.FirstStepTakesFirstItem
  intro cfg item rest other hcfg
  constructor
  · obtain ⟨n, hnext⟩ := nextCore_resetWith_core1 hcfg item rest (some other)
    exact ⟨_, rfl, rfl, rfl, step_of_item hcfg rfl hnext rfl⟩
  · obtain ⟨n, hnext⟩ := nextCore_resetWith_core2 hcfg item rest
    exact ⟨_, rfl, rfl, rfl, step_of_item hcfg rfl hnext rfl⟩

/-! ### Every run ends (R246) -/

theorem exists_exec_next (i : Instr) (s : State) : ∃ t, exec i s = .next t := by
  by_cases h : inRange s.cfg i.addr
  · exact ⟨_, exec_inRange h⟩
  · exact ⟨_, exec_outOfRange h⟩

theorem exists_runItem_next (c : CoreId) (n : Nat) (u : State) (item : Item) : ∃ t, runItem c n u item = .next t := by
  cases item with
  | record a m => exact exists_exec_next _ u
  | malformed => exact ⟨_, rfl⟩

/-- A running machine in order takes a step: no state blocks it (R180). -/
theorem exists_step_next {s : State} (hok : StructOk s) (hrun : s.run = .running) : ∃ t, step s = .next t := by
  obtain ⟨hcfg, -, -, -, -, hslot⟩ := hok
  by_cases hfin : s.finished
  · exact ⟨_, step_of_finished hcfg hrun hfin⟩
  · obtain ⟨c, n, hopen, hnext⟩ := exists_nextCore hcfg hslot hfin
    obtain ⟨item, hitem, -⟩ := fetchItem_eq hopen
    rw [step_of_item hcfg hrun hnext hitem]
    exact exists_runItem_next c _ _ item

/-- The items left, the ones of core `c` first. -/
theorem State.remaining_eq (s : State) (c : CoreId) :
    s.remaining = ((s.stream c).length - s.cur.get c) + ((s.stream (peer c)).length - s.cur.get (peer c)) := by
  cases c
  · rfl
  · exact Nat.add_comm _ _

/-- A step after which the machine still runs has taken one item. -/
theorem step_remaining {s t : State} (h : step s = .next t) (hrun : t.run = .running) : t.remaining + 1 = s.remaining := by
  obtain ⟨-, -, hstreams, ⟨hend, -⟩ | ⟨-, c, hleft, hone, hother⟩⟩ := stepMovesForward s t h
  · exact absurd hrun hend
  · have hstream (d : CoreId) : t.stream d = s.stream d := congrArg (PerCore.get · d) hstreams
    rw [t.remaining_eq c, s.remaining_eq c, hone, hother, hstream, hstream]
    omega

/-- The step that ends a run well leaves both cursors at the ends of their streams (R198). -/
theorem cursors_at_ends_of_step_done {s t : State} (hok : StructOk s) (hrun : s.run = .running) (h : step s = .next t)
    (hdone : t.run = .done) : t.cur.core1 = t.streams.core1.length ∧ t.cur.core2 = t.streams.core2.length := by
  obtain ⟨hcfg, -, -, hle1, hle2, -⟩ := hok
  obtain ⟨-, -, hstreams, ⟨-, hcur⟩ | ⟨htrun, -⟩⟩ := stepMovesForward s t h
  · rw [hcur, hstreams]
    exact (runEndsExactlyWhenExhausted.1 s hcfg hrun hle1 hle2).2 t h hdone
  · simp [htrun] at hdone

theorem run_succ_of_step {K : Host.Core} {s t : K.State} (h : K.step s = .next t) (k : Nat) :
    K.run (k + 1) s = K.run k t := by
  rw [Host.Core.run, h]

/-- Settles O21, by induction on the items left: a running machine takes a step, and that step ends the run or takes one of
them. -/
theorem everyRunEnds : Obligations.EveryRunEnds := by
  unfold Obligations.EveryRunEnds
  intro s hok hrun
  induction hn : s.remaining using Nat.strong_induction_on generalizing s with
  | _ n ih =>
    obtain ⟨t, hstep⟩ := exists_step_next hok hrun
    by_cases htrun : t.run = .running
    · have hone := step_remaining hstep htrun
      obtain ⟨k, u, hk, hu, hend, hdone⟩ := ih t.remaining (by omega) t (stepKeepsStructure s t hok hstep) htrun rfl
      exact ⟨k + 1, u, by omega, (run_succ_of_step hstep k).trans hu, hend, hdone⟩
    · exact ⟨1, t, by omega, run_succ_of_step hstep 0, htrun, cursors_at_ends_of_step_done hok hrun hstep⟩

/-! ### The state the start answers (R215, R240, R241, R245) -/

/-- No set is listed after reset, so every L1 set reads as one of empty lines, way 0 least recently used. -/
theorem setAt_l1_reset (g : Geometry) (c : CoreId) (a : Addr) : setAt g (Caches.reset.l1.get c) a = resetSet g := by
  cases c <;> rfl

theorem setAt_l2_reset (g : Geometry) (a : Addr) : setAt g Caches.reset.l2 a = resetSet g := rfl

/-- Settles O1: the start answers `resetWith`, whose caches list no set and whose run state is `startRun`. -/
theorem resetLeavesSpecifiedState : Obligations.ResetLeavesSpecifiedState := by
  unfold Obligations.ResetLeavesSpecifiedState
  intro cfg t1 t2 hcfg
  refine ⟨resetWith cfg t1 t2, start_of_wf hcfg t1 t2, rfl, fun c a => ?_, fun a => ?_, rfl, rfl, rfl, rfl, ?_, ?_, ?_⟩
  · have hset := setAt_l1_reset cfg.l1 c a
    exact ⟨congrArg CacheSet.lru hset, congrArg CacheSet.ways hset⟩
  · have hset := setAt_l2_reset cfg.l2 a
    exact ⟨congrArg CacheSet.lru hset, congrArg CacheSet.ways hset⟩
  · rintro l1 l2 rfl rfl
    exact ⟨rfl, rfl⟩
  · rintro rfl
    rfl
  · rintro l1 rfl rfl
    rfl

end Sys2Proof.Machine
